-- ==== Sys2Proof/Word.lean ====
section
/-! DEFINITION. The words, small enumerations and transaction types of ECBD that instructions and state share. -/

namespace Sys2Proof

/-- One byte, the addressable unit of the buffer store (R50). -/
abbrev Byte := BitVec 8

/-- A command, response or status word (R76, R81, R84). -/
abbrev Word := BitVec 32

/-- A buffer slot number 0 .. 63 (R50; 6 bits wherever it is stored, R28, R29, R31, R34). -/
abbrev Slot := Fin 64

/-- The two host ports (R76, R114). -/
inductive Port where
  | control
  | data
  deriving DecidableEq, Repr, Inhabited

/-- The three fields of the 6-byte wire header (R71, R73). -/
structure Header where
  /-- block_index -/
  bi : BitVec 24
  /-- packet_index -/
  pi : BitVec 8
  /-- payload_size -/
  ps : BitVec 16
  deriving DecidableEq, Repr, Inhabited

/-- What `raise Fatal` records (R184); NONE is the absence of a cause. -/
inductive Cause where
  | codec
  | pool
  deriving DecidableEq, Repr, Inhabited

/-- The rows of the packet classification map (R74). -/
inductive PacketClass where
  | malformedIndex
  | malformedSize
  | stale
  | supersede
  | dupData
  | data
  | dupRed
  | red
  deriving DecidableEq, Repr, Inhabited

/-- The codec's answer to one decode call: `ok(DST[0..m-1])` or `fail` (R86). -/
inductive CodecReply where
  | fail
  | ok (dst : List (List Byte))
  deriving DecidableEq, Repr, Inhabited

/-- Bits `lo .. lo+len-1` of a word, `v[lo+len-1 : lo]` in the notation of R9. -/
abbrev field (w : Word) (lo len : Nat) : BitVec len := w.extractLsb' lo len

end Sys2Proof
end

