-- ==== Sys2Proof/Config.lean ====
section
/-! DEFINITION. What is fixed for a model instance, and the values the spec leaves free: the codec, the bytes of the buffer store that nothing has written, and which agent moves next. -/

namespace Sys2Proof

/-- N_MAX, the largest n (R5). -/
def Config.nMax : Nat := 32

/-- SLOTS, the physical buffer slots (R5, D12). -/
def Config.slots : Nat := 64

/-- The two OPEN synthesis parameters of R5: the physical FIFO depth (D11) and the largest mtu (D4).
A machine holds one value of them that no step writes (log 3). -/
structure Params where
  fifoDepth : Nat
  mtuMax : Nat
  deriving DecidableEq, Repr, Inhabited

/-- The ranges R5 gives the open parameters. -/
abbrev Params.legal (p : Params) : Prop := 1 ≤ p.fifoDepth ∧ 1 ≤ p.mtuMax ∧ p.mtuMax ≤ 65535

/-- What the outside brings to one WORKER turn: whether CONSUMER takes the offer at this moment (R151),
which free slot Acquire draws (R54), and what the codec answers in this turn. `reply = none` means that
the attached codec `Config.codecReply` answers (log 6). -/
structure WorkerEnv where
  take : Bool
  pick : Nat
  reply : Option CodecReply
  deriving DecidableEq, Repr, Inhabited

/-- One agent's move (R7, R11): the host puts a word on a port, the framer or the worker takes the step its
phase selects, or the reset input is pulsed (R210). CONSUMER and CODEC act inside the WORKER's turn. -/
inductive Turn where
  | ctrl (w : Word)
  | data (w : Word) (stream : List Byte)
  | framer (pick : Nat)
  | worker (env : WorkerEnv)
  | reset
  deriving DecidableEq, Repr, Inhabited

/-- FREE VALUE (log 1): the move at step number `tick` when the state lists no turn. The spec lets the steps of
different agents interleave in any order (R7) and leaves to the host what it issues. -/
opaque Config.freeTurn (tick : Nat) : Turn

/-- FREE VALUE (log 4): what the byte at `key` of the buffer store holds when no step has written it since the reset
numbered `epoch` (R33, D13: unspecified, a draw). -/
opaque Config.freeByte (epoch key : Nat) : Byte

/-- CODEC_DECODE, an OPEN configuration function (R5, R160, D27): `none` is `fail`; otherwise byte `o` of destination
`j` is `f j o`. The first argument numbers the draw: on sources that are not correct shares the answer is a draw
(R160, U3; log 6). -/
opaque Config.codecDecode (draw k mtu : Nat) (idx : List Nat) (src : List (List Byte)) (m : Nat) :
    Option (Nat → Nat → Byte)

/-- The answer of the attached codec as a transaction of the shape R86 gives: m destinations of mtu bytes each. -/
def Config.codecReply (draw k mtu : Nat) (idx : List Nat) (src : List (List Byte)) (m : Nat) : CodecReply :=
  match Config.codecDecode draw k mtu idx src m with
  | none => .fail
  | some f => .ok ((List.range m).map fun j => (List.range mtu).map fun o => f j o)

/-- The indices 0 .. k-1 that do not appear in `idx`, ascending: `miss_0 < miss_1 < …` of R160. -/
def Config.missing (k : Nat) (idx : List Nat) : List Nat := (List.range k).filter fun i => !idx.contains i

/-- `E` is an encoder's systematic code for (k, n, mtu): n shares of mtu bytes, the first k of them the data (R160). -/
def Config.Systematic (k n mtu : Nat) (E : List (List Byte) → List (List Byte)) : Prop :=
  ∀ D : List (List Byte), D.length = k → (∀ d ∈ D, d.length = mtu) →
    (E D).length = n ∧ (∀ e ∈ E D, e.length = mtu) ∧ ∀ i, i < k → (E D)[i]? = D[i]?

/-- The codec contract of R160, a named hypothesis: a codec, given any k distinct share indices out of n with
their correct contents, answers every missing data share bit for bit, in ascending order of the missing index. -/
def Config.CodecContract (k n mtu : Nat) (E : List (List Byte) → List (List Byte))
    (codec : List Nat → List (List Byte) → Nat → CodecReply) : Prop :=
  ∀ (D : List (List Byte)) (idx : List Nat) (src : List (List Byte)),
    D.length = k → (∀ d ∈ D, d.length = mtu) →
    idx.length = k → idx.Nodup → (∀ q ∈ idx, q < n) →
    (src.length = k ∧ ∀ j, j < k → ∃ q, idx[j]? = some q ∧ src[j]? = (E D)[q]?) →
    codec idx src (Config.missing k idx).length
      = .ok ((Config.missing k idx).map fun i => D.getD i [])

end Sys2Proof
end

