-- ==== Sys2Proof/Syntax.lean ====
section
/-! DEFINITION. The instructions: one constructor for each row of spec/opcode_table.json, with the operands its rule gives it. -/

namespace Sys2Proof

/-- The rows of the opcode table. Command words carry their fields; a reserved word carries the port that took it and its
bits 31:4; an illegal word carries itself; a packet class carries the packet's header (R74); a step carries the draws
the spec leaves to the outside (R10 `draw`, R86). -/
inductive Instr where
  /-- INIT, `K = w[9:4]`, `N = w[15:10]`, `MTU = w[31:16]` (R77, R100). -/
  | init (k n : BitVec 6) (mtu : BitVec 16)
  /-- SUBMIT, `BLK = w[4]`, `LEN = w[31:16]` and the LEN bytes that follow (R78, R104). -/
  | submit (blk : Bool) (len : BitVec 16) (bytes : List Byte)
  /-- STOP (R79, R102). -/
  | stop
  /-- STATUS (R79, R103). -/
  | status
  | reservedOp0 (p : Port) (hi : BitVec 28)
  | reservedOp5 (p : Port) (hi : BitVec 28)
  | reservedOp6 (p : Port) (hi : BitVec 28)
  | reservedOp7 (p : Port) (hi : BitVec 28)
  | reservedOp8 (p : Port) (hi : BitVec 28)
  | reservedOp9 (p : Port) (hi : BitVec 28)
  | reservedOp10 (p : Port) (hi : BitVec 28)
  | reservedOp11 (p : Port) (hi : BitVec 28)
  | reservedOp12 (p : Port) (hi : BitVec 28)
  | reservedOp13 (p : Port) (hi : BitVec 28)
  | reservedOp14 (p : Port) (hi : BitVec 28)
  | reservedOp15 (p : Port) (hi : BitVec 28)
  /-- A SUBMIT word on the data port with any of bits 15:5 set (R80). -/
  | illegalSubmitReservedBits (w : Word)
  /-- A STOP or STATUS word on the control port with any of bits 31:4 set (R80). -/
  | illegalStopStatusBits (w : Word)
  /-- A word whose OP names a command of the other port (R80). -/
  | illegalWrongPort (p : Port) (w : Word)
  | pktMalformedIndex (h : Header)
  | pktMalformedSize (h : Header)
  | pktStale (h : Header)
  | pktSupersede (h : Header)
  | pktDupData (h : Header)
  | pktData (h : Header)
  | pktDupRed (h : Header)
  | pktRed (h : Header)
  /-- F_HDR_BYTE (R106). -/
  | fHdrByte
  /-- F_PAY_BYTE (R107); `pick` is Acquire's draw, used at the first payload byte (R54). -/
  | fPayByte (pick : Nat)
  /-- F_POOL_FAIL (R108). -/
  | fPoolFail
  /-- F_ENQ (R109). -/
  | fEnq
  /-- F_FIFO_FAIL (R110). -/
  | fFifoFail
  /-- SUBMIT_DONE (R111). -/
  | submitDone
  /-- ACCEPT (R130). -/
  | accept
  /-- EMIT, taken when CONSUMER takes the transaction (R150, R151). -/
  | emit
  /-- EMIT_DONE (R152). -/
  | emitDone
  /-- ACQ (R157); `pick` is Acquire's draw (R54). -/
  | acq (pick : Nat)
  /-- DECODE (R159); `reply` is what CODEC answers the decode call of this step (R86). -/
  | decode (reply : CodecReply)
  /-- FINISH (R163). -/
  | finish
  /-- FATAL, the entry `raise Fatal(cause)` (R186). -/
  | fatal (c : Cause)
  /-- RESET, the reset input (R210). -/
  | reset
  deriving DecidableEq, Repr, Inhabited

end Sys2Proof
end

