-- ==== Sys2Proof/WellFormed.lean ====
section
/-! DEFINITION. Which terms of Instr stand for something an agent can present: the conditions of the encodings of R76 to R80. -/

namespace Sys2Proof

/-- `OP = w[3:0]` (R76). -/
def opOf (w : Word) : BitVec 4 := field w 0 4

/-- OP names a command of the other port: INIT, STOP, STATUS on the data port, SUBMIT on the control port (R80). -/
def wrongPort (p : Port) (w : Word) : Bool :=
  match p with
  | .control => opOf w == 2#4
  | .data => opOf w == 1#4 || opOf w == 3#4 || opOf w == 4#4

/-- A SUBMIT word with any of bits 15:5 set (R80). -/
def submitBitsSet (w : Word) : Bool := opOf w == 2#4 && field w 5 11 != 0#11

/-- A STOP or STATUS word with any of bits 31:4 set (R80). -/
def stopStatusBitsSet (w : Word) : Bool := (opOf w == 3#4 || opOf w == 4#4) && field w 4 28 != 0#28

/-- Well-formedness: a SUBMIT is followed by exactly LEN bytes (R76, R78), and each illegal-word row holds a word
that meets its condition (R80). Every other operand may take every value of its type. -/
def Instr.wf : Instr → Bool
  | .submit _ len bytes => bytes.length == len.toNat
  | .illegalSubmitReservedBits w => submitBitsSet w
  | .illegalStopStatusBits w => stopStatusBitsSet w
  | .illegalWrongPort p w => wrongPort p w
  | .init _ _ _ => true
  | .stop => true
  | .status => true
  | .reservedOp0 _ _ => true
  | .reservedOp5 _ _ => true
  | .reservedOp6 _ _ => true
  | .reservedOp7 _ _ => true
  | .reservedOp8 _ _ => true
  | .reservedOp9 _ _ => true
  | .reservedOp10 _ _ => true
  | .reservedOp11 _ _ => true
  | .reservedOp12 _ _ => true
  | .reservedOp13 _ _ => true
  | .reservedOp14 _ _ => true
  | .reservedOp15 _ _ => true
  | .pktMalformedIndex _ => true
  | .pktMalformedSize _ => true
  | .pktStale _ => true
  | .pktSupersede _ => true
  | .pktDupData _ => true
  | .pktData _ => true
  | .pktDupRed _ => true
  | .pktRed _ => true
  | .fHdrByte => true
  | .fPayByte _ => true
  | .fPoolFail => true
  | .fEnq => true
  | .fFifoFail => true
  | .submitDone => true
  | .accept => true
  | .emit => true
  | .emitDone => true
  | .acq _ => true
  | .decode _ => true
  | .finish => true
  | .fatal _ => true
  | .reset => true

end Sys2Proof
end

