-- ==== Sys2Proof/Decode.lean ====
section
/-! DEFINITION. The decoders: command words on each port (R76 to R80), the 6-byte wire header (R71), the packet classification map (R74), and the encoders that invert them. -/

namespace Sys2Proof

/-- Why a transaction on a port is no instruction. -/
inductive DecodeError where
  /-- A SUBMIT word followed by fewer than LEN bytes: SUBMIT "is followed by LEN payload bytes on the same port" (R76). -/
  | shortSubmit
  deriving DecidableEq, Repr, Inhabited

/-- The row of a word whose OP is reserved, `0x0, 0x5 .. 0xF` (R76, R80). -/
def reservedInstr (op : BitVec 4) (p : Port) (hi : BitVec 28) : Instr :=
  match op.toNat with
  | 0 => .reservedOp0 p hi
  | 5 => .reservedOp5 p hi
  | 6 => .reservedOp6 p hi
  | 7 => .reservedOp7 p hi
  | 8 => .reservedOp8 p hi
  | 9 => .reservedOp9 p hi
  | 10 => .reservedOp10 p hi
  | 11 => .reservedOp11 p hi
  | 12 => .reservedOp12 p hi
  | 13 => .reservedOp13 p hi
  | 14 => .reservedOp14 p hi
  | _ => .reservedOp15 p hi

/-- The instruction a word on the control port is (R76 to R80). Every word is one. A SUBMIT word with reserved bits set
is the wrong-port row (log 11). -/
def decodeControl (w : Word) : Instr :=
  let op := field w 0 4
  if op = 1#4 then .init (field w 4 6) (field w 10 6) (field w 16 16)
  else if op = 2#4 then .illegalWrongPort .control w
  else if op = 3#4 then (if field w 4 28 = 0#28 then .stop else .illegalStopStatusBits w)
  else if op = 4#4 then (if field w 4 28 = 0#28 then .status else .illegalStopStatusBits w)
  else reservedInstr op .control (field w 4 28)

/-- The instruction a word on the data port is, with the bytes lined up behind it: SUBMIT takes its LEN bytes, an illegal
word takes none (R83). Answers the instruction and the bytes left on the port. -/
def decodeData (w : Word) (stream : List Byte) : Except DecodeError (Instr × List Byte) :=
  let op := field w 0 4
  if op = 2#4 then
    if field w 5 11 = 0#11 then
      let len := field w 16 16
      if stream.length < len.toNat then .error .shortSubmit
      else .ok (.submit (w.getLsbD 4) len (stream.take len.toNat), stream.drop len.toNat)
    else .ok (.illegalSubmitReservedBits w, stream)
  else if op = 1#4 ∨ op = 3#4 ∨ op = 4#4 then .ok (.illegalWrongPort .data w, stream)
  else .ok (reservedInstr op .data (field w 4 28), stream)

/-- A word on a port, with the bytes behind it. -/
def decodeCommand (p : Port) (w : Word) (stream : List Byte) : Except DecodeError (Instr × List Byte) :=
  match p with
  | .control => .ok (decodeControl w, stream)
  | .data => decodeData w stream

/-- ParseHeader (R71): a 48-bit little-endian word, fields from its low bits up. -/
def parseHeader (b : Vector Byte 6) : Header where
  bi := b[2] ++ b[1] ++ b[0]
  pi := b[3]
  ps := b[5] ++ b[4]

/-- Seal (R72), the inverse of ParseHeader. -/
def sealHeader (h : Header) : Vector Byte 6 :=
  #v[h.bi.extractLsb' 0 8, h.bi.extractLsb' 8 8, h.bi.extractLsb' 16 8, h.pi,
     h.ps.extractLsb' 0 8, h.ps.extractLsb' 8 8]

/-- The first row of the classification map that matches a header (R74, R131), read against the configuration, CBI and
whether the collections already hold the packet's index. -/
def classify (k n : Nat) (mtu : BitVec 16) (cbi : BitVec 24) (dataHeld redHeld : Bool) (h : Header) : PacketClass :=
  if n ≤ h.pi.toNat then .malformedIndex
  else if h.pi.toNat < k ∧ mtu < h.ps then .malformedSize
  else if h.bi < cbi then .stale
  else if cbi < h.bi then .supersede
  else if h.pi.toNat < k then (if dataHeld then .dupData else .data)
  else (if redHeld then .dupRed else .red)

/-- The table row of a packet class. -/
def classInstr (c : PacketClass) (h : Header) : Instr :=
  match c with
  | .malformedIndex => .pktMalformedIndex h
  | .malformedSize => .pktMalformedSize h
  | .stale => .pktStale h
  | .supersede => .pktSupersede h
  | .dupData => .pktDupData h
  | .data => .pktData h
  | .dupRed => .pktDupRed h
  | .red => .pktRed h

/-- What an instruction looks like from outside: a word on a port with its bytes, the six bytes of a packet's header, or
nothing (the internal steps, "Encoding: none", R106 and the rules after it). -/
inductive Encoded where
  | command (p : Port) (w : Word) (payload : List Byte)
  | header (b : Vector Byte 6)
  | internal
  deriving DecidableEq, Repr

/-- A CMD32 word from OP and bits 31:4 (R76). -/
def cmdWord (hi : BitVec 28) (op : BitVec 4) : Word := hi ++ op

/-- The encoding of an instruction (R72, R76 to R80). -/
def encode : Instr → Encoded
  | .init k n mtu => .command .control (mtu ++ n ++ k ++ 1#4) []
  | .submit blk len bytes => .command .data (len ++ 0#11 ++ BitVec.ofBool blk ++ 2#4) bytes
  | .stop => .command .control (cmdWord 0 3) []
  | .status => .command .control (cmdWord 0 4) []
  | .reservedOp0 p hi => .command p (cmdWord hi 0) []
  | .reservedOp5 p hi => .command p (cmdWord hi 5) []
  | .reservedOp6 p hi => .command p (cmdWord hi 6) []
  | .reservedOp7 p hi => .command p (cmdWord hi 7) []
  | .reservedOp8 p hi => .command p (cmdWord hi 8) []
  | .reservedOp9 p hi => .command p (cmdWord hi 9) []
  | .reservedOp10 p hi => .command p (cmdWord hi 10) []
  | .reservedOp11 p hi => .command p (cmdWord hi 11) []
  | .reservedOp12 p hi => .command p (cmdWord hi 12) []
  | .reservedOp13 p hi => .command p (cmdWord hi 13) []
  | .reservedOp14 p hi => .command p (cmdWord hi 14) []
  | .reservedOp15 p hi => .command p (cmdWord hi 15) []
  | .illegalSubmitReservedBits w => .command .data w []
  | .illegalStopStatusBits w => .command .control w []
  | .illegalWrongPort p w => .command p w []
  | .pktMalformedIndex h => .header (sealHeader h)
  | .pktMalformedSize h => .header (sealHeader h)
  | .pktStale h => .header (sealHeader h)
  | .pktSupersede h => .header (sealHeader h)
  | .pktDupData h => .header (sealHeader h)
  | .pktData h => .header (sealHeader h)
  | .pktDupRed h => .header (sealHeader h)
  | .pktRed h => .header (sealHeader h)
  | .fHdrByte => .internal
  | .fPayByte _ => .internal
  | .fPoolFail => .internal
  | .fEnq => .internal
  | .fFifoFail => .internal
  | .submitDone => .internal
  | .accept => .internal
  | .emit => .internal
  | .emitDone => .internal
  | .acq _ => .internal
  | .decode _ => .internal
  | .finish => .internal
  | .fatal _ => .internal
  | .reset => .internal

/-- The low 32 bits of a table word: the command word. -/
def tableCommandWord (w : Nat) : Word := BitVec.ofNat 32 w

/-- The port a table word is put on: the one its OP names a command of (R76), the control port for a reserved OP (log 2). -/
def tablePort (w : Nat) : Port := if field (tableCommandWord w) 0 4 = 2#4 then .data else .control

/-- The bytes that follow a table word on its port: as many as a SUBMIT's LEN, from bit 32 of the word up. -/
def tableStream (w : Nat) : List Byte :=
  if field (tableCommandWord w) 0 4 = 2#4 then
    (List.range (field (tableCommandWord w) 16 16).toNat).map fun i => BitVec.ofNat 8 (w >>> (32 + 8 * i))
  else []

/-- The six header bytes of a 48-bit table word: the little-endian word W of R71. -/
def tableHeader (w : Nat) : Vector Byte 6 :=
  #v[BitVec.ofNat 8 w, BitVec.ofNat 8 (w >>> 8), BitVec.ofNat 8 (w >>> 16), BitVec.ofNat 8 (w >>> 24),
     BitVec.ofNat 8 (w >>> 32), BitVec.ofNat 8 (w >>> 40)]

/-- The instruction the decoder reads from a table word. A word of exactly 48 bits is a wire header (HDR48), whose class
is read against the configuration right after reset (log 16); any other width is a CMD32 word. -/
def decodeTableWord (nbits w : Nat) : Option Instr :=
  if nbits = 48 then
    let h := parseHeader (tableHeader w)
    some (classInstr (classify 0 0 0#16 0#24 false false h) h)
  else
    match decodeCommand (tablePort w) (tableCommandWord w) (tableStream w) with
    | .ok (i, _) => some i
    | .error _ => none

end Sys2Proof
end

