-- ==== Sys2Proof/Machine/State.lean ====
section
/-! DEFINITION. The state of ECBD (R20 to R38), the reasons a step can stop, and the state after reset (R41, R210). -/

namespace Sys2Proof.Machine

/-- RUN (R21); the encoding 3 is never written. -/
inductive Run where
  | stopped
  | running
  | fatal
  deriving DecidableEq, Repr, Inhabited

/-- WPH, the worker phase (R35); the encodings 6 and 7 are never written. -/
inductive Wph where
  | idle
  | emit
  | acq
  | decode
  | finish
  | halted
  deriving DecidableEq, Repr, Inhabited

/-- KIND, the completion decided for the current packet (R36). -/
inductive Kind where
  | none
  | direct
  | recon
  deriving DecidableEq, Repr, Inhabited

/-- FR_PHASE (R34). -/
inductive FrPhase where
  | hdr
  | pay
  | enq
  deriving DecidableEq, Repr, Inhabited

/-- One entry of the data collection (R28). -/
structure DataEntry where
  present : Bool
  slot : Slot
  ps : BitVec 16
  recon : Bool
  disp : Bool
  deriving DecidableEq, Repr, Inhabited

/-- One entry of the redundancy collection (R29). -/
structure RedEntry where
  present : Bool
  slot : Slot
  deriving DecidableEq, Repr, Inhabited

/-- A FIFO descriptor: the slot and the three header fields (R31). -/
structure Desc where
  slot : Slot
  hdr : Header
  deriving DecidableEq, Repr, Inhabited

/-- Result codes (R82). -/
inductive ResultCode where
  | ok
  | failPoolEmpty
  | failFifoFull
  | failStopped
  | failFatal
  | errConfig
  | errBusy
  | errIllegalOp
  deriving DecidableEq, Repr, Inhabited

/-- The trace label of an ACCEPT (R183, D34); no port carries it. -/
inductive Verdict where
  | malformedIndex
  | malformedSize
  | stale
  | duplicate
  | inserted
  deriving DecidableEq, Repr, Inhabited

/-- One transaction the block puts out: a response word on a port (R81), the four status words that follow a STATUS
response (R84), or a DataReady transaction (R85), which carries a copy of the bytes (R67). -/
inductive Output where
  | ctrl (r : Word)
  | status (st0 st1 st2 st3 : Word)
  | data (r : Word)
  | ready (len : BitVec 16) (bytes : List Byte)
  deriving DecidableEq, Repr, Inhabited

/-- The bytes of the buffer store that some step has written, by key `slot * 65536 + offset`, keys strictly rising.
A key that is not listed holds a byte nothing has written since reset (log 4, log 18). -/
abbrev Memory := List Host.Cell

/-- The states of ECBD. The fields down to `subData` are the elements of R21 to R37; the last six are the model's own. -/
structure State where
  /-- RUN (R21) -/
  run : Run
  /-- FATAL_CAUSE (R22); `none` is NONE -/
  fatalCause : Option Cause
  /-- CFG_K (R23), 0 or 1 .. 31 -/
  cfgK : Fin 32
  /-- CFG_N (R24), 0 .. 32 -/
  cfgN : Fin 33
  /-- CFG_MTU (R25) -/
  cfgMtu : BitVec 16
  /-- Q_EFF (R26) -/
  qEff : Fin 64
  /-- CBI (R27) -/
  cbi : BitVec 24
  /-- DATA[0..30] (R28) -/
  data : Vector DataEntry 31
  /-- RED[0..31] (R29) -/
  red : Vector RedEntry 32
  /-- NEXT (R30), 0 .. 31 -/
  next : Fin 32
  /-- LIMIT (R36), 0 .. 31 -/
  limit : Fin 32
  /-- KIND (R36) -/
  kind : Kind
  /-- DECODED (R36) -/
  decoded : Bool
  /-- WPH (R35) -/
  wph : Wph
  /-- FIFO (R31), head first -/
  fifo : List Desc
  /-- FREE (R32), a set held as a strictly rising list -/
  free : List Slot
  /-- BUF (R33, R50) -/
  buf : Memory
  /-- FR_PHASE (R34) -/
  frPhase : FrPhase
  /-- FR_HCNT (R34), 0 .. 6 -/
  frHcnt : Fin 7
  /-- FR_HDR[0..5] (R34) -/
  frHdr : Vector Byte 6
  /-- FR_BI (R34) -/
  frBi : BitVec 24
  /-- FR_PI (R34) -/
  frPi : BitVec 8
  /-- FR_PS (R34) -/
  frPs : BitVec 16
  /-- FR_SLOT (R34) -/
  frSlot : Option Slot
  /-- FR_PCNT (R34) -/
  frPcnt : BitVec 16
  /-- SUB_ACTIVE (R37) -/
  subActive : Bool
  /-- SUB_BLK (R37) -/
  subBlk : Bool
  /-- SUB_LEN (R37) -/
  subLen : BitVec 16
  /-- SUB_POS (R37) -/
  subPos : BitVec 16
  /-- SUB_DATA (R37) -/
  subData : List Byte
  /-- MODEL: the synthesis parameters of this machine; no step writes them (R5, log 3) -/
  par : Params
  /-- MODEL: the turns that come next, oldest first (log 1) -/
  sched : List Turn
  /-- MODEL: the number of steps taken; numbers the free values (log 1) -/
  tick : Nat
  /-- MODEL: which reset the unwritten bytes of BUF date from (log 4) -/
  bufEpoch : Nat
  /-- MODEL: what the ports have carried out, oldest first; no step reads it (log 10) -/
  outs : List Output
  /-- MODEL: the verdict labels of ACCEPT, oldest first; no step reads it (R183, log 10) -/
  verdicts : List Verdict
  deriving DecidableEq, Repr

/-- Why the machine stops. Every fault is a stop at an element that does not exist or has no meaning, in a state that no
run reaches (log 13); each is safe: the model stops where the spec gives nothing to do. -/
inductive Fault where
  /-- MemRead or MemWrite outside `off + len ≤ CFG_MTU`, `slot < 2·CFG_N` (R52). Raised by F_PAY_BYTE, EMIT, DECODE.
  Safe. -/
  | bufRange
  /-- A slot of an entry of DATA with present = 0, which "no rule reads" (R28). Raised by EMIT and DECODE. Safe. -/
  | absentShare
  /-- ACQ with no data index missing: "j exists, since nd < k" (R157). Raised by ACQ. Safe. -/
  | noMissingShare
  /-- BuildShares with fewer redundancy shares than rebuilt entries: "r never runs out" (R158). Raised by DECODE. Safe. -/
  | sourcesExhausted
  /-- FR_PHASE = ENQ with FR_SLOT = none (R34). Raised by F_ENQ and F_FIFO_FAIL. Safe. -/
  | noPayloadSlot
  /-- FR_PHASE = HDR with six header bytes already held: FR_HDR[6] does not exist (R34). Raised by F_HDR_BYTE. Safe. -/
  | headerFull
  /-- SUB_POS < SUB_LEN but SUB_DATA has no such byte (R37). Raised by F_HDR_BYTE and F_PAY_BYTE. Safe. -/
  | submitByteMissing
  deriving DecidableEq, Repr, Inhabited

/-- Why a step has no meaning. -/
inductive Refusal where
  /-- Raised by `exec` for a row that has no meaning yet. Safe. -/
  | notModelled (mnemonic : String)
  /-- Raised by `step` when the host puts a SUBMIT on the data port with fewer bytes behind it than LEN: no such
  transaction exists (R76, log 2). Safe. -/
  | shortSubmit
  /-- Raised by DECODE when the codec's answer is not m destinations of mtu bytes: no such transaction exists
  (R86, log 6). Safe. -/
  | codecReplyShape
  deriving DecidableEq, Repr, Inhabited

/-- An entry of DATA at reset: present = recon = disp = 0; slot and ps named 0 (log 7). -/
def DataEntry.empty : DataEntry := ⟨false, 0, 0#16, false, false⟩

/-- An entry of RED at reset: present = 0; slot named 0 (log 7). -/
def RedEntry.empty : RedEntry := ⟨false, 0⟩

/-- The machine right after reset (R41, R210). The values the spec leaves unspecified are named in log 7, the model's own
fields in log 1, 3, 4 and 10. -/
def State.reset : State where
  run := .stopped
  fatalCause := none
  cfgK := 0
  cfgN := 0
  cfgMtu := 0#16
  qEff := 0
  cbi := 0#24
  data := Vector.replicate 31 DataEntry.empty
  red := Vector.replicate 32 RedEntry.empty
  next := 0
  limit := 0
  kind := .none
  decoded := false
  wph := .idle
  fifo := []
  free := []
  buf := []
  frPhase := .hdr
  frHcnt := 0
  frHdr := Vector.replicate 6 0#8
  frBi := 0#24
  frPi := 0#8
  frPs := 0#16
  frSlot := none
  frPcnt := 0#16
  subActive := false
  subBlk := false
  subLen := 0#16
  subPos := 0#16
  subData := []
  par := { fifoDepth := 61, mtuMax := 65535 }
  sched := []
  tick := 0
  bufEpoch := 0
  outs := []
  verdicts := []

end Sys2Proof.Machine
end

