-- ==== Sys2Proof/Machine/Ops.lean ====
section
/-! DEFINITION. The named operations over the state: holding, the buffer store, the collections, the pool, the FIFO, responses, the framer's reset, and the entry into FATAL with its exit. -/

namespace Sys2Proof.Machine

/-- What a meaning answers. -/
abbrev Result := Host.Outcome State Fault Refusal

/-- A step whose guard is false "is not enabled" and "waits for another agent's step" (R8): the turn passes and the
state stays as it is (log 1). -/
def hold (s : State) : Result := .next s

/-! The buffer store (R50, R52). -/

/-- The flat key of byte `off` of slot `x` (log 18). -/
def bufKey (x : Slot) (off : Nat) : Nat := x.val * 65536 + off

/-- The byte some step has written at a key, if any. -/
def Memory.lookup : Memory → Nat → Option Byte
  | [], _ => none
  | (a, b) :: m, key => if a = key then some b else Memory.lookup m key

/-- Write one byte, keeping the keys strictly rising. -/
def Memory.set : Memory → Nat → Byte → Memory
  | [], key, b => [(key, b)]
  | (a, c) :: m, key, b =>
    if key < a then (key, b) :: (a, c) :: m
    else if key = a then (key, b) :: m
    else (a, c) :: Memory.set m key b

/-- Write bytes at consecutive keys. -/
def Memory.setBytes : Memory → Nat → List Byte → Memory
  | m, _, [] => m
  | m, key, b :: bs => Memory.setBytes (Memory.set m key b) (key + 1) bs

/-- The canonical form of the store: keys strictly rising, none outside 64 slots of 65536 keys. An unlisted key reads as
no written byte, so no entry can equal what an unlisted key reads as. -/
abbrev Memory.wf (m : Memory) : Prop :=
  (m.map Prod.fst).Pairwise (· < ·) ∧ ∀ c ∈ m, c.1 < 4194304

/-- `BUF[x][off]`: the byte last written there, or the free value of a byte nothing has written (R33, D13, log 4). -/
def byteAt (s : State) (x : Slot) (off : Nat) : Byte :=
  (Memory.lookup s.buf (bufKey x off)).getD (Config.freeByte s.bufEpoch (bufKey x off))

/-- The range every MemRead and MemWrite keeps: `off + len ≤ CFG_MTU` and `slot < 2·CFG_N` (R52). -/
def inRange (s : State) (x : Slot) (off len : Nat) : Bool :=
  decide (off + len ≤ s.cfgMtu.toNat) && decide (x.val < 2 * s.cfgN.val)

/-- MemRead(slot, off, len) (R52). -/
def memRead (s : State) (x : Slot) (off len : Nat) : List Byte :=
  (List.range len).map fun j => byteAt s x (off + j)

/-- MemWrite(slot, off, len, b) (R52). -/
def memWrite (s : State) (x : Slot) (off : Nat) (bs : List Byte) : State :=
  { s with buf := Memory.setBytes s.buf (bufKey x off) bs }

/-- MemWrite of whole shares: the j-th byte list at offset 0 of the j-th slot. -/
def memWriteShares (s : State) : List Slot → List (List Byte) → State
  | x :: xs, b :: bs => memWriteShares (memWrite s x 0 b) xs bs
  | _, _ => s

/-! The collections (R28, R29). -/

/-- `DATA[i]`. -/
def dataAt (s : State) (i : Nat) : DataEntry := s.data[i]?.getD DataEntry.empty

/-- `DATA[i] <- e`. -/
def setData (s : State) (i : Nat) (e : DataEntry) : State := { s with data := s.data.setIfInBounds i e }

/-- `RED[q]`. -/
def redAt (s : State) (q : Nat) : RedEntry := s.red[q]?.getD RedEntry.empty

/-- `RED[q] <- e`. -/
def setRed (s : State) (q : Nat) (e : RedEntry) : State := { s with red := s.red.setIfInBounds q e }

/-- `{present:0, disp:0, recon:0}`; slot and ps are left as they were (R41, log 19). -/
def DataEntry.cleared (e : DataEntry) : DataEntry := { e with present := false, disp := false, recon := false }

/-- `{present:0}`; slot is left as it was. -/
def RedEntry.cleared (e : RedEntry) : RedEntry := { e with present := false }

/-- `NEXT <- 0; LIMIT <- 0; KIND <- NONE; DECODED <- 0`, the end of Purge, FINISH, INIT and STOP (R135, R163, R100, R102). -/
def clearSequencing (s : State) : State :=
  { s with next := 0, limit := 0, kind := .none, decoded := false }

/-- Every entry of both collections cleared, as INIT and STOP do (R100, R102). -/
def clearCollections (s : State) : State :=
  { s with data := s.data.map DataEntry.cleared, red := s.red.map RedEntry.cleared }

/-- DATA with the entries `i in 0..CFG_K-1` cleared (R135, R163). -/
def blockData (s : State) : Vector DataEntry 31 :=
  s.data.mapIdx fun i e => if i < s.cfgK.val then e.cleared else e

/-- RED with the entries `q in CFG_K..CFG_N-1` cleared (R135, R163). -/
def blockRed (s : State) : Vector RedEntry 32 :=
  s.red.mapIdx fun q e => if s.cfgK.val ≤ q ∧ q < s.cfgN.val then e.cleared else e

/-- The entries of the current block and the sequencing registers cleared, as Purge and FINISH do (R135, R163). -/
def clearBlock (s : State) : State :=
  { clearSequencing s with data := blockData s, red := blockRed s }

/-- The slots of the current block's present entries, in the order Purge and FINISH release them (R135, R163). -/
def heldSlots (s : State) : List Slot :=
  ((List.range s.cfgK.val).filter fun i => (dataAt s i).present).map (fun i => (dataAt s i).slot)
    ++ ((List.range s.cfgN.val).filter fun q => decide (s.cfgK.val ≤ q) && (redAt s q).present).map
      (fun q => (redAt s q).slot)

/-! The pool (R54, R55). -/

/-- `{0, …, 2·n - 1}`, rising (R32). -/
def poolSlots (n : Nat) : List Slot := (List.finRange 64).filter fun x => decide (x.val < 2 * n)

/-- Acquire() with the draw `pick`: some slot of FREE and FREE without it; `none` where FREE = ∅ (R54).
What the slot contains is open (R54, D13); DESIGN CHOICE: it keeps the bytes last written there (log 21). -/
def acquire (pick : Nat) (free : List Slot) : Option (Slot × List Slot) :=
  match free[pick % free.length]? with
  | none => none
  | some x => some (x, free.erase x)

/-- FREE ∪ {x}, kept rising. -/
def insertSlot (x : Slot) : List Slot → List Slot
  | [] => [x]
  | y :: ys => if x < y then x :: y :: ys else if x = y then y :: ys else y :: insertSlot x ys

/-- Release(x): `none` is the double free, which raises Fatal(POOL) (R55). -/
def release (x : Slot) (free : List Slot) : Option (List Slot) :=
  if x ∈ free then none else some (insertSlot x free)

/-- Releases in program order; at the first double free the error is FREE as it stood before that Release (R185, R186). -/
def releaseAll : List Slot → List Slot → Except (List Slot) (List Slot)
  | [], free => .ok free
  | x :: xs, free =>
    match release x free with
    | none => .error free
    | some f => releaseAll xs f

/-! Responses (R81, R82). -/

/-- The 8-bit RESULT of a code (R82). -/
def ResultCode.code : ResultCode → BitVec 8
  | .ok => 0x00
  | .failPoolEmpty => 0x01
  | .failFifoFull => 0x02
  | .failStopped => 0x03
  | .failFatal => 0x04
  | .errConfig => 0x05
  | .errBusy => 0x06
  | .errIllegalOp => 0x07

/-- The RESP32 word: CONSUMED in bits 31:16, zeros, RESULT in bits 7:0 (R81). -/
def resp32 (c : ResultCode) (consumed : BitVec 16) : Word := consumed ++ 0#8 ++ c.code

/-- A port carries a transaction out (log 10). -/
def send (o : Output) (s : State) : State := { s with outs := s.outs ++ [o] }

/-- `respond(code, 0)` on the control port. -/
def respondControl (c : ResultCode) (s : State) : State := send (.ctrl (resp32 c 0#16)) s

/-- `respond(code, consumed)` on the data port. -/
def respondData (c : ResultCode) (consumed : BitVec 16) (s : State) : State := send (.data (resp32 c consumed)) s

/-- `respond_data(code, consumed); SUB_ACTIVE <- 0`: the active SUBMIT is answered. The other SUB
registers keep their values (log 19). -/
def completeSubmit (c : ResultCode) (consumed : BitVec 16) (s : State) : State :=
  { respondData c consumed s with subActive := false }

/-- The trace label of an ACCEPT (R183, log 10). -/
def label (v : Verdict) (s : State) : State := { s with verdicts := s.verdicts ++ [v] }

/-- FramerReset() (R112). -/
def framerReset (s : State) : State := { s with frPhase := .hdr, frHcnt := 0, frSlot := none, frPcnt := 0#16 }

/-! FATAL: the one exception (R186) and the exit from it (R188). -/

/-- `raise Fatal(cause)` (R186): the cause is recorded, RUN and WPH change, and an active SUBMIT is answered FAIL_FATAL. -/
def raiseFatal (c : Cause) (s : State) : State :=
  let s1 := { s with fatalCause := some c, run := .fatal, wph := .halted }
  if s.subActive then completeSubmit .failFatal s.subPos s1 else s1

/-- The double free inside a step that started in `s`: Fatal(POOL) with FREE as it stood before the failing Release and
every other element as it was before the step (R186, log 9). -/
def raisePool (free : List Slot) (s : State) : State := raiseFatal .pool { s with free := free }

/-- The teardown inside STOP, the exit from FATAL (R102, R188): everything released, RUN = STOPPED, no cause. CFG_*, Q_EFF
and CBI are not written. -/
def teardown (s : State) : State :=
  { clearSequencing (clearCollections (framerReset s)) with
    fifo := []
    wph := .idle
    free := poolSlots s.cfgN.val
    run := .stopped
    fatalCause := none }

end Sys2Proof.Machine
end

