-- ==== Sys2Proof/Machine/Flags.lean ====
section
/-! DEFINITION. What the rules compute from the state: the validity of a configuration, Q_EFF, the counts and the gap behind LIMIT and KIND, a packet's class, the life cycle state, and the status words. -/

namespace Sys2Proof.Machine

/-- ConfigValid(K, N, MTU) (R101). -/
def configValid (mtuMax k n mtu : Nat) : Bool :=
  decide (1 ≤ k) && decide (k < n) && decide (n ≤ Config.nMax) && decide (1 ≤ mtu) && decide (mtu ≤ mtuMax)

/-- `2·N - 1 - K - min(K, N - K)` (R26). -/
def qBound (k n : Nat) : Nat := 2 * n - 1 - k - min k (n - k)

/-- Q_EFF (R26). -/
def qEffOf (fifoDepth k n : Nat) : Nat := min fifoDepth (qBound k n)

/-- nd: the data entries present (R141). -/
def dataCount (s : State) : Nat := (List.range s.cfgK.val).countP fun i => (dataAt s i).present

/-- The redundancy indices present, ascending: `r` of BuildShares (R158). -/
def redPresent (s : State) : List Nat :=
  (List.range s.cfgN.val).filter fun q => decide (s.cfgK.val ≤ q) && (redAt s q).present

/-- nr: the redundancy entries present (R141). -/
def redCount (s : State) : Nat := (redPresent s).length

/-- `min { i in 0..CFG_K-1 : DATA[i].present = 0 }`; `none` is `min ∅` (R141, R157). -/
def firstMissing (s : State) : Option Nat := (List.range s.cfgK.val).find? fun i => !(dataAt s i).present

/-- The end of the contiguous run of present data entries from index 0, or CFG_K (R141). -/
def firstGap (s : State) : Nat := (firstMissing s).getD s.cfgK.val

/-- The completion that nd and nr decide (R141): step 5 before step 6. -/
def kindOf (k nd nr : Nat) : Kind :=
  if nd = k then .direct else if k ≤ nd + nr then .recon else .none

/-- AfterInsert() (R141). -/
def afterInsert (s : State) : State :=
  { s with
    limit := Fin.ofNat 32 (firstGap s)
    kind := kindOf s.cfgK.val (dataCount s) (redCount s)
    wph := .emit }

/-- The class of a packet with header `h` in state `s` (R74). -/
def packetClass (s : State) (h : Header) : PacketClass :=
  classify s.cfgK.val s.cfgN.val s.cfgMtu s.cbi (dataAt s h.pi.toNat).present (redAt s h.pi.toNat).present h

/-- The source's life cycle states that persist (R39). -/
inductive Lifecycle where
  | collecting
  | completedDirect
  | completedReconstructed
  deriving DecidableEq, Repr

/-- The life cycle state of the current block (R39); `none` in FATAL and in pairs of WPH and KIND that R39 does not list. -/
def lifecycle (s : State) : Option Lifecycle :=
  match s.wph, s.kind with
  | .idle, _ => some .collecting
  | .emit, .none => some .collecting
  | .emit, .direct => some .completedDirect
  | .finish, .direct => some .completedDirect
  | .emit, .recon => some .completedReconstructed
  | .acq, .recon => some .completedReconstructed
  | .decode, .recon => some .completedReconstructed
  | .finish, .recon => some .completedReconstructed
  | _, _ => none

/-- RUN as STATUS shows it (R21). -/
def Run.code : Run → BitVec 2
  | .stopped => 0
  | .running => 1
  | .fatal => 2

/-- FATAL_CAUSE as STATUS shows it (R22). -/
def causeCode : Option Cause → BitVec 2
  | none => 0
  | some .codec => 1
  | some .pool => 2

/-- WPH as STATUS shows it (R35). -/
def Wph.code : Wph → BitVec 3
  | .idle => 0
  | .emit => 1
  | .acq => 2
  | .decode => 3
  | .finish => 4
  | .halted => 5

/-- The word whose bit i is `f i` for i < len, and 0 from there up. -/
def bitmap (f : Nat → Bool) : Nat → Word
  | 0 => 0#32
  | i + 1 => bitmap f i ||| (if f i then 1#32 <<< i else 0#32)

/-- ST0 (R84). -/
def st0 (s : State) : Word := s.cbi ++ 0#1 ++ s.wph.code ++ causeCode s.fatalCause ++ s.run.code

/-- ST1 (R84). -/
def st1 (s : State) : Word :=
  0#11 ++ BitVec.ofNat 5 s.next.val ++ 0#2 ++ BitVec.ofNat 6 s.fifo.length ++ 0#1 ++ BitVec.ofNat 7 s.free.length

/-- ST2 (R84). -/
def st2 (s : State) : Word := bitmap (fun i => decide (i < s.cfgK.val) && (dataAt s i).present) 31

/-- ST3 (R84). -/
def st3 (s : State) : Word :=
  bitmap (fun q => decide (s.cfgK.val ≤ q) && decide (q < s.cfgN.val) && (redAt s q).present) 32

end Sys2Proof.Machine
end

