-- ==== Sys2Proof/Machine/Control.lean ====
section
/-! DEFINITION. The control-port commands INIT, STOP and STATUS (R100 to R103). -/

namespace Sys2Proof.Machine

/-- The state INIT leaves when it starts the block (R100, R41's "INIT sets" column), before its response. -/
def startBlock (k n : Nat) (mtu : BitVec 16) (s : State) : State :=
  { clearSequencing (clearCollections (framerReset s)) with
    cfgK := Fin.ofNat 32 k
    cfgN := Fin.ofNat 33 n
    cfgMtu := mtu
    qEff := Fin.ofNat 64 (qEffOf s.par.fifoDepth k n)
    cbi := 0#24
    wph := .idle
    fifo := []
    free := poolSlots n
    fatalCause := none
    run := .running }

/-- INIT (R100, R101, R181). -/
def execInit (k n : BitVec 6) (mtu : BitVec 16) (s : State) : Result :=
  if s.run ≠ .stopped then .next (respondControl .errBusy s)
  else if configValid s.par.mtuMax k.toNat n.toNat mtu.toNat = false then .next (respondControl .errConfig s)
  else .next (respondControl .ok (startBlock k.toNat n.toNat mtu s))

/-- STOP (R102): an active SUBMIT is answered first, then the block is torn down unless it is STOPPED. -/
def execStop (s : State) : Result :=
  let s1 := if s.subActive then completeSubmit .failStopped s.subPos s else s
  let s2 := if s.run = .stopped then s1 else teardown s1
  .next (respondControl .ok s2)

/-- STATUS (R103): OK and the four status words of one snapshot (R84). -/
def execStatus (s : State) : Result :=
  .next (send (.status (st0 s) (st1 s) (st2 s) (st3 s)) (respondControl .ok s))

end Sys2Proof.Machine
end

