-- ==== Sys2Proof/Machine/Operands.lean ====
section
/-! DEFINITION. The operands the steps read from the state: the next SUBMIT byte, the framer's descriptor, the output offer, and BuildShares. -/

namespace Sys2Proof.Machine

/-- The common guard of the framer steps: `RUN = RUNNING and SUB_ACTIVE = 1` (R106 and the rules after it). -/
def framerOn (s : State) : Bool := s.run == .running && s.subActive

/-- The common guard of the worker steps in phase `p` (R35). -/
def workerIn (p : Wph) (s : State) : Bool := s.run == .running && s.wph == p

/-- `b = SUB_DATA[SUB_POS]` (R106, R107). -/
def submitByte (s : State) : Option Byte := s.subData[s.subPos.toNat]?

/-- The header fields the framer holds: (FR_BI, FR_PI, FR_PS). -/
def frHeader (s : State) : Header := ⟨s.frBi, s.frPi, s.frPs⟩

/-- The length of the offer for an entry: mtu if it was rebuilt, else what its header said (R150). -/
def offerLen (s : State) (e : DataEntry) : BitVec 16 := if e.recon then s.cfgMtu else e.ps

/-- The output offer (R38): while WPH = EMIT and NEXT < LIMIT, the payload of DATA[NEXT]. -/
def offer (s : State) : Option Output :=
  if workerIn .emit s && decide (s.next < s.limit) then
    let e := dataAt s s.next.val
    some (.ready (offerLen s e) (memRead s e.slot 0 (offerLen s e).toNat))
  else none

/-- What BuildShares makes (R158): IDX, SRC and DST. -/
structure Shares where
  idx : List Nat
  src : List Slot
  dst : List Slot
  deriving DecidableEq, Repr

/-- The loop of BuildShares over the data indices, with the redundancy indices not yet drawn (R158). -/
def buildFrom (s : State) : List Nat → List Nat → Except Fault Shares
  | [], _ => .ok ⟨[], [], []⟩
  | i :: is, r =>
    if (dataAt s i).present = false then .error .absentShare
    else if (dataAt s i).recon = false then
      match buildFrom s is r with
      | .ok b => .ok ⟨i :: b.idx, (dataAt s i).slot :: b.src, b.dst⟩
      | .error f => .error f
    else
      match r with
      | [] => .error .sourcesExhausted
      | q :: r' =>
        match buildFrom s is r' with
        | .ok b => .ok ⟨q :: b.idx, (redAt s q).slot :: b.src, (dataAt s i).slot :: b.dst⟩
        | .error f => .error f

/-- BuildShares() (R158). -/
def buildShares (s : State) : Except Fault Shares := buildFrom s (List.range s.cfgK.val) (redPresent s)

/-- `[ MemRead(SRC[j], 0, CFG_MTU) : j in 0..k-1 ]` (R159). -/
def shareBytes (s : State) (b : Shares) : List (List Byte) := b.src.map fun x => memRead s x 0 s.cfgMtu.toNat

/-- What the attached codec answers the decode call of a DECODE step taken in `s` (R86, R159), with the draw numbered by
the step (log 6). A state with no request gets `fail`; DECODE then stops before it looks at the answer. -/
def codecAnswer (s : State) : CodecReply :=
  match buildShares s with
  | .error _ => .fail
  | .ok b => Config.codecReply s.tick s.cfgK.val s.cfgMtu.toNat b.idx (shareBytes s b) b.dst.length

/-- The codec's answer has the shape of R86: m destinations of mtu bytes each. -/
def replyFits (m mtu : Nat) (dst : List (List Byte)) : Bool :=
  dst.length == m && dst.all fun d => d.length == mtu

end Sys2Proof.Machine
end

