-- ==== Sys2Proof/Machine/Framer.lean ====
section
/-! DEFINITION. The framer steps (R106 to R111). -/

namespace Sys2Proof.Machine

/-- The framer with one more header byte, parsed when it is the sixth (R106). -/
def takeHeaderByte (b : Byte) (s : State) : State :=
  let hdr := s.frHdr.setIfInBounds s.frHcnt.val b
  let s1 := { s with frHdr := hdr, frHcnt := Fin.ofNat 7 (s.frHcnt.val + 1), subPos := s.subPos + 1 }
  if s.frHcnt.val + 1 = 6 then
    { s1 with
      frBi := (parseHeader hdr).bi
      frPi := (parseHeader hdr).pi
      frPs := (parseHeader hdr).ps
      frPhase := .pay
      frPcnt := 0#16 }
  else s1

/-- F_HDR_BYTE (R106). -/
def execFHdrByte (s : State) : Result :=
  if framerOn s = true ∧ s.subPos < s.subLen ∧ s.frPhase = .hdr then
    if s.frHcnt = 6 then .fault .headerFull
    else
      match submitByte s with
      | none => .fault .submitByteMissing
      | some b => .next (takeHeaderByte b s)
  else hold s

/-- The framer with slot `x` in hand and one more payload byte written to it (R107). -/
def takePayloadByte (b : Byte) (x : Slot) (s : State) : State :=
  let s1 := memWrite s x s.frPcnt.toNat [b]
  { s1 with
    frSlot := some x
    frPcnt := s.frPcnt + 1
    subPos := s.subPos + 1
    frPhase := if s.frPcnt + 1 = s.cfgMtu then .enq else s.frPhase }

/-- F_PAY_BYTE (R107): at the first payload byte the framer acquires a slot with the draw `pick` (R54). -/
def execFPayByte (pick : Nat) (s : State) : Result :=
  if framerOn s = true ∧ s.subPos < s.subLen ∧ s.frPhase = .pay then
    match submitByte s with
    | none => .fault .submitByteMissing
    | some b =>
      match s.frSlot with
      | some x =>
        if inRange s x s.frPcnt.toNat 1 then .next (takePayloadByte b x s) else .fault .bufRange
      | none =>
        match acquire pick s.free with
        | none => hold s
        | some (x, free) =>
          if inRange s x s.frPcnt.toNat 1 then .next (takePayloadByte b x { s with free := free })
          else .fault .bufRange
  else hold s

/-- F_POOL_FAIL (R108). -/
def execFPoolFail (s : State) : Result :=
  if framerOn s = true ∧ s.subBlk = false ∧ s.subPos < s.subLen ∧ s.frPhase = .pay ∧ s.frSlot = none ∧ s.free = []
  then .next (completeSubmit .failPoolEmpty s.subPos s)
  else hold s

/-- F_ENQ (R109, R57). -/
def execFEnq (s : State) : Result :=
  if framerOn s = true ∧ s.frPhase = .enq ∧ s.fifo.length < s.qEff.val then
    match s.frSlot with
    | none => .fault .noPayloadSlot
    | some x => .next (framerReset { s with fifo := s.fifo ++ [⟨x, frHeader s⟩] })
  else hold s

/-- F_FIFO_FAIL (R110). -/
def execFFifoFail (s : State) : Result :=
  if framerOn s = true ∧ s.subBlk = false ∧ s.frPhase = .enq ∧ s.fifo.length = s.qEff.val then
    match s.frSlot with
    | none => .fault .noPayloadSlot
    | some x =>
      match release x s.free with
      | none => .next (raisePool s.free s)
      | some free => .next (completeSubmit .failFifoFull s.subPos (framerReset { s with free := free }))
  else hold s

/-- SUBMIT_DONE (R111). -/
def execSubmitDone (s : State) : Result :=
  if framerOn s = true ∧ s.subPos = s.subLen ∧ s.frPhase ≠ .enq then .next (completeSubmit .ok s.subLen s)
  else hold s

end Sys2Proof.Machine
end

