-- ==== Sys2Proof/Machine/Submit.lean ====
section
/-! DEFINITION. The data-port command SUBMIT (R104, R105) and the illegal command words of both ports (R80, R83). -/

namespace Sys2Proof.Machine

/-- SUBMIT (R104): held while another SUBMIT is active; rejected unless RUNNING (R105). -/
def execSubmit (blk : Bool) (len : BitVec 16) (bytes : List Byte) (s : State) : Result :=
  if s.subActive then hold s
  else
    match s.run with
    | .stopped => .next (respondData .failStopped 0#16 s)
    | .fatal => .next (respondData .failFatal 0#16 s)
    | .running =>
      .next { s with subActive := true, subBlk := blk, subLen := len, subPos := 0#16, subData := bytes }

/-- An illegal word: `respond(ERR_ILLEGAL_OP, 0)` on the port that took it and nothing else (R83). The data port takes no
word while a SUBMIT is active (R104, log 12). -/
def illegalWord (p : Port) (s : State) : Result :=
  match p with
  | .control => .next (respondControl .errIllegalOp s)
  | .data => if s.subActive then hold s else .next (respondData .errIllegalOp 0#16 s)

/-- RESERVED_OP0 (R83). -/
def execReservedOp0 (p : Port) (s : State) : Result := illegalWord p s
/-- RESERVED_OP5 (R83). -/
def execReservedOp5 (p : Port) (s : State) : Result := illegalWord p s
/-- RESERVED_OP6 (R83). -/
def execReservedOp6 (p : Port) (s : State) : Result := illegalWord p s
/-- RESERVED_OP7 (R83). -/
def execReservedOp7 (p : Port) (s : State) : Result := illegalWord p s
/-- RESERVED_OP8 (R83). -/
def execReservedOp8 (p : Port) (s : State) : Result := illegalWord p s
/-- RESERVED_OP9 (R83). -/
def execReservedOp9 (p : Port) (s : State) : Result := illegalWord p s
/-- RESERVED_OP10 (R83). -/
def execReservedOp10 (p : Port) (s : State) : Result := illegalWord p s
/-- RESERVED_OP11 (R83). -/
def execReservedOp11 (p : Port) (s : State) : Result := illegalWord p s
/-- RESERVED_OP12 (R83). -/
def execReservedOp12 (p : Port) (s : State) : Result := illegalWord p s
/-- RESERVED_OP13 (R83). -/
def execReservedOp13 (p : Port) (s : State) : Result := illegalWord p s
/-- RESERVED_OP14 (R83). -/
def execReservedOp14 (p : Port) (s : State) : Result := illegalWord p s
/-- RESERVED_OP15 (R83). -/
def execReservedOp15 (p : Port) (s : State) : Result := illegalWord p s

/-- ILLEGAL_SUBMIT_RESERVED_BITS (R80, R83): on the data port; its LEN bytes are not consumed. -/
def execIllegalSubmitReservedBits (s : State) : Result := illegalWord .data s

/-- ILLEGAL_STOP_STATUS_BITS (R80, R83): on the control port. -/
def execIllegalStopStatusBits (s : State) : Result := illegalWord .control s

/-- ILLEGAL_WRONG_PORT (R80, R83). -/
def execIllegalWrongPort (p : Port) (s : State) : Result := illegalWord p s

end Sys2Proof.Machine
end

