-- ==== Sys2Proof/Machine/System.lean ====
section
/-! DEFINITION. The FATAL row, the entry `raise Fatal` on its own (R186), and RESET (R210). -/

namespace Sys2Proof.Machine

/-- FATAL (R186): the fatal entry takes RUN from RUNNING to FATAL (R21); in any other run state no step that could raise it
is enabled (R188), so it holds (log 15). -/
def execFatal (c : Cause) (s : State) : Result :=
  if s.run = .running then .next (raiseFatal c s) else hold s

/-- RESET (R210): every state element at its reset value, no response; BUF is unspecified again. What the model keeps
beside the machine stays: its parameters, the turns to come, the step count and the logs (log 20). -/
def execReset (s : State) : Result :=
  .next { State.reset with
    par := s.par
    sched := s.sched
    tick := s.tick
    bufEpoch := s.tick
    outs := s.outs
    verdicts := s.verdicts }

end Sys2Proof.Machine
end

