-- ==== Sys2Proof/Machine/Packets.lean ====
section
/-! DEFINITION. The packet classes of ACCEPT (R130 to R143): each row is the ACCEPT step on a FIFO head with the row's header whose class is the row's (log 14). -/

namespace Sys2Proof.Machine

/-- ACCEPT's guard and pop (R130) for the class `c` and the header `h`: `act` gets the head and the rest of the FIFO. -/
def acceptAs (c : PacketClass) (h : Header) (s : State) (act : Desc → List Desc → Result) : Result :=
  match s.fifo with
  | [] => hold s
  | d :: rest =>
    if workerIn .idle s = true ∧ d.hdr = h ∧ packetClass s h = c then act d rest else hold s

/-- `Discard(d, v)`: Release(d.slot) with verdict v, leaving WPH = IDLE (R130). -/
def discard (v : Verdict) (s : State) (d : Desc) (rest : List Desc) : Result :=
  match release d.slot s.free with
  | none => .next (raisePool s.free s)
  | some free => .next (label v { s with fifo := rest, free := free })

/-- InsertData(d) (R138). -/
def insertData (d : Desc) (s : State) : State :=
  label .inserted (setData s d.hdr.pi.toNat ⟨true, d.slot, d.hdr.ps, false, false⟩)

/-- InsertRed(d) (R139); the payload size is not kept (D14). -/
def insertRed (d : Desc) (s : State) : State :=
  label .inserted (setRed s d.hdr.pi.toNat ⟨true, d.slot⟩)

/-- PKT_MALFORMED_INDEX (R132). -/
def execPktMalformedIndex (h : Header) (s : State) : Result :=
  acceptAs .malformedIndex h s (discard .malformedIndex s)

/-- PKT_MALFORMED_SIZE (R133). -/
def execPktMalformedSize (h : Header) (s : State) : Result :=
  acceptAs .malformedSize h s (discard .malformedSize s)

/-- PKT_STALE (R134). -/
def execPktStale (h : Header) (s : State) : Result :=
  acceptAs .stale h s (discard .stale s)

/-- PKT_DUP_DATA (R140). -/
def execPktDupData (h : Header) (s : State) : Result :=
  acceptAs .dupData h s (discard .duplicate s)

/-- PKT_DUP_RED (R140). -/
def execPktDupRed (h : Header) (s : State) : Result :=
  acceptAs .dupRed h s (discard .duplicate s)

/-- PKT_DATA (R138). -/
def execPktData (h : Header) (s : State) : Result :=
  acceptAs .data h s fun d rest => .next (afterInsert (insertData d { s with fifo := rest }))

/-- PKT_RED (R139). -/
def execPktRed (h : Header) (s : State) : Result :=
  acceptAs .red h s fun d rest => .next (afterInsert (insertRed d { s with fifo := rest }))

/-- PKT_SUPERSEDE (R136): Purge (R135), CBI takes the packet's block index, and the packet is inserted into the empty
collections. -/
def execPktSupersede (h : Header) (s : State) : Result :=
  acceptAs .supersede h s fun d rest =>
    match releaseAll (heldSlots s) s.free with
    | .error free => .next (raisePool free s)
    | .ok free =>
      let s1 := { clearBlock s with fifo := rest, free := free, cbi := h.bi }
      .next (afterInsert (if h.pi.toNat < s.cfgK.val then insertData d s1 else insertRed d s1))

end Sys2Proof.Machine
end

