-- ==== Sys2Proof/Machine/Worker.lean ====
section
/-! DEFINITION. The worker steps ACCEPT, EMIT, EMIT_DONE, ACQ, DECODE and FINISH (R130, R150 to R164). -/

namespace Sys2Proof.Machine

/-- ACCEPT (R130): the first class of the map that matches the FIFO head decides (R74, R131). -/
def execAccept (s : State) : Result :=
  match s.fifo with
  | [] => hold s
  | d :: _ =>
    match packetClass s d.hdr with
    | .malformedIndex => execPktMalformedIndex d.hdr s
    | .malformedSize => execPktMalformedSize d.hdr s
    | .stale => execPktStale d.hdr s
    | .supersede => execPktSupersede d.hdr s
    | .dupData => execPktDupData d.hdr s
    | .data => execPktData d.hdr s
    | .dupRed => execPktDupRed d.hdr s
    | .red => execPktRed d.hdr s

/-- The state after DATA[NEXT] is dispatched: its `disp` flag and NEXT (R150). -/
def markDispatched (s : State) : State :=
  { setData s s.next.val { dataAt s s.next.val with disp := true } with next := s.next + 1 }

/-- EMIT (R150, R151): CONSUMER takes the offer. -/
def execEmit (s : State) : Result :=
  match offer s with
  | none => hold s
  | some o =>
    let e := dataAt s s.next.val
    if e.present = false then .fault .absentShare
    else if inRange s e.slot 0 (offerLen s e).toNat then .next (send o (markDispatched s))
    else .fault .bufRange

/-- EMIT_DONE (R152). -/
def execEmitDone (s : State) : Result :=
  if workerIn .emit s = true ∧ s.next = s.limit then
    .next { s with
      wph :=
        match s.kind with
        | .none => .idle
        | .direct => .finish
        | .recon => if s.decoded then .finish else .acq }
  else hold s

/-- ACQ (R157): one destination for the lowest missing data index, with Acquire's draw `pick` (R54). -/
def execAcq (pick : Nat) (s : State) : Result :=
  if workerIn .acq s = true then
    match acquire pick s.free with
    | none => hold s
    | some (x, free) =>
      match firstMissing s with
      | none => .fault .noMissingShare
      | some j =>
        let s1 := setData { s with free := free } j ⟨true, x, s.cfgMtu, true, false⟩
        .next (if firstMissing s1 = none then { s1 with wph := .decode } else s1)
  else hold s

/-- DECODE (R159, R161): `reply` is the codec's answer to the request BuildShares makes. -/
def execDecode (reply : CodecReply) (s : State) : Result :=
  if workerIn .decode s = true then
    match buildShares s with
    | .error f => .fault f
    | .ok b =>
      if (b.src ++ b.dst).all (fun x => inRange s x 0 s.cfgMtu.toNat) = false then .fault .bufRange
      else
        match reply with
        | .fail => .next (raiseFatal .codec s)
        | .ok dst =>
          if replyFits b.dst.length s.cfgMtu.toNat dst then
            .next { memWriteShares s b.dst dst with decoded := true, limit := s.cfgK, wph := .emit }
          else .refused .codecReplyShape
  else hold s

/-- FINISH (R163, R164): every slot of the block is released and CBI advances by one modulo 2^24. -/
def execFinish (s : State) : Result :=
  if workerIn .finish s = true then
    match releaseAll (heldSlots s) s.free with
    | .error free => .next (raisePool free s)
    | .ok free => .next { clearBlock s with free := free, cbi := s.cbi + 1, wph := .idle }
  else hold s

end Sys2Proof.Machine
end

