-- ==== Sys2Proof/Machine/Dispatch.lean ====
section
/-! DEFINITION. The dispatch of every instruction to its meaning. -/

namespace Sys2Proof.Machine
open Sys2Proof

def exec (i : Instr) (s : State) : Host.Outcome State Fault Refusal :=
  match i with
  | .init k n mtu => Sys2Proof.Machine.execInit k n mtu s
  | .submit blk len bytes => Sys2Proof.Machine.execSubmit blk len bytes s
  | .stop => Sys2Proof.Machine.execStop s
  | .status => Sys2Proof.Machine.execStatus s
  | .reservedOp0 p _ => Sys2Proof.Machine.execReservedOp0 p s
  | .reservedOp5 p _ => Sys2Proof.Machine.execReservedOp5 p s
  | .reservedOp6 p _ => Sys2Proof.Machine.execReservedOp6 p s
  | .reservedOp7 p _ => Sys2Proof.Machine.execReservedOp7 p s
  | .reservedOp8 p _ => Sys2Proof.Machine.execReservedOp8 p s
  | .reservedOp9 p _ => Sys2Proof.Machine.execReservedOp9 p s
  | .reservedOp10 p _ => Sys2Proof.Machine.execReservedOp10 p s
  | .reservedOp11 p _ => Sys2Proof.Machine.execReservedOp11 p s
  | .reservedOp12 p _ => Sys2Proof.Machine.execReservedOp12 p s
  | .reservedOp13 p _ => Sys2Proof.Machine.execReservedOp13 p s
  | .reservedOp14 p _ => Sys2Proof.Machine.execReservedOp14 p s
  | .reservedOp15 p _ => Sys2Proof.Machine.execReservedOp15 p s
  | .illegalSubmitReservedBits _ => Sys2Proof.Machine.execIllegalSubmitReservedBits s
  | .illegalStopStatusBits _ => Sys2Proof.Machine.execIllegalStopStatusBits s
  | .illegalWrongPort p _ => Sys2Proof.Machine.execIllegalWrongPort p s
  | .pktMalformedIndex h => Sys2Proof.Machine.execPktMalformedIndex h s
  | .pktMalformedSize h => Sys2Proof.Machine.execPktMalformedSize h s
  | .pktStale h => Sys2Proof.Machine.execPktStale h s
  | .pktSupersede h => Sys2Proof.Machine.execPktSupersede h s
  | .pktDupData h => Sys2Proof.Machine.execPktDupData h s
  | .pktData h => Sys2Proof.Machine.execPktData h s
  | .pktDupRed h => Sys2Proof.Machine.execPktDupRed h s
  | .pktRed h => Sys2Proof.Machine.execPktRed h s
  | .fHdrByte => Sys2Proof.Machine.execFHdrByte s
  | .fPayByte pick => Sys2Proof.Machine.execFPayByte pick s
  | .fPoolFail => Sys2Proof.Machine.execFPoolFail s
  | .fEnq => Sys2Proof.Machine.execFEnq s
  | .fFifoFail => Sys2Proof.Machine.execFFifoFail s
  | .submitDone => Sys2Proof.Machine.execSubmitDone s
  | .accept => Sys2Proof.Machine.execAccept s
  | .emit => Sys2Proof.Machine.execEmit s
  | .emitDone => Sys2Proof.Machine.execEmitDone s
  | .acq pick => Sys2Proof.Machine.execAcq pick s
  | .decode reply => Sys2Proof.Machine.execDecode reply s
  | .finish => Sys2Proof.Machine.execFinish s
  | .fatal c => Sys2Proof.Machine.execFatal c s
  | .reset => Sys2Proof.Machine.execReset s

end Sys2Proof.Machine
end

