-- ==== Sys2Proof/Machine/Fetch.lean ====
section
/-! DEFINITION. What comes next: the turn the state lists or the free turn, and the instruction that turn is (R7, R11, R34, R35, R40). -/

namespace Sys2Proof.Machine

/-- The next turn and the state without it. The step count advances, so that every step numbers its own free values. -/
def nextTurn (s : State) : Turn × State :=
  match s.sched with
  | [] => (Config.freeTurn s.tick, { s with tick := s.tick + 1 })
  | t :: ts => (t, { s with sched := ts, tick := s.tick + 1 })

/-- The step FR_PHASE selects for the framer (R34, R40). Where a failure step of a non-blocking SUBMIT has its guard, it
is selected; a step that is selected with a false guard holds. -/
def framerStep (pick : Nat) (s : State) : Instr :=
  match s.frPhase with
  | .hdr => if s.subPos < s.subLen then .fHdrByte else .submitDone
  | .pay =>
    if s.subPos < s.subLen then
      if s.subBlk = false ∧ s.frSlot = none ∧ s.free = [] then .fPoolFail else .fPayByte pick
    else .submitDone
  | .enq => if s.subBlk = false ∧ s.fifo.length = s.qEff.val then .fFifoFail else .fEnq

/-- The step WPH selects for the worker (R35, R40); `none` where it has no enabled step: HALTED, or an offer that CONSUMER
does not take in this turn (R151). -/
def workerStep (env : WorkerEnv) (s : State) : Option Instr :=
  match s.wph with
  | .idle => some .accept
  | .emit => if s.next < s.limit then (if env.take then some .emit else none) else some .emitDone
  | .acq => some (.acq env.pick)
  | .decode => some (.decode (env.reply.getD (codecAnswer s)))
  | .finish => some .finish
  | .halted => none

/-- What a turn makes the machine do. -/
inductive Fetched where
  /-- one instruction -/
  | run (i : Instr)
  /-- nothing: the agent has no enabled step, or the port does not take the word -/
  | wait
  /-- the host's transaction is none the port can carry -/
  | bad (e : DecodeError)
  deriving DecidableEq, Repr

/-- The instruction of a turn. The data port takes no word while a SUBMIT is active (R104). -/
def fetchTurn (t : Turn) (s : State) : Fetched :=
  match t with
  | .ctrl w => .run (decodeControl w)
  | .data w stream =>
    if s.subActive then .wait
    else
      match decodeData w stream with
      | .ok (i, _) => .run i
      | .error e => .bad e
  | .framer pick => .run (framerStep pick s)
  | .worker env =>
    match workerStep env s with
    | some i => .run i
    | none => .wait
  | .reset => .run .reset

/-- The state with the instruction of a table word where `step` fetches its next one (log 16): a command word becomes the
next turn of its port; a 48-bit header becomes the FIFO head of a running, idle block, with the worker's turn next. -/
def placeTableWord (s : State) (nbits w : Nat) : State :=
  if nbits = 48 then
    { s with
      run := .running
      wph := .idle
      fifo := ⟨0, parseHeader (tableHeader w)⟩ :: s.fifo
      sched := .worker ⟨true, 0, none⟩ :: s.sched }
  else
    match tablePort w with
    | .control => { s with sched := .ctrl (tableCommandWord w) :: s.sched }
    | .data => { s with sched := .data (tableCommandWord w) (tableStream w) :: s.sched }

end Sys2Proof.Machine
end

