-- ==== Sys2Proof/Machine/Step.lean ====
section
/-! DEFINITION. One step of the machine: the next turn's instruction, executed. -/

namespace Sys2Proof.Machine

/-- One step (R7): the next agent's turn. A turn with nothing to do leaves the machine as it is (R8). -/
def step (s : State) : Host.Outcome State Fault Refusal :=
  match fetchTurn (nextTurn s).1 (nextTurn s).2 with
  | .run i => exec i (nextTurn s).2
  | .wait => hold (nextTurn s).2
  | .bad .shortSubmit => .refused .shortSubmit

/-- The state whose very next step runs the instruction of a table word (log 16). -/
def State.withFetchWord (s : State) (nbits w : Nat) : State := placeTableWord s nbits w

end Sys2Proof.Machine
end

