-- ==== Sys2Proof/Safety.lean ====
section
/-! DEFINITION. What a good state is: the invariants claims use as premises and are stated about. -/

namespace Sys2Proof.Machine

/-- FREE is held as a set: strictly rising (R32). -/
abbrev FreeRising (s : State) : Prop := s.free.Pairwise (· < ·)

/-- While not STOPPED the configuration is the one a valid INIT latched (R23 to R26, R101). -/
abbrev ConfigLatched (s : State) : Prop :=
  s.run ≠ .stopped →
    configValid s.par.mtuMax s.cfgK.val s.cfgN.val s.cfgMtu.toNat = true
      ∧ s.qEff.val = qEffOf s.par.fifoDepth s.cfgK.val s.cfgN.val

/-- Entries of DATA from k up and of RED below k or from n up are unused (R28, R29). -/
abbrev UnusedAbsent (s : State) : Prop :=
  (∀ i : Fin 31, s.cfgK.val ≤ i.val → (dataAt s i.val).present = false)
    ∧ ∀ q : Fin 32, (q.val < s.cfgK.val ∨ s.cfgN.val ≤ q.val) → (redAt s q.val).present = false

/-- The slots DATA holds. -/
def dataSlots (s : State) : List Slot :=
  ((List.range 31).filter fun i => (dataAt s i).present).map fun i => (dataAt s i).slot

/-- The slots RED holds. -/
def redSlots (s : State) : List Slot :=
  ((List.range 32).filter fun q => (redAt s q).present).map fun q => (redAt s q).slot

/-- Every slot with its holder, once per holder: FREE, the framer, the FIFO, the accumulator (R56). -/
def holders (s : State) : List Slot :=
  s.free ++ s.frSlot.toList ++ s.fifo.map Desc.slot ++ dataSlots s ++ redSlots s

/-- The single-owner invariant (R56): while RUNNING or FATAL every slot 0 .. 2n-1 has exactly one holder, and no other slot
has any. -/
abbrev SingleOwner (s : State) : Prop :=
  s.run ≠ .stopped → ∀ x : Slot, (holders s).count x = if x.val < 2 * s.cfgN.val then 1 else 0

/-- Pool conservation in the form every step keeps. -/
structure PoolInv (s : State) : Prop where
  config : ConfigLatched s
  rising : FreeRising s
  unused : UnusedAbsent s
  owner : SingleOwner s

/-- `DATA[i].disp = 1 <=> i < NEXT` for the block's indices (R30), and what is dispatched is present. -/
abbrev DispatchInv (s : State) : Prop :=
  ∀ i : Fin 31, i.val < s.cfgK.val →
    ((dataAt s i.val).disp = true ↔ i.val < s.next.val)
      ∧ (i.val < s.next.val → (dataAt s i.val).present = true)

/-- The framer registers' legal combinations (R34, R37). -/
structure FramerInv (s : State) : Prop where
  active : s.subActive = true → s.run = .running
  stopped : s.run = .stopped → s.frPhase = .hdr ∧ s.frHcnt = 0
  mtu : s.run ≠ .stopped → 1 ≤ s.cfgMtu.toNat
  hdr : s.frPhase = .hdr → s.frHcnt.val < 6 ∧ s.frSlot = none
  pay : s.frPhase = .pay → s.frPcnt.toNat < s.cfgMtu.toNat ∧ (s.frSlot = none ↔ s.frPcnt = 0#16)
  enq : s.frPhase = .enq → s.frSlot ≠ none
  bytes : s.subActive = true → s.subData.length = s.subLen.toNat ∧ s.subPos.toNat ≤ s.subLen.toNat

/-- The FIFO holds at most Q_EFF descriptors and is empty while STOPPED (R31, R57). -/
abbrev FifoInv (s : State) : Prop :=
  s.fifo.length ≤ s.qEff.val ∧ (s.run = .stopped → s.fifo = [])

/-- The received data shares of the block: present and not rebuilt. -/
def receivedCount (s : State) : Nat :=
  (List.range s.cfgK.val).countP fun i => (dataAt s i).present && !(dataAt s i).recon

/-- No present data entry is a reconstruction destination. -/
abbrev NoneRebuilt (s : State) : Prop :=
  ∀ i : Fin 31, (dataAt s i.val).present = true → (dataAt s i.val).recon = false

/-- What holds of the accumulator in each worker phase (R39, R141, R156, R168, R171). -/
def PhaseInv (s : State) : Prop :=
  match s.wph with
  | .idle =>
    s.kind = .none ∧ s.decoded = false ∧ NoneRebuilt s ∧ s.next = s.limit ∧ s.limit.val = firstGap s
      ∧ (s.run ≠ .stopped → dataCount s + redCount s < s.cfgK.val)
  | .emit =>
    match s.kind, s.decoded with
    | .none, false => NoneRebuilt s ∧ s.limit.val = firstGap s ∧ dataCount s + redCount s < s.cfgK.val
    | .direct, false => NoneRebuilt s ∧ s.limit.val = firstGap s ∧ dataCount s = s.cfgK.val ∧ redCount s = 0
    | .recon, false =>
      NoneRebuilt s ∧ s.limit.val = firstGap s ∧ dataCount s < s.cfgK.val
        ∧ dataCount s + redCount s = s.cfgK.val
    | .recon, true =>
      s.limit = s.cfgK ∧ dataCount s = s.cfgK.val ∧ receivedCount s + redCount s = s.cfgK.val
    | _, _ => False
  | .acq =>
    s.kind = .recon ∧ s.decoded = false ∧ dataCount s < s.cfgK.val
      ∧ receivedCount s + redCount s = s.cfgK.val
  | .decode =>
    s.kind = .recon ∧ s.decoded = false ∧ dataCount s = s.cfgK.val
      ∧ receivedCount s + redCount s = s.cfgK.val
  | .finish =>
    s.kind ≠ .none ∧ s.next = s.cfgK ∧ dataCount s = s.cfgK.val
      ∧ receivedCount s + redCount s = s.cfgK.val
  | .halted => s.run = .fatal

/-- The worker's registers: the phase, the dispatch pointer within LIMIT within CFG_K, and sizes of received shares that
fit the buffer (R133). -/
structure WorkerInv (s : State) : Prop where
  config : ConfigLatched s
  unused : UnusedAbsent s
  dispatch : DispatchInv s
  bounds : s.next ≤ s.limit ∧ s.limit ≤ s.cfgK
  sizes : ∀ i : Fin 31, (dataAt s i.val).present = true → (dataAt s i.val).ps ≤ s.cfgMtu
  halted : s.wph = .halted ↔ s.run = .fatal
  stopped : s.run = .stopped → s.wph = .idle
  phase : PhaseInv s

/-- All of it: the invariant under which no step faults. -/
structure Inv (s : State) : Prop where
  memory : Memory.wf s.buf
  pool : PoolInv s
  fifo : FifoInv s
  framer : FramerInv s
  worker : WorkerInv s

/-- Every byte of slot `x` below CFG_MTU has been written since reset. Acquire does not make a byte unwritten (log 21). -/
abbrev slotWritten (s : State) (x : Slot) : Prop :=
  ∀ o, o < s.cfgMtu.toNat → (Memory.lookup s.buf (bufKey x o)).isSome = true

/-- What has been written: the framer's slot up to FR_PCNT, and every slot that holds a received share or a rebuilt share
after DECODE (R52). -/
structure WrittenInv (s : State) : Prop where
  framer : ∀ x, s.frSlot = some x → ∀ o, o < s.frPcnt.toNat → (Memory.lookup s.buf (bufKey x o)).isSome = true
  full : s.frPhase = .enq → s.frPcnt = s.cfgMtu
  fifo : ∀ d ∈ s.fifo, slotWritten s d.slot
  data : ∀ i : Fin 31, (dataAt s i.val).present = true → (dataAt s i.val).recon = false ∨ s.decoded = true →
    slotWritten s (dataAt s i.val).slot
  red : ∀ q : Fin 32, (redAt s q.val).present = true → slotWritten s (redAt s q.val).slot

end Sys2Proof.Machine
end

