-- ==== Sys2Proof/Certificates/Slice0/Obligations.lean ====
section
/-! DEFINITION. The statements for the provers. A frame is written as `t = { s with … }`: every field that is not named there is unchanged. -/

open Sys2Proof Sys2Proof.Machine

/-! ## Encodings -/

/-- R71: the six bytes form a 48-bit little-endian word and the fields are taken from its low bits first. -/
def Obligations.HeaderFieldLayout : Prop :=
  ∀ b : Vector Byte 6,
    (parseHeader b).bi.toNat = b[0].toNat + b[1].toNat * 2 ^ 8 + b[2].toNat * 2 ^ 16
      ∧ (parseHeader b).pi = b[3]
      ∧ (parseHeader b).ps.toNat = b[4].toNat + b[5].toNat * 2 ^ 8

/-- R72: Seal returns the bytes the rule lists, and Seal and ParseHeader invert each other. -/
def Obligations.SealParseAgree : Prop :=
  (∀ h : Header, sealHeader h = #v[h.bi.extractLsb' 0 8, h.bi.extractLsb' 8 8, h.bi.extractLsb' 16 8, h.pi,
      h.ps.extractLsb' 0 8, h.ps.extractLsb' 8 8])
    ∧ (∀ b : Vector Byte 6, sealHeader (parseHeader b) = b)
    ∧ ∀ h : Header, parseHeader (sealHeader h) = h

/-- R76 to R80: decoding the word of a well-formed command or illegal word, with its bytes and any more behind it, gives the
instruction back and leaves what was behind. -/
def Obligations.CommandRoundTrip : Prop :=
  ∀ (i : Instr) (p : Port) (w : Word) (payload more : List Byte),
    i.wf = true → encode i = .command p w payload → decodeCommand p w (payload ++ more) = .ok (i, more)

/-- R76 to R80, the other direction: whatever a port decodes is well formed, encodes to the very word and bytes it was
decoded from, and leaves the rest on the port. -/
def Obligations.DecodedWordEncodesBack : Prop :=
  ∀ (p : Port) (w : Word) (stream rest : List Byte) (i : Instr), decodeCommand p w stream = .ok (i, rest) →
    i.wf = true ∧ ∃ payload, stream = payload ++ rest ∧ encode i = .command p w payload

/-- The words of vectors K1, K2, K11, K13, K15 (with its ten bytes; those of vector F1) and K17 to K23 of 95_test_vectors.md decode to
what the table there says, and so does a SUBMIT of two bytes, in no vector, that leaves a third on the port. -/
def Obligations.SampleWordsDecode : Prop :=
  decodeControl 0x00801841 = .init 4 6 128 ∧ decodeControl 0x00040C21 = .init 2 3 4
    ∧ decodeControl 0x00000003 = .stop ∧ decodeControl 0x00000004 = .status
    ∧ decodeData 0x00020012 [0x11, 0x22, 0x33] = .ok (.submit true 2 [0x11, 0x22], [0x33])
    ∧ decodeData 0x000A0012 [0x00, 0x00, 0x00, 0x00, 0x04, 0x00, 0x11, 0x22, 0x33, 0x44]
        = .ok (.submit true 10 [0x00, 0x00, 0x00, 0x00, 0x04, 0x00, 0x11, 0x22, 0x33, 0x44], [])
    ∧ decodeData 0x000A0032 [] = .ok (.illegalSubmitReservedBits 0x000A0032, [])
    ∧ decodeControl 0x00000000 = .reservedOp0 .control 0 ∧ decodeControl 0x00000005 = .reservedOp5 .control 0
    ∧ decodeControl 0x00000013 = .illegalStopStatusBits 0x00000013
    ∧ decodeControl 0x000A0012 = .illegalWrongPort .control 0x000A0012
    ∧ decodeData 0x00000004 [] = .ok (.illegalWrongPort .data 0x00000004, [])
    ∧ decodeControl 0x0000000F = .reservedOp15 .control 0

/-- R74, R131: the rows of the classification map, first match wins. -/
def Obligations.PacketClassMap : Prop :=
  ∀ (s : State) (h : Header),
    packetClass s h =
      if s.cfgN.val ≤ h.pi.toNat then .malformedIndex
      else if h.pi.toNat < s.cfgK.val ∧ s.cfgMtu.toNat < h.ps.toNat then .malformedSize
      else if h.bi.toNat < s.cbi.toNat then .stale
      else if s.cbi.toNat < h.bi.toNat then .supersede
      else if h.pi.toNat < s.cfgK.val then
        (if (dataAt s h.pi.toNat).present = true then .dupData else .data)
      else if (redAt s h.pi.toNat).present = true then .dupRed
      else .red

/-! ## A step runs the next turn -/

/-- R7, R11, R34, R35, R40: the turn at the head of the list is the one taken, and it runs exactly the instruction decoded
or selected for it on the state without the turn and with the step count advanced. WPH selects the worker's instruction by R35's
table: an offer that CONSUMER does not take leaves the worker where it is (R151), and DECODE gets the answer the turn brings or else
the attached codec's (log 6). FR_PHASE selects the framer's by the guards of R106 to R111. The model's choices here: the list of
turns and the step count, and which of a failure step and the normal step a framer turn selects (log 1); and that a data port whose
SUBMIT is active takes no word at all, illegal ones included (log 12, read from R104). -/
def Obligations.StepRunsDecodedInstruction : Prop :=
  ∀ (s s1 : State) (t : Turn) (ts : List Turn), s.sched = t :: ts → s1 = { s with sched := ts, tick := s.tick + 1 } →
    (∀ w, t = .ctrl w → step s = exec (decodeControl w) s1)
      ∧ (∀ w stream i rest, t = .data w stream → s.subActive = false → decodeData w stream = .ok (i, rest) →
          step s = exec i s1)
      ∧ (∀ w stream, t = .data w stream → s.subActive = true → step s = .next s1)
      ∧ (∀ pick, t = .framer pick → step s = exec (framerStep pick s1) s1)
      ∧ (∀ env i, t = .worker env → workerStep env s1 = some i → step s = exec i s1)
      ∧ (∀ env, t = .worker env → workerStep env s1 = none → step s = .next s1)
      ∧ (t = .reset → step s = exec .reset s1)
      ∧ (∀ env : WorkerEnv,
          (s.wph = .idle → workerStep env s1 = some .accept)
            ∧ (s.wph = .emit → s.next < s.limit → env.take = true → workerStep env s1 = some .emit)
            ∧ (s.wph = .emit → s.next < s.limit → env.take = false → workerStep env s1 = none)
            ∧ (s.wph = .emit → s.limit ≤ s.next → workerStep env s1 = some .emitDone)
            ∧ (s.wph = .acq → workerStep env s1 = some (.acq env.pick))
            ∧ (∀ r, s.wph = .decode → env.reply = some r → workerStep env s1 = some (.decode r))
            ∧ (∀ b, s.wph = .decode → env.reply = none → buildShares s = .ok b →
                workerStep env s1 = some (.decode
                  (Config.codecReply s1.tick s.cfgK.val s.cfgMtu.toNat b.idx (shareBytes s b) b.dst.length)))
            ∧ (∀ f, s.wph = .decode → env.reply = none → buildShares s = .error f →
                workerStep env s1 = some (.decode .fail))
            ∧ (s.wph = .finish → workerStep env s1 = some .finish)
            ∧ (s.wph = .halted → workerStep env s1 = none))
      ∧ ∀ pick : Nat,
          (s.frPhase = .hdr → s.subPos < s.subLen → framerStep pick s1 = .fHdrByte)
            ∧ (s.frPhase = .pay → s.subPos < s.subLen → ¬ (s.subBlk = false ∧ s.frSlot = none ∧ s.free = []) →
                framerStep pick s1 = .fPayByte pick)
            ∧ (s.frPhase = .pay → s.subPos < s.subLen → s.subBlk = false → s.frSlot = none → s.free = [] →
                framerStep pick s1 = .fPoolFail)
            ∧ (s.frPhase ≠ .enq → s.subLen ≤ s.subPos → framerStep pick s1 = .submitDone)
            ∧ (s.frPhase = .enq → s.subBlk = false → s.fifo.length = s.qEff.val → framerStep pick s1 = .fFifoFail)
            ∧ (s.frPhase = .enq → ¬ (s.subBlk = false ∧ s.fifo.length = s.qEff.val) → framerStep pick s1 = .fEnq)

/-- R7, U17: where the state lists no turn, the free turn of this step number is taken, whatever it is. -/
def Obligations.StepTakesFreeTurn : Prop :=
  ∀ s : State, s.sched = [] → step s = step { s with sched := [Config.freeTurn s.tick] }

/-- R151: while CONSUMER does not take the offer, the worker's turn changes nothing but the model's list of turns and step count
(log 1). -/
def Obligations.OfferWaitsForConsumer : Prop :=
  ∀ (s : State) (env : WorkerEnv) (ts : List Turn),
    s.sched = .worker env :: ts → s.wph = .emit → s.next < s.limit → env.take = false →
    step s = .next { s with sched := ts, tick := s.tick + 1 }

/-! ## Commands -/

/-- R100, R101, R181: INIT answers ERR_BUSY unless STOPPED, ERR_CONFIG for values that violate the descriptor invariant,
neither writing any other state, and otherwise starts the block with the values the rule lists. That the cleared RED entries keep
their slot is the model's reading (log 19; R41 says it of DATA). -/
def Obligations.InitCommand : Prop :=
  ∀ (k n : BitVec 6) (mtu : BitVec 16) (s : State) (valid : Prop),
    (valid ↔ 1 ≤ k.toNat ∧ k.toNat < n.toNat ∧ n.toNat ≤ 32 ∧ 1 ≤ mtu.toNat ∧ mtu.toNat ≤ s.par.mtuMax) →
    (s.run ≠ .stopped → exec (.init k n mtu) s = .next { s with outs := s.outs ++ [.ctrl 0x00000006] })
      ∧ (s.run = .stopped → ¬ valid →
          exec (.init k n mtu) s = .next { s with outs := s.outs ++ [.ctrl 0x00000005] })
      ∧ (s.run = .stopped → valid →
          ∃ t, exec (.init k n mtu) s = .next t
            ∧ t.cfgK.val = k.toNat ∧ t.cfgN.val = n.toNat
            ∧ t.qEff.val
                = min s.par.fifoDepth (2 * n.toNat - 1 - k.toNat - min k.toNat (n.toNat - k.toNat))
            ∧ (∀ x : Slot, x ∈ t.free ↔ x.val < 2 * n.toNat) ∧ t.free.Pairwise (· < ·)
            ∧ (∀ i, i < 31 → dataAt t i = { dataAt s i with present := false, disp := false, recon := false })
            ∧ (∀ q, q < 32 → redAt t q = { redAt s q with present := false })
            ∧ t = { s with
                run := .running, fatalCause := none, cfgK := t.cfgK, cfgN := t.cfgN, cfgMtu := mtu, qEff := t.qEff
                cbi := 0, data := t.data, red := t.red, next := 0, limit := 0, kind := .none, decoded := false
                wph := .idle, fifo := [], free := t.free, frPhase := .hdr, frHcnt := 0, frSlot := none, frPcnt := 0
                outs := s.outs ++ [.ctrl 0x00000000] })

/-- R102: STOP answers an active SUBMIT with FAIL_STOPPED and its position, tears the block down unless it is STOPPED, and
answers OK. That the cleared DATA entries keep slot and ps, the cleared RED entries their slot, and that SUB_BLK, SUB_LEN,
SUB_POS and SUB_DATA stay, is the model's reading (log 19). -/
def Obligations.StopCommand : Prop :=
  ∀ (s : State) (answers : List Output),
    answers = (if s.subActive = true then [Output.data (s.subPos ++ 0x0003#16)] else []) ++ [.ctrl 0x00000000] →
    (s.run = .stopped →
        exec .stop s = .next { s with subActive := false, outs := s.outs ++ answers })
      ∧ (s.run ≠ .stopped →
          ∃ t, exec .stop s = .next t
            ∧ (∀ x : Slot, x ∈ t.free ↔ x.val < 2 * s.cfgN.val) ∧ t.free.Pairwise (· < ·)
            ∧ (∀ i, i < 31 → dataAt t i = { dataAt s i with present := false, disp := false, recon := false })
            ∧ (∀ q, q < 32 → redAt t q = { redAt s q with present := false })
            ∧ t = { s with
                run := .stopped, fatalCause := none, data := t.data, red := t.red, next := 0, limit := 0
                kind := .none, decoded := false, wph := .idle, fifo := [], free := t.free, frPhase := .hdr
                frHcnt := 0, frSlot := none, frPcnt := 0, subActive := false, outs := s.outs ++ answers })

/-- R103, R84: STATUS answers OK and the four words of the state it finds, field by field, and writes no state. -/
def Obligations.StatusCommand : Prop :=
  ∀ s : State, ∃ a b c d : Word,
    exec .status s = .next { s with outs := s.outs ++ [.ctrl 0x00000000, .status a b c d] }
      ∧ field a 0 2 = (match s.run with | .stopped => 0 | .running => 1 | .fatal => 2)
      ∧ field a 2 2 = (match s.fatalCause with | none => 0 | some .codec => 1 | some .pool => 2)
      ∧ field a 4 3
          = (match s.wph with | .idle => 0 | .emit => 1 | .acq => 2 | .decode => 3 | .finish => 4 | .halted => 5)
      ∧ field a 7 1 = 0 ∧ field a 8 24 = s.cbi
      ∧ field b 0 7 = BitVec.ofNat 7 s.free.length ∧ field b 7 1 = 0
      ∧ field b 8 6 = BitVec.ofNat 6 s.fifo.length ∧ field b 14 2 = 0
      ∧ (field b 16 5).toNat = s.next.val ∧ field b 21 11 = 0
      ∧ (∀ i, i < 32 → c.getLsbD i = (decide (i < s.cfgK.val) && (dataAt s i).present))
      ∧ ∀ q, q < 32 →
          d.getLsbD q = (decide (s.cfgK.val ≤ q) && decide (q < s.cfgN.val) && (redAt s q).present)

/-- R104, R105: SUBMIT starts while RUNNING, is rejected with the run state's code otherwise, and is not taken while another
SUBMIT is active. -/
def Obligations.SubmitCommand : Prop :=
  ∀ (blk : Bool) (len : BitVec 16) (bytes : List Byte) (s : State),
    (s.subActive = true → exec (.submit blk len bytes) s = .next s)
      ∧ (s.subActive = false → s.run = .stopped →
          exec (.submit blk len bytes) s = .next { s with outs := s.outs ++ [.data 0x00000003] })
      ∧ (s.subActive = false → s.run = .fatal →
          exec (.submit blk len bytes) s = .next { s with outs := s.outs ++ [.data 0x00000004] })
      ∧ (s.subActive = false → s.run = .running →
          exec (.submit blk len bytes) s
            = .next { s with subActive := true, subBlk := blk, subLen := len, subPos := 0, subData := bytes })

/-- The port a reserved or illegal word is on (R80); `none` for every other instruction. -/
def Sys2Proof.illegalPort : Instr → Option Port
  | .reservedOp0 p _ | .reservedOp5 p _ | .reservedOp6 p _ | .reservedOp7 p _ | .reservedOp8 p _ | .reservedOp9 p _
  | .reservedOp10 p _ | .reservedOp11 p _ | .reservedOp12 p _ | .reservedOp13 p _ | .reservedOp14 p _
  | .reservedOp15 p _ => some p
  | .illegalSubmitReservedBits _ => some .data
  | .illegalStopStatusBits _ => some .control
  | .illegalWrongPort p _ => some p
  | _ => none

/-- R83: each of the fifteen reserved and illegal words (RESERVED_OP0, RESERVED_OP5 to RESERVED_OP15,
ILLEGAL_SUBMIT_RESERVED_BITS, ILLEGAL_STOP_STATUS_BITS, ILLEGAL_WRONG_PORT) is answered ERR_ILLEGAL_OP on the port that took it, in
every RUN state, and changes no other state. A busy data port takes no word (R104; the model's reading, log 12). -/
def Obligations.IllegalWordsAnswered : Prop :=
  ∀ (i : Instr) (s : State),
    (illegalPort i = some .control → exec i s = .next { s with outs := s.outs ++ [.ctrl 0x00000007] })
      ∧ (illegalPort i = some .data → s.subActive = false →
          exec i s = .next { s with outs := s.outs ++ [.data 0x00000007] })
      ∧ (illegalPort i = some .data → s.subActive = true → exec i s = .next s)

/-! ## Framer steps -/

/-- R106: F_HDR_BYTE keeps one header byte, and at the sixth parses the header and turns to the payload. -/
def Obligations.HeaderByteStep : Prop :=
  ∀ (s : State) (b : Byte) (hdr : Vector Byte 6),
    s.run = .running → s.subActive = true → s.subPos < s.subLen → s.frPhase = .hdr → s.frHcnt.val < 6 →
    s.subData[s.subPos.toNat]? = some b → hdr = s.frHdr.setIfInBounds s.frHcnt.val b →
    ∃ t, exec .fHdrByte s = .next t ∧ t.frHcnt.val = s.frHcnt.val + 1 ∧ t.subPos.toNat = s.subPos.toNat + 1
      ∧ (s.frHcnt.val < 5 → t = { s with frHdr := hdr, frHcnt := t.frHcnt, subPos := t.subPos })
      ∧ (s.frHcnt.val = 5 →
          t = { s with
            frHdr := hdr, frHcnt := t.frHcnt, subPos := t.subPos, frPhase := .pay, frPcnt := 0
            frBi := hdr[2] ++ hdr[1] ++ hdr[0], frPi := hdr[3], frPs := hdr[5] ++ hdr[4] })

/-- R107: F_PAY_BYTE stores one byte at offset FR_PCNT of the framer's slot and at no other place; at the first byte the slot
is a free one, which leaves FREE. With no slot held and FREE empty it holds. That the other bytes of a slot just acquired stay as
they were is the model's choice (log 21; R54 leaves them open). -/
def Obligations.PayloadByteStep : Prop :=
  ∀ (s : State) (pick : Nat) (b : Byte),
    s.run = .running → s.subActive = true → s.subPos < s.subLen → s.frPhase = .pay →
    s.subData[s.subPos.toNat]? = some b → s.frPcnt < s.cfgMtu →
    (s.frSlot = none → s.free = [] → exec (.fPayByte pick) s = .next s)
      ∧ ((∃ x, s.frSlot = some x ∧ x.val < 2 * s.cfgN.val) ∨
            (s.frSlot = none ∧ s.free ≠ [] ∧ ∀ x ∈ s.free, x.val < 2 * s.cfgN.val) →
          ∃ t x, exec (.fPayByte pick) s = .next t
            ∧ (s.frSlot = some x ∧ t.free = s.free
                ∨ s.frSlot = none ∧ x ∈ s.free ∧ t.free = s.free.erase x)
            ∧ t.frPcnt.toNat = s.frPcnt.toNat + 1 ∧ t.subPos.toNat = s.subPos.toNat + 1
            ∧ t.frPhase = (if s.frPcnt.toNat + 1 = s.cfgMtu.toNat then .enq else .pay)
            ∧ (∀ (y : Slot) (o : Nat), o < 65536 →
                byteAt t y o = if y = x ∧ o = s.frPcnt.toNat then b else byteAt s y o)
            ∧ t = { s with
                free := t.free, buf := t.buf, frSlot := some x, frPcnt := t.frPcnt, subPos := t.subPos
                frPhase := t.frPhase })

/-- R108: F_POOL_FAIL answers FAIL_POOL_EMPTY with the bytes taken and keeps the framer's state. -/
def Obligations.PoolFailStep : Prop :=
  ∀ s : State,
    s.run = .running → s.subActive = true → s.subBlk = false → s.subPos < s.subLen → s.frPhase = .pay →
    s.frSlot = none → s.free = [] →
    exec .fPoolFail s
      = .next { s with subActive := false, outs := s.outs ++ [.data (s.subPos ++ 0x0001#16)] }

/-- R109, R57: F_ENQ appends the packet's descriptor at the FIFO's tail and resets the framer. On a full FIFO it holds. -/
def Obligations.EnqueueStep : Prop :=
  ∀ (s : State) (x : Slot),
    s.run = .running → s.subActive = true → s.frPhase = .enq → s.frSlot = some x →
    (s.fifo.length < s.qEff.val →
        exec .fEnq s = .next { s with
          fifo := s.fifo ++ [⟨x, ⟨s.frBi, s.frPi, s.frPs⟩⟩], frPhase := .hdr, frHcnt := 0, frSlot := none, frPcnt := 0 })
      ∧ (s.qEff.val ≤ s.fifo.length → exec .fEnq s = .next s)

/-- R110: F_FIFO_FAIL releases the completed packet's slot, resets the framer and answers FAIL_FIFO_FULL with the bytes
taken. -/
def Obligations.FifoFailStep : Prop :=
  ∀ (s : State) (x : Slot),
    s.run = .running → s.subActive = true → s.subBlk = false → s.frPhase = .enq → s.fifo.length = s.qEff.val →
    s.frSlot = some x → x ∉ s.free →
    ∃ t, exec .fFifoFail s = .next t ∧ (∀ y : Slot, y ∈ t.free ↔ y ∈ s.free ∨ y = x)
      ∧ t = { s with
          free := t.free, frPhase := .hdr, frHcnt := 0, frSlot := none, frPcnt := 0, subActive := false
          outs := s.outs ++ [.data (s.subPos ++ 0x0002#16)] }

/-- R111: SUBMIT_DONE answers a fully consumed SUBMIT with OK and LEN; partial framer state is kept. -/
def Obligations.SubmitDoneStep : Prop :=
  ∀ s : State,
    s.run = .running → s.subActive = true → s.subPos = s.subLen → s.frPhase ≠ .enq →
    exec .submitDone s
      = .next { s with subActive := false, outs := s.outs ++ [.data (s.subLen ++ 0x0000#16)] }

/-- R113: what a header byte does to the machine does not depend on how the byte stream is cut into SUBMITs: two states that
differ in the SUBMIT registers alone, with the same next byte, still differ in them alone after it. -/
def Obligations.HeaderByteIgnoresSplit : Prop :=
  ∀ (s u t : State),
    u = { s with subBlk := u.subBlk, subLen := u.subLen, subPos := u.subPos, subData := u.subData } →
    s.subActive = true → s.subPos < s.subLen → u.subPos < u.subLen →
    s.subData[s.subPos.toNat]? = u.subData[u.subPos.toNat]? →
    exec .fHdrByte s = .next t → s.frPhase = .hdr →
    ∃ v, exec .fHdrByte u = .next v
      ∧ v = { t with subBlk := v.subBlk, subLen := v.subLen, subPos := v.subPos, subData := v.subData }

/-! ## ACCEPT and its classes -/

/-- R130, R131: ACCEPT does what the row of the head's class does; on an empty FIFO it holds. -/
def Obligations.AcceptIsItsClassRow : Prop :=
  ∀ s : State,
    (s.fifo = [] → exec .accept s = .next s)
      ∧ ∀ d rest, s.fifo = d :: rest → exec .accept s = exec (classInstr (packetClass s d.hdr) d.hdr) s

/-- The row of a FIFO head that ACCEPT discards, with its verdict: the conditions of R132, R133, R134 and R140 in the order of the
map (R74). -/
abbrev Sys2Proof.Machine.DiscardRow (s : State) (h : Header) (i : Instr) (v : Verdict) : Prop :=
  i = .pktMalformedIndex h ∧ v = .malformedIndex ∧ s.cfgN.val ≤ h.pi.toNat
    ∨ h.pi.toNat < s.cfgN.val
      ∧ (i = .pktMalformedSize h ∧ v = .malformedSize ∧ h.pi.toNat < s.cfgK.val ∧ s.cfgMtu < h.ps
        ∨ ¬ (h.pi.toNat < s.cfgK.val ∧ s.cfgMtu < h.ps)
          ∧ (i = .pktStale h ∧ v = .stale ∧ h.bi < s.cbi
            ∨ h.bi = s.cbi
              ∧ (i = .pktDupData h ∧ v = .duplicate ∧ h.pi.toNat < s.cfgK.val ∧ (dataAt s h.pi.toNat).present = true
                ∨ i = .pktDupRed h ∧ v = .duplicate ∧ s.cfgK.val ≤ h.pi.toNat
                    ∧ (redAt s h.pi.toNat).present = true)))

/-- R132, R133, R134, R140: PKT_MALFORMED_INDEX, PKT_MALFORMED_SIZE, PKT_STALE, PKT_DUP_DATA and PKT_DUP_RED pop the
descriptor, return its slot to the pool and change nothing else (the verdict is a trace label); ACCEPT does the same. A slot
already free is DoubleFreeIsFatal's. -/
def Obligations.DiscardedPackets : Prop :=
  ∀ (s : State) (d : Desc) (rest : List Desc) (i : Instr) (v : Verdict),
    s.run = .running → s.wph = .idle → s.fifo = d :: rest → d.slot ∉ s.free → DiscardRow s d.hdr i v →
    ∃ t, exec i s = .next t ∧ exec .accept s = .next t ∧ (∀ y : Slot, y ∈ t.free ↔ y ∈ s.free ∨ y = d.slot)
      ∧ t = { s with fifo := rest, free := t.free, verdicts := s.verdicts ++ [v] }

/-- R55, R184, R186: a discard of any of the five rows, or ACCEPT on such a head, whose Release is a double free enters FATAL with
cause POOL. FREE, the FIFO and everything else stay as they were before the step, and an active SUBMIT is answered
FAIL_FATAL. -/
def Obligations.DoubleFreeIsFatal : Prop :=
  ∀ (s : State) (d : Desc) (rest : List Desc) (i : Instr) (v : Verdict),
    s.run = .running → s.wph = .idle → s.fifo = d :: rest → d.slot ∈ s.free → DiscardRow s d.hdr i v →
    exec i s = exec .accept s
      ∧ exec .accept s = .next { s with
          run := .fatal, fatalCause := some .pool, wph := .halted, subActive := false
          outs := s.outs ++ (if s.subActive = true then [.data (s.subPos ++ 0x0004#16)] else []) }

/-- What R141 computes after an insert, in a state `t`: LIMIT is the first data index not present, or CFG_K; KIND is DIRECT when
all data is present, else RECON when nd + nr reaches CFG_K, else NONE; and the EMIT phase is entered. -/
def Sys2Proof.Machine.Decided (t : State) : Prop :=
  t.wph = .emit
    ∧ (∀ i, i < t.limit.val → (dataAt t i).present = true) ∧ t.limit.val ≤ t.cfgK.val
    ∧ (t.limit.val < t.cfgK.val → (dataAt t t.limit.val).present = false)
    ∧ t.kind =
        (if ∀ i, i < t.cfgK.val → (dataAt t i).present = true then .direct
         else if t.cfgK.val ≤
            ((List.range t.cfgK.val).filter fun i => (dataAt t i).present).length
              + ((List.range t.cfgN.val).filter fun q => decide (t.cfgK.val ≤ q) && (redAt t q).present).length
         then .recon else .none)

/-- R138, R141: PKT_DATA (and ACCEPT on such a head) inserts the share and decides dispatch and completion. -/
def Obligations.DataShareInserted : Prop :=
  ∀ (s : State) (d : Desc) (rest : List Desc),
    s.run = .running → s.wph = .idle → s.fifo = d :: rest → s.cfgK.val ≤ s.cfgN.val →
    d.hdr.pi.toNat < s.cfgK.val → d.hdr.ps ≤ s.cfgMtu → d.hdr.bi = s.cbi →
    (dataAt s d.hdr.pi.toNat).present = false →
    ∃ t, exec (.pktData d.hdr) s = .next t ∧ exec .accept s = .next t ∧ Decided t
      ∧ (∀ i, i < 31 → dataAt t i = if i = d.hdr.pi.toNat then ⟨true, d.slot, d.hdr.ps, false, false⟩ else dataAt s i)
      ∧ t = { s with
          fifo := rest, data := t.data, limit := t.limit, kind := t.kind, wph := .emit
          verdicts := s.verdicts ++ [.inserted] }

/-- R139, R141: PKT_RED (and ACCEPT on such a head) inserts the redundancy share, whatever its payload size, and decides
completion. -/
def Obligations.RedundancyShareInserted : Prop :=
  ∀ (s : State) (d : Desc) (rest : List Desc),
    s.run = .running → s.wph = .idle → s.fifo = d :: rest →
    s.cfgK.val ≤ d.hdr.pi.toNat → d.hdr.pi.toNat < s.cfgN.val → d.hdr.bi = s.cbi →
    (redAt s d.hdr.pi.toNat).present = false →
    ∃ t, exec (.pktRed d.hdr) s = .next t ∧ exec .accept s = .next t ∧ Decided t
      ∧ (∀ q, q < 32 → redAt t q = if q = d.hdr.pi.toNat then ⟨true, d.slot⟩ else redAt s q)
      ∧ t = { s with
          fifo := rest, red := t.red, limit := t.limit, kind := t.kind, wph := .emit
          verdicts := s.verdicts ++ [.inserted] }

/-- R142: a redundancy insert leaves LIMIT as it was, so the EMIT phase after it dispatches nothing. -/
def Obligations.RedundancyInsertKeepsLimit : Prop :=
  ∀ (s t : State) (h : Header), WorkerInv s → exec (.pktRed h) s = .next t → t.limit = s.limit ∧ t.next = s.next

/-- R135, R136: PKT_SUPERSEDE (and ACCEPT on such a head) releases every slot the block holds, empties the collections, takes the
packet's block index and inserts the packet. That the cleared DATA entries keep slot and ps and the cleared RED entries their slot is
the model's reading (log 19). A double free inside Purge is PoolFatalElsewhere's. -/
def Obligations.SupersedingPacket : Prop :=
  ∀ (s : State) (d : Desc) (rest : List Desc),
    s.run = .running → s.wph = .idle → s.fifo = d :: rest →
    d.hdr.pi.toNat < s.cfgN.val → s.cfgK.val ≤ s.cfgN.val → (d.hdr.pi.toNat < s.cfgK.val → d.hdr.ps ≤ s.cfgMtu) →
    s.cbi < d.hdr.bi → (heldSlots s).Nodup → (∀ x ∈ heldSlots s, x ∉ s.free) →
    ∃ t, exec (.pktSupersede d.hdr) s = .next t ∧ exec .accept s = .next t ∧ Decided t
      ∧ (∀ x : Slot, x ∈ t.free ↔ x ∈ s.free
          ∨ (∃ i, i < s.cfgK.val ∧ (dataAt s i).present = true ∧ (dataAt s i).slot = x)
          ∨ ∃ q, s.cfgK.val ≤ q ∧ q < s.cfgN.val ∧ (redAt s q).present = true ∧ (redAt s q).slot = x)
      ∧ (∀ i, i < 31 → dataAt t i =
          if s.cfgK.val ≤ i then dataAt s i
          else if i = d.hdr.pi.toNat then ⟨true, d.slot, d.hdr.ps, false, false⟩
          else { dataAt s i with present := false, disp := false, recon := false })
      ∧ (∀ q, q < 32 → redAt t q =
          if q < s.cfgK.val ∨ s.cfgN.val ≤ q then redAt s q
          else if q = d.hdr.pi.toNat then ⟨true, d.slot⟩
          else { redAt s q with present := false })
      ∧ t = { s with
          fifo := rest, free := t.free, cbi := d.hdr.bi, data := t.data, red := t.red, next := 0, limit := t.limit
          kind := t.kind, decoded := false, wph := .emit, verdicts := s.verdicts ++ [.inserted] }

/-! ## Dispatch, reconstruction, finish -/

/-- R150, R67: EMIT hands over a copy of the first `len` bytes of DATA[NEXT]'s slot, mtu bytes for a rebuilt share and the
header's size for a received one, marks the share and advances NEXT. -/
def Obligations.EmitStep : Prop :=
  ∀ (s : State) (e : DataEntry) (len : BitVec 16),
    s.run = .running → s.wph = .emit → s.next < s.limit → e = dataAt s s.next.val → e.present = true →
    len = (if e.recon = true then s.cfgMtu else e.ps) → len ≤ s.cfgMtu → e.slot.val < 2 * s.cfgN.val →
    ∃ t bytes, exec .emit s = .next t ∧ bytes.length = len.toNat
      ∧ (∀ j, j < len.toNat → bytes[j]? = some (byteAt s e.slot j))
      ∧ t.next.val = s.next.val + 1
      ∧ (∀ i, i < 31 → dataAt t i = if i = s.next.val then { dataAt s i with disp := true } else dataAt s i)
      ∧ t = { s with data := t.data, next := t.next, outs := s.outs ++ [.ready len bytes] }

/-- R152: EMIT_DONE leaves the dispatch phase for the phase KIND and DECODED name. -/
def Obligations.EmitDoneStep : Prop :=
  ∀ s : State, s.run = .running → s.wph = .emit → s.next = s.limit →
    (s.kind = .none → exec .emitDone s = .next { s with wph := .idle })
      ∧ (s.kind = .direct → exec .emitDone s = .next { s with wph := .finish })
      ∧ (s.kind = .recon → s.decoded = true → exec .emitDone s = .next { s with wph := .finish })
      ∧ (s.kind = .recon → s.decoded = false → exec .emitDone s = .next { s with wph := .acq })

/-- R157, R54: ACQ gives the lowest missing data index a free slot as a reconstruction destination, and goes to DECODE when none is
missing; every free slot is some draw's; with FREE empty it holds. That the acquired slot's bytes stay as they were is the model's
choice (log 21; R54 leaves them open). -/
def Obligations.AcquireDestinationStep : Prop :=
  ∀ (s : State) (j : Nat),
    s.run = .running → s.wph = .acq →
    (s.free = [] → ∀ pick, exec (.acq pick) s = .next s)
      ∧ (s.free ≠ [] → j < s.cfgK.val → (dataAt s j).present = false → (∀ i, i < j → (dataAt s i).present = true) →
          (∀ pick, ∃ t x, exec (.acq pick) s = .next t ∧ x ∈ s.free ∧ t.free = s.free.erase x
              ∧ (∀ i, i < 31 → dataAt t i = if i = j then ⟨true, x, s.cfgMtu, true, false⟩ else dataAt s i)
              ∧ t.wph = (if ∀ i, i < s.cfgK.val → i ≠ j → (dataAt s i).present = true then .decode else .acq)
              ∧ t = { s with free := t.free, data := t.data, wph := t.wph })
            ∧ ∀ x ∈ s.free, ∃ pick t, exec (.acq pick) s = .next t ∧ (dataAt t j).slot = x)

/-- R158: BuildShares lists, for each data index in order, the received share or the next redundancy share, and the rebuilt
entries' slots as destinations. -/
def Obligations.BuildSharesLists : Prop :=
  ∀ (s : State) (b : Shares), buildShares s = .ok b →
    b.idx.length = s.cfgK.val ∧ b.src.length = s.cfgK.val
      ∧ b.dst = ((List.range s.cfgK.val).filter fun i => (dataAt s i).recon).map (fun i => (dataAt s i).slot)
      ∧ ∀ i, i < s.cfgK.val →
          ((dataAt s i).recon = false → b.idx[i]? = some i ∧ b.src[i]? = some (dataAt s i).slot)
            ∧ ((dataAt s i).recon = true →
                ∃ q, (redPresent s)[((List.range i).filter fun l => (dataAt s l).recon).length]? = some q
                  ∧ b.idx[i]? = some q ∧ b.src[i]? = some (redAt s q).slot)

/-- R159: DECODE writes the codec's answer to the destination slots, byte for byte, and to no other place, and goes back to EMIT with
LIMIT = CFG_K. -/
def Obligations.DecodeFillsDestinations : Prop :=
  ∀ (s : State) (b : Shares) (dst : List (List Byte)),
    s.run = .running → s.wph = .decode → buildShares s = .ok b → b.dst.Nodup →
    (∀ x ∈ b.src ++ b.dst, x.val < 2 * s.cfgN.val) →
    dst.length = b.dst.length → (∀ d ∈ dst, d.length = s.cfgMtu.toNat) →
    ∃ t, exec (.decode (.ok dst)) s = .next t
      ∧ (∀ (j : Nat) (x : Slot), b.dst[j]? = some x → some (memRead t x 0 s.cfgMtu.toNat) = dst[j]?)
      ∧ (∀ (y : Slot) (o : Nat), o < 65536 → (y ∉ b.dst ∨ s.cfgMtu.toNat ≤ o) → byteAt t y o = byteAt s y o)
      ∧ t = { s with buf := t.buf, decoded := true, limit := s.cfgK, wph := .emit }

/-- R161, R186: a codec failure enters FATAL with cause CODEC; nothing of the step is done but the entry's writes. -/
def Obligations.CodecFailureIsFatal : Prop :=
  ∀ (s : State) (b : Shares),
    s.run = .running → s.wph = .decode → buildShares s = .ok b → (∀ x ∈ b.src ++ b.dst, x.val < 2 * s.cfgN.val) →
    exec (.decode .fail) s = .next { s with
      run := .fatal, fatalCause := some .codec, wph := .halted, subActive := false
      outs := s.outs ++ (if s.subActive = true then [.data (s.subPos ++ 0x0004#16)] else []) }

/-- R160, R159, R172: with a codec that meets the contract for the encoder's code E, if every received share and every
redundancy share of the block is the correct one, then after DECODE every data share 0 .. k-1 of the block is in the
buffers bit for bit. -/
def Obligations.ReconstructionRecoversBlock : Prop :=
  ∀ (s : State) (E : List (List Byte) → List (List Byte)) (D : List (List Byte))
    (codec : List Nat → List (List Byte) → Nat → CodecReply),
    WorkerInv s → PoolInv s → s.run = .running → s.wph = .decode →
    Config.Systematic s.cfgK.val s.cfgN.val s.cfgMtu.toNat E →
    Config.CodecContract s.cfgK.val s.cfgN.val s.cfgMtu.toNat E codec →
    D.length = s.cfgK.val → (∀ d ∈ D, d.length = s.cfgMtu.toNat) →
    (∀ i, i < s.cfgK.val → (dataAt s i).recon = false →
      some (memRead s (dataAt s i).slot 0 s.cfgMtu.toNat) = D[i]?) →
    (∀ q, s.cfgK.val ≤ q → q < s.cfgN.val → (redAt s q).present = true →
      some (memRead s (redAt s q).slot 0 s.cfgMtu.toNat) = (E D)[q]?) →
    ∃ b t, buildShares s = .ok b
      ∧ exec (.decode (codec b.idx (shareBytes s b) b.dst.length)) s = .next t
      ∧ ∀ i, i < s.cfgK.val → some (memRead t (dataAt t i).slot 0 s.cfgMtu.toNat) = D[i]?

/-- R163, R164: FINISH releases every slot of the block, empties the collections and advances CBI by one modulo 2^24. That the
cleared DATA entries keep slot and ps and the cleared RED entries their slot is the model's reading (log 19). A double free is
PoolFatalElsewhere's. -/
def Obligations.FinishStep : Prop :=
  ∀ s : State,
    s.run = .running → s.wph = .finish → (heldSlots s).Nodup → (∀ x ∈ heldSlots s, x ∉ s.free) →
    ∃ t, exec .finish s = .next t
      ∧ t.cbi.toNat = (s.cbi.toNat + 1) % 2 ^ 24
      ∧ (∀ x : Slot, x ∈ t.free ↔ x ∈ s.free
          ∨ (∃ i, i < s.cfgK.val ∧ (dataAt s i).present = true ∧ (dataAt s i).slot = x)
          ∨ ∃ q, s.cfgK.val ≤ q ∧ q < s.cfgN.val ∧ (redAt s q).present = true ∧ (redAt s q).slot = x)
      ∧ (∀ i, dataAt t i =
          if i < s.cfgK.val then { dataAt s i with present := false, disp := false, recon := false } else dataAt s i)
      ∧ (∀ q, redAt t q =
          if s.cfgK.val ≤ q ∧ q < s.cfgN.val then { redAt s q with present := false } else redAt s q)
      ∧ t = { s with
          free := t.free, cbi := t.cbi, data := t.data, red := t.red, next := 0, limit := 0, kind := .none
          decoded := false, wph := .idle }

/-! ## FATAL, RESET -/

/-- R186: the fatal entry from RUNNING makes its writes and no other. -/
def Obligations.FatalEntry : Prop :=
  ∀ (c : Cause) (s : State), s.run = .running →
    exec (.fatal c) s = .next { s with
      run := .fatal, fatalCause := some c, wph := .halted, subActive := false
      outs := s.outs ++ (if s.subActive = true then [.data (s.subPos ++ 0x0004#16)] else []) }

/-- R210, R41: RESET, in any state, sets the elements to their reset values, answers nothing and withdraws the offer; every byte of
BUF is unspecified again, which in the model is the free value of a byte nothing has written (log 4). -/
def Obligations.ResetStep : Prop :=
  ∀ s : State, ∃ t, exec .reset s = .next t ∧ t.outs = s.outs
    ∧ t.run = .stopped ∧ t.fatalCause = none
    ∧ t.cfgK = 0 ∧ t.cfgN = 0 ∧ t.cfgMtu = 0 ∧ t.qEff = 0 ∧ t.cbi = 0
    ∧ (∀ i, i < 31 → (dataAt t i).present = false ∧ (dataAt t i).disp = false ∧ (dataAt t i).recon = false)
    ∧ (∀ q, q < 32 → (redAt t q).present = false)
    ∧ t.next = 0 ∧ t.limit = 0 ∧ t.kind = .none ∧ t.decoded = false ∧ t.wph = .idle
    ∧ t.fifo = [] ∧ t.free = []
    ∧ t.frPhase = .hdr ∧ t.frHcnt = 0 ∧ t.frSlot = none ∧ t.frPcnt = 0 ∧ t.subActive = false
    ∧ offer t = none ∧ ∀ (x : Slot) (o : Nat), byteAt t x o = Config.freeByte t.bufEpoch (bufKey x o)

/-- R41: the state after reset has every value the rule's table gives, and every invariant of the model holds of it. Where the table
says unspecified nothing is said, but that a byte of BUF is the free value of a byte nothing has written (log 4). -/
def Obligations.ResetStateIsGood : Prop :=
  State.reset.run = .stopped ∧ State.reset.fatalCause = none
    ∧ State.reset.cfgK = 0 ∧ State.reset.cfgN = 0 ∧ State.reset.cfgMtu = 0 ∧ State.reset.qEff = 0 ∧ State.reset.cbi = 0
    ∧ (∀ i, i < 31 → (dataAt State.reset i).present = false ∧ (dataAt State.reset i).disp = false
        ∧ (dataAt State.reset i).recon = false)
    ∧ (∀ q, q < 32 → (redAt State.reset q).present = false)
    ∧ State.reset.next = 0 ∧ State.reset.limit = 0 ∧ State.reset.kind = .none ∧ State.reset.decoded = false
    ∧ State.reset.wph = .idle ∧ State.reset.fifo = [] ∧ State.reset.free = []
    ∧ (∀ (x : Slot) (o : Nat), byteAt State.reset x o = Config.freeByte State.reset.bufEpoch (bufKey x o))
    ∧ State.reset.frPhase = .hdr ∧ State.reset.frHcnt = 0 ∧ State.reset.frSlot = none ∧ State.reset.frPcnt = 0
    ∧ State.reset.subActive = false ∧ Inv State.reset ∧ WrittenInv State.reset

/-! ## Rules of the whole machine -/

/-- R188, R187: in FATAL only STOP and RESET change the run state or the cause, no other instruction moves the worker, the framer
or the pool, and no DataReady is delivered. -/
def Obligations.FatalLeftOnlyByStopOrReset : Prop :=
  ∀ (i : Instr) (s t : State), s.run = .fatal → i ≠ .stop → i ≠ .reset → exec i s = .next t →
    ∃ os, t = { s with outs := s.outs ++ os } ∧ ∀ len bytes, Output.ready len bytes ∉ os

/-- R187, R211, R8: while the block is not RUNNING every worker step and every framer step, ACCEPT's classes among them, holds. -/
def Obligations.NothingRunsUnlessRunning : Prop :=
  ∀ (i : Instr) (s : State), s.run ≠ .running →
    (encode i = .internal ∧ i ≠ .reset) ∨ (∃ b, encode i = .header b) → exec i s = .next s

/-- R65, R100: no instruction but RESET changes the Coding Descriptor or Q_EFF while the block is not STOPPED. -/
def Obligations.DescriptorImmutableOnceActive : Prop :=
  ∀ (i : Instr) (s t : State), s.run ≠ .stopped → i ≠ .reset → exec i s = .next t →
    t.cfgK = s.cfgK ∧ t.cfgN = s.cfgN ∧ t.cfgMtu = s.cfgMtu ∧ t.qEff = s.qEff

/-- R27, R164, R136: what can change CBI, and to what. -/
def Obligations.BlockIndexWriters : Prop :=
  ∀ (i : Instr) (s t : State), exec i s = .next t → t.cbi ≠ s.cbi →
    ((∃ k n mtu, i = .init k n mtu) ∧ t.cbi = 0) ∨ (i = .reset ∧ t.cbi = 0)
      ∨ (i = .finish ∧ t.cbi = s.cbi + 1)
      ∨ ((i = .accept ∨ ∃ h, i = .pktSupersede h)
          ∧ ∃ d rest, s.fifo = d :: rest ∧ s.cbi < d.hdr.bi ∧ t.cbi = d.hdr.bi)

/-- R150, R165, R38: what the ports carry out only grows, and a DataReady comes only from EMIT, is the offer of DATA[NEXT], and
goes with NEXT + 1 in the same block. So within a block the indices dispatched strictly ascend. -/
def Obligations.OnlyEmitDelivers : Prop :=
  ∀ (i : Instr) (s t : State), exec i s = .next t →
    ∃ os, t.outs = s.outs ++ os
      ∧ ∀ len bytes, Output.ready len bytes ∈ os →
          i = .emit ∧ offer s = some (.ready len bytes) ∧ t.next.val = s.next.val + 1 ∧ t.cbi = s.cbi

/-- The model's own fields (log 1, log 3): no instruction writes the parameters, the turns to come or the step count. -/
def Obligations.EnvironmentNeverWritten : Prop :=
  ∀ (i : Instr) (s t : State), exec i s = .next t → t.par = s.par ∧ t.sched = s.sched ∧ t.tick = s.tick

/-- The named stops of `exec` (log 13, log 6), all at elements that do not exist or have no meaning. F_PAY_BYTE's access is out of
range in the slot it holds, or in the slot that this draw acquires at the first payload byte. -/
def Obligations.NamedStops : Prop :=
  ∀ s : State, s.run = .running →
    (s.subActive = true → s.subPos < s.subLen →
        (s.frPhase = .hdr → s.frHcnt = 6 → exec .fHdrByte s = .fault .headerFull)
          ∧ (s.frPhase = .hdr → s.frHcnt ≠ 6 → s.subData[s.subPos.toNat]? = none →
              exec .fHdrByte s = .fault .submitByteMissing)
          ∧ (s.frPhase = .pay → s.subData[s.subPos.toNat]? = none →
              ∀ pick, exec (.fPayByte pick) s = .fault .submitByteMissing)
          ∧ (∀ b x, s.frPhase = .pay → s.subData[s.subPos.toNat]? = some b → s.frSlot = some x →
              ¬ (s.frPcnt < s.cfgMtu ∧ x.val < 2 * s.cfgN.val) →
              ∀ pick, exec (.fPayByte pick) s = .fault .bufRange)
          ∧ ∀ b x free pick, s.frPhase = .pay → s.subData[s.subPos.toNat]? = some b → s.frSlot = none →
              acquire pick s.free = some (x, free) → ¬ (s.frPcnt < s.cfgMtu ∧ x.val < 2 * s.cfgN.val) →
              exec (.fPayByte pick) s = .fault .bufRange)
      ∧ (s.subActive = true → s.frPhase = .enq → s.frSlot = none →
          (s.fifo.length < s.qEff.val → exec .fEnq s = .fault .noPayloadSlot)
            ∧ (s.subBlk = false → s.fifo.length = s.qEff.val → exec .fFifoFail s = .fault .noPayloadSlot))
      ∧ (s.wph = .emit → s.next < s.limit →
          ((dataAt s s.next.val).present = false → exec .emit s = .fault .absentShare)
            ∧ ((dataAt s s.next.val).present = true →
                ¬ (offerLen s (dataAt s s.next.val) ≤ s.cfgMtu ∧ (dataAt s s.next.val).slot.val < 2 * s.cfgN.val) →
                exec .emit s = .fault .bufRange))
      ∧ (s.wph = .acq → s.free ≠ [] → (∀ i, i < s.cfgK.val → (dataAt s i).present = true) →
          ∀ pick, exec (.acq pick) s = .fault .noMissingShare)
      ∧ (s.wph = .decode →
          (∀ f reply, buildShares s = .error f → exec (.decode reply) s = .fault f)
            ∧ (∀ b reply, buildShares s = .ok b → (∃ x ∈ b.src ++ b.dst, 2 * s.cfgN.val ≤ x.val) →
                exec (.decode reply) s = .fault .bufRange)
            ∧ ∀ b dst, buildShares s = .ok b → (∀ x ∈ b.src ++ b.dst, x.val < 2 * s.cfgN.val) →
                ¬ (dst.length = b.dst.length ∧ ∀ d ∈ dst, d.length = s.cfgMtu.toNat) →
                exec (.decode (.ok dst)) s = .refused .codecReplyShape)

/-- A SUBMIT with fewer bytes behind it than LEN is no transaction of the data port (R76, R78; log 2): the step is refused by name.
The only other refusal is DECODE's, of an answer brought by the turn that is not m destinations of mtu bytes (R86; log 6); the
attached codec never gives such an answer. -/
def Obligations.RefusalsAreNamed : Prop :=
  (∀ (s : State) (w : Word) (stream : List Byte) (ts : List Turn),
      s.sched = .data w stream :: ts → s.subActive = false →
      field w 0 4 = 2 → field w 5 11 = 0 → stream.length < (field w 16 16).toNat →
      step s = .refused .shortSubmit)
    ∧ ∀ (s : State) (r : Refusal), step s = .refused r →
        (r = .shortSubmit ∧ s.subActive = false
            ∧ ∃ w stream, (nextTurn s).1 = .data w stream ∧ field w 0 4 = 2 ∧ field w 5 11 = 0
                ∧ stream.length < (field w 16 16).toNat)
          ∨ (r = .codecReplyShape ∧ s.run = .running ∧ s.wph = .decode
              ∧ ∃ env b dst, (nextTurn s).1 = .worker env ∧ env.reply = some (.ok dst) ∧ buildShares s = .ok b
                  ∧ ¬ (dst.length = b.dst.length ∧ ∀ d ∈ dst, d.length = s.cfgMtu.toNat))

/-! ## Invariants -/

/-- The buffer store keeps its canonical form at every step, from every state that has it. -/
def Obligations.MemoryStaysCanonical : Prop :=
  ∀ s t : State, Memory.wf s.buf → step s = .next t → Memory.wf t.buf

/-- R56: every step keeps each slot of the pool with exactly one holder. -/
def Obligations.PoolConservationKept : Prop :=
  ∀ s t : State, PoolInv s → step s = .next t → PoolInv t

/-- R56: the number of free, in-flight and held buffers is 2·CFG_N. -/
def Obligations.PoolCountsAddUp : Prop :=
  ∀ s : State, PoolInv s → s.run ≠ .stopped →
    s.free.length + (if s.frSlot = none then 0 else 1) + s.fifo.length
        + ((List.range 31).filter fun i => (dataAt s i).present).length
        + ((List.range 32).filter fun q => (redAt s q).present).length
      = 2 * s.cfgN.val

/-- R30: `DATA[i].disp = 1 <=> i < NEXT` is kept by every step. -/
def Obligations.DispatchFlagsKept : Prop :=
  ∀ s t : State, DispatchInv s → step s = .next t → DispatchInv t

/-- R34, R37: the framer's legal register combinations are kept by every step. -/
def Obligations.FramerRegistersKept : Prop :=
  ∀ s t : State, FramerInv s → step s = .next t → FramerInv t

/-- R31, R57: the FIFO never holds more than Q_EFF descriptors. -/
def Obligations.FifoBoundKept : Prop :=
  ∀ s t : State, FifoInv s → step s = .next t → FifoInv t

/-- R141, R156, R168, R171: what each worker phase says of the accumulator is kept by every step. -/
def Obligations.WorkerPhasesKept : Prop :=
  ∀ s t : State, WorkerInv s → step s = .next t → WorkerInv t

/-- R169, R115: no reconstruction wait and no pool-empty failure: in a good running state ACQ finds a free slot, and so does the
framer when it holds none. -/
def Obligations.AcquireNeverWaits : Prop :=
  ∀ s : State, Inv s → s.run = .running → s.wph = .acq ∨ s.frSlot = none → s.free ≠ []

/-- Under the invariant no step faults: every named fault lies outside the reachable states (log 13). -/
def Obligations.GoodStatesNeverFault : Prop :=
  ∀ (s : State) (f : Fault), Inv s → step s ≠ .fault f

/-- R52: from a good state, every step keeps all bytes that can still be read written: a slot is handed on only when it is full, and a
rebuilt share counts once DECODE has filled it. -/
def Obligations.WrittenBytesKept : Prop :=
  ∀ s t : State, Inv s → WrittenInv s → step s = .next t → WrittenInv t

/-- R52: every byte that EMIT hands over and every byte that DECODE gives the codec was written by an earlier step, so no output
depends on a byte that nothing wrote (log 4). -/
def Obligations.ReadsAreWritten : Prop :=
  ∀ s : State, Inv s → WrittenInv s →
    (∀ len bytes, offer s = some (.ready len bytes) →
        ∀ o, o < len.toNat → (Memory.lookup s.buf (bufKey (dataAt s s.next.val).slot o)).isSome = true)
      ∧ ∀ b, buildShares s = .ok b → ∀ x ∈ b.src, slotWritten s x

/-! ## FATAL with cause POOL -/

/-- R55, R184, R185, R186: the double free in F_FIFO_FAIL, in the Purge of PKT_SUPERSEDE (and of ACCEPT on such a head) and in FINISH
enters FATAL with cause POOL and answers an active SUBMIT FAIL_FATAL. `pre` are the slots released before the failing Release of
`x`. That FREE keeps those releases and every other element is as before the step is the model's reading (log 9). -/
def Obligations.PoolFatalElsewhere : Prop :=
  (∀ (s : State) (x : Slot),
      s.run = .running → s.subActive = true → s.subBlk = false → s.frPhase = .enq → s.fifo.length = s.qEff.val →
      s.frSlot = some x → x ∈ s.free →
      exec .fFifoFail s = .next { s with
        run := .fatal, fatalCause := some .pool, wph := .halted, subActive := false
        outs := s.outs ++ [.data (s.subPos ++ 0x0004#16)] })
    ∧ ∀ (s : State) (i : Instr) (pre post : List Slot) (x : Slot),
        s.run = .running → heldSlots s = pre ++ x :: post → pre.Nodup → (∀ y ∈ pre, y ∉ s.free) →
        x ∈ s.free ∨ x ∈ pre →
        (i = .finish ∧ s.wph = .finish
          ∨ ∃ d rest, (i = .pktSupersede d.hdr ∨ i = .accept) ∧ s.wph = .idle ∧ s.fifo = d :: rest
              ∧ d.hdr.pi.toNat < s.cfgN.val ∧ (d.hdr.pi.toNat < s.cfgK.val → d.hdr.ps ≤ s.cfgMtu)
              ∧ s.cbi < d.hdr.bi) →
        ∃ t, exec i s = .next t ∧ (∀ y : Slot, y ∈ t.free ↔ y ∈ s.free ∨ y ∈ pre)
          ∧ t = { s with
              free := t.free, run := .fatal, fatalCause := some .pool, wph := .halted, subActive := false
              outs := s.outs ++ (if s.subActive = true then [.data (s.subPos ++ 0x0004#16)] else []) }

/-- R55, R56, R184: where every slot has one holder no double free happens, so no step raises FATAL with cause POOL, and no
instruction does but the FATAL row with that cause as its operand (log 15). -/
def Obligations.PoolFatalNeverRaised : Prop :=
  (∀ s t : State, PoolInv s → step s = .next t → t.fatalCause = some .pool → s.fatalCause = some .pool)
    ∧ ∀ (i : Instr) (s t : State), PoolInv s → i ≠ .fatal .pool → exec i s = .next t →
        t.fatalCause = some .pool → s.fatalCause = some .pool
end

