-- ==== Sys2Proof/Laws/State.lean ====
section
/-! SUPPORT. One lemma per field per named update of the state, so that no proof unfolds a record update. -/

namespace Sys2Proof.Machine

/-! `setData` -/

@[simp] theorem setData_run (s : State) (i : Nat) (e : DataEntry) : (setData s i e).run = s.run := rfl
@[simp] theorem setData_fatalCause (s : State) (i : Nat) (e : DataEntry) : (setData s i e).fatalCause = s.fatalCause := rfl
@[simp] theorem setData_cfgK (s : State) (i : Nat) (e : DataEntry) : (setData s i e).cfgK = s.cfgK := rfl
@[simp] theorem setData_cfgN (s : State) (i : Nat) (e : DataEntry) : (setData s i e).cfgN = s.cfgN := rfl
@[simp] theorem setData_cfgMtu (s : State) (i : Nat) (e : DataEntry) : (setData s i e).cfgMtu = s.cfgMtu := rfl
@[simp] theorem setData_qEff (s : State) (i : Nat) (e : DataEntry) : (setData s i e).qEff = s.qEff := rfl
@[simp] theorem setData_cbi (s : State) (i : Nat) (e : DataEntry) : (setData s i e).cbi = s.cbi := rfl
@[simp] theorem setData_data (s : State) (i : Nat) (e : DataEntry) : (setData s i e).data = s.data.setIfInBounds i e := rfl
@[simp] theorem setData_red (s : State) (i : Nat) (e : DataEntry) : (setData s i e).red = s.red := rfl
@[simp] theorem setData_next (s : State) (i : Nat) (e : DataEntry) : (setData s i e).next = s.next := rfl
@[simp] theorem setData_limit (s : State) (i : Nat) (e : DataEntry) : (setData s i e).limit = s.limit := rfl
@[simp] theorem setData_kind (s : State) (i : Nat) (e : DataEntry) : (setData s i e).kind = s.kind := rfl
@[simp] theorem setData_decoded (s : State) (i : Nat) (e : DataEntry) : (setData s i e).decoded = s.decoded := rfl
@[simp] theorem setData_wph (s : State) (i : Nat) (e : DataEntry) : (setData s i e).wph = s.wph := rfl
@[simp] theorem setData_fifo (s : State) (i : Nat) (e : DataEntry) : (setData s i e).fifo = s.fifo := rfl
@[simp] theorem setData_free (s : State) (i : Nat) (e : DataEntry) : (setData s i e).free = s.free := rfl
@[simp] theorem setData_buf (s : State) (i : Nat) (e : DataEntry) : (setData s i e).buf = s.buf := rfl
@[simp] theorem setData_frPhase (s : State) (i : Nat) (e : DataEntry) : (setData s i e).frPhase = s.frPhase := rfl
@[simp] theorem setData_frHcnt (s : State) (i : Nat) (e : DataEntry) : (setData s i e).frHcnt = s.frHcnt := rfl
@[simp] theorem setData_frHdr (s : State) (i : Nat) (e : DataEntry) : (setData s i e).frHdr = s.frHdr := rfl
@[simp] theorem setData_frBi (s : State) (i : Nat) (e : DataEntry) : (setData s i e).frBi = s.frBi := rfl
@[simp] theorem setData_frPi (s : State) (i : Nat) (e : DataEntry) : (setData s i e).frPi = s.frPi := rfl
@[simp] theorem setData_frPs (s : State) (i : Nat) (e : DataEntry) : (setData s i e).frPs = s.frPs := rfl
@[simp] theorem setData_frSlot (s : State) (i : Nat) (e : DataEntry) : (setData s i e).frSlot = s.frSlot := rfl
@[simp] theorem setData_frPcnt (s : State) (i : Nat) (e : DataEntry) : (setData s i e).frPcnt = s.frPcnt := rfl
@[simp] theorem setData_subActive (s : State) (i : Nat) (e : DataEntry) : (setData s i e).subActive = s.subActive := rfl
@[simp] theorem setData_subBlk (s : State) (i : Nat) (e : DataEntry) : (setData s i e).subBlk = s.subBlk := rfl
@[simp] theorem setData_subLen (s : State) (i : Nat) (e : DataEntry) : (setData s i e).subLen = s.subLen := rfl
@[simp] theorem setData_subPos (s : State) (i : Nat) (e : DataEntry) : (setData s i e).subPos = s.subPos := rfl
@[simp] theorem setData_subData (s : State) (i : Nat) (e : DataEntry) : (setData s i e).subData = s.subData := rfl
@[simp] theorem setData_par (s : State) (i : Nat) (e : DataEntry) : (setData s i e).par = s.par := rfl
@[simp] theorem setData_sched (s : State) (i : Nat) (e : DataEntry) : (setData s i e).sched = s.sched := rfl
@[simp] theorem setData_tick (s : State) (i : Nat) (e : DataEntry) : (setData s i e).tick = s.tick := rfl
@[simp] theorem setData_bufEpoch (s : State) (i : Nat) (e : DataEntry) : (setData s i e).bufEpoch = s.bufEpoch := rfl
@[simp] theorem setData_outs (s : State) (i : Nat) (e : DataEntry) : (setData s i e).outs = s.outs := rfl
@[simp] theorem setData_verdicts (s : State) (i : Nat) (e : DataEntry) : (setData s i e).verdicts = s.verdicts := rfl

/-! `setRed` -/

@[simp] theorem setRed_run (s : State) (q : Nat) (e : RedEntry) : (setRed s q e).run = s.run := rfl
@[simp] theorem setRed_fatalCause (s : State) (q : Nat) (e : RedEntry) : (setRed s q e).fatalCause = s.fatalCause := rfl
@[simp] theorem setRed_cfgK (s : State) (q : Nat) (e : RedEntry) : (setRed s q e).cfgK = s.cfgK := rfl
@[simp] theorem setRed_cfgN (s : State) (q : Nat) (e : RedEntry) : (setRed s q e).cfgN = s.cfgN := rfl
@[simp] theorem setRed_cfgMtu (s : State) (q : Nat) (e : RedEntry) : (setRed s q e).cfgMtu = s.cfgMtu := rfl
@[simp] theorem setRed_qEff (s : State) (q : Nat) (e : RedEntry) : (setRed s q e).qEff = s.qEff := rfl
@[simp] theorem setRed_cbi (s : State) (q : Nat) (e : RedEntry) : (setRed s q e).cbi = s.cbi := rfl
@[simp] theorem setRed_data (s : State) (q : Nat) (e : RedEntry) : (setRed s q e).data = s.data := rfl
@[simp] theorem setRed_red (s : State) (q : Nat) (e : RedEntry) : (setRed s q e).red = s.red.setIfInBounds q e := rfl
@[simp] theorem setRed_next (s : State) (q : Nat) (e : RedEntry) : (setRed s q e).next = s.next := rfl
@[simp] theorem setRed_limit (s : State) (q : Nat) (e : RedEntry) : (setRed s q e).limit = s.limit := rfl
@[simp] theorem setRed_kind (s : State) (q : Nat) (e : RedEntry) : (setRed s q e).kind = s.kind := rfl
@[simp] theorem setRed_decoded (s : State) (q : Nat) (e : RedEntry) : (setRed s q e).decoded = s.decoded := rfl
@[simp] theorem setRed_wph (s : State) (q : Nat) (e : RedEntry) : (setRed s q e).wph = s.wph := rfl
@[simp] theorem setRed_fifo (s : State) (q : Nat) (e : RedEntry) : (setRed s q e).fifo = s.fifo := rfl
@[simp] theorem setRed_free (s : State) (q : Nat) (e : RedEntry) : (setRed s q e).free = s.free := rfl
@[simp] theorem setRed_buf (s : State) (q : Nat) (e : RedEntry) : (setRed s q e).buf = s.buf := rfl
@[simp] theorem setRed_frPhase (s : State) (q : Nat) (e : RedEntry) : (setRed s q e).frPhase = s.frPhase := rfl
@[simp] theorem setRed_frHcnt (s : State) (q : Nat) (e : RedEntry) : (setRed s q e).frHcnt = s.frHcnt := rfl
@[simp] theorem setRed_frHdr (s : State) (q : Nat) (e : RedEntry) : (setRed s q e).frHdr = s.frHdr := rfl
@[simp] theorem setRed_frBi (s : State) (q : Nat) (e : RedEntry) : (setRed s q e).frBi = s.frBi := rfl
@[simp] theorem setRed_frPi (s : State) (q : Nat) (e : RedEntry) : (setRed s q e).frPi = s.frPi := rfl
@[simp] theorem setRed_frPs (s : State) (q : Nat) (e : RedEntry) : (setRed s q e).frPs = s.frPs := rfl
@[simp] theorem setRed_frSlot (s : State) (q : Nat) (e : RedEntry) : (setRed s q e).frSlot = s.frSlot := rfl
@[simp] theorem setRed_frPcnt (s : State) (q : Nat) (e : RedEntry) : (setRed s q e).frPcnt = s.frPcnt := rfl
@[simp] theorem setRed_subActive (s : State) (q : Nat) (e : RedEntry) : (setRed s q e).subActive = s.subActive := rfl
@[simp] theorem setRed_subBlk (s : State) (q : Nat) (e : RedEntry) : (setRed s q e).subBlk = s.subBlk := rfl
@[simp] theorem setRed_subLen (s : State) (q : Nat) (e : RedEntry) : (setRed s q e).subLen = s.subLen := rfl
@[simp] theorem setRed_subPos (s : State) (q : Nat) (e : RedEntry) : (setRed s q e).subPos = s.subPos := rfl
@[simp] theorem setRed_subData (s : State) (q : Nat) (e : RedEntry) : (setRed s q e).subData = s.subData := rfl
@[simp] theorem setRed_par (s : State) (q : Nat) (e : RedEntry) : (setRed s q e).par = s.par := rfl
@[simp] theorem setRed_sched (s : State) (q : Nat) (e : RedEntry) : (setRed s q e).sched = s.sched := rfl
@[simp] theorem setRed_tick (s : State) (q : Nat) (e : RedEntry) : (setRed s q e).tick = s.tick := rfl
@[simp] theorem setRed_bufEpoch (s : State) (q : Nat) (e : RedEntry) : (setRed s q e).bufEpoch = s.bufEpoch := rfl
@[simp] theorem setRed_outs (s : State) (q : Nat) (e : RedEntry) : (setRed s q e).outs = s.outs := rfl
@[simp] theorem setRed_verdicts (s : State) (q : Nat) (e : RedEntry) : (setRed s q e).verdicts = s.verdicts := rfl

/-! `memWrite` -/

@[simp] theorem memWrite_run (s : State) (x : Slot) (off : Nat) (bs : List Byte) : (memWrite s x off bs).run = s.run := rfl
@[simp] theorem memWrite_fatalCause (s : State) (x : Slot) (off : Nat) (bs : List Byte) : (memWrite s x off bs).fatalCause = s.fatalCause := rfl
@[simp] theorem memWrite_cfgK (s : State) (x : Slot) (off : Nat) (bs : List Byte) : (memWrite s x off bs).cfgK = s.cfgK := rfl
@[simp] theorem memWrite_cfgN (s : State) (x : Slot) (off : Nat) (bs : List Byte) : (memWrite s x off bs).cfgN = s.cfgN := rfl
@[simp] theorem memWrite_cfgMtu (s : State) (x : Slot) (off : Nat) (bs : List Byte) : (memWrite s x off bs).cfgMtu = s.cfgMtu := rfl
@[simp] theorem memWrite_qEff (s : State) (x : Slot) (off : Nat) (bs : List Byte) : (memWrite s x off bs).qEff = s.qEff := rfl
@[simp] theorem memWrite_cbi (s : State) (x : Slot) (off : Nat) (bs : List Byte) : (memWrite s x off bs).cbi = s.cbi := rfl
@[simp] theorem memWrite_data (s : State) (x : Slot) (off : Nat) (bs : List Byte) : (memWrite s x off bs).data = s.data := rfl
@[simp] theorem memWrite_red (s : State) (x : Slot) (off : Nat) (bs : List Byte) : (memWrite s x off bs).red = s.red := rfl
@[simp] theorem memWrite_next (s : State) (x : Slot) (off : Nat) (bs : List Byte) : (memWrite s x off bs).next = s.next := rfl
@[simp] theorem memWrite_limit (s : State) (x : Slot) (off : Nat) (bs : List Byte) : (memWrite s x off bs).limit = s.limit := rfl
@[simp] theorem memWrite_kind (s : State) (x : Slot) (off : Nat) (bs : List Byte) : (memWrite s x off bs).kind = s.kind := rfl
@[simp] theorem memWrite_decoded (s : State) (x : Slot) (off : Nat) (bs : List Byte) : (memWrite s x off bs).decoded = s.decoded := rfl
@[simp] theorem memWrite_wph (s : State) (x : Slot) (off : Nat) (bs : List Byte) : (memWrite s x off bs).wph = s.wph := rfl
@[simp] theorem memWrite_fifo (s : State) (x : Slot) (off : Nat) (bs : List Byte) : (memWrite s x off bs).fifo = s.fifo := rfl
@[simp] theorem memWrite_free (s : State) (x : Slot) (off : Nat) (bs : List Byte) : (memWrite s x off bs).free = s.free := rfl
@[simp] theorem memWrite_buf (s : State) (x : Slot) (off : Nat) (bs : List Byte) : (memWrite s x off bs).buf = Memory.setBytes s.buf (bufKey x off) bs := rfl
@[simp] theorem memWrite_frPhase (s : State) (x : Slot) (off : Nat) (bs : List Byte) : (memWrite s x off bs).frPhase = s.frPhase := rfl
@[simp] theorem memWrite_frHcnt (s : State) (x : Slot) (off : Nat) (bs : List Byte) : (memWrite s x off bs).frHcnt = s.frHcnt := rfl
@[simp] theorem memWrite_frHdr (s : State) (x : Slot) (off : Nat) (bs : List Byte) : (memWrite s x off bs).frHdr = s.frHdr := rfl
@[simp] theorem memWrite_frBi (s : State) (x : Slot) (off : Nat) (bs : List Byte) : (memWrite s x off bs).frBi = s.frBi := rfl
@[simp] theorem memWrite_frPi (s : State) (x : Slot) (off : Nat) (bs : List Byte) : (memWrite s x off bs).frPi = s.frPi := rfl
@[simp] theorem memWrite_frPs (s : State) (x : Slot) (off : Nat) (bs : List Byte) : (memWrite s x off bs).frPs = s.frPs := rfl
@[simp] theorem memWrite_frSlot (s : State) (x : Slot) (off : Nat) (bs : List Byte) : (memWrite s x off bs).frSlot = s.frSlot := rfl
@[simp] theorem memWrite_frPcnt (s : State) (x : Slot) (off : Nat) (bs : List Byte) : (memWrite s x off bs).frPcnt = s.frPcnt := rfl
@[simp] theorem memWrite_subActive (s : State) (x : Slot) (off : Nat) (bs : List Byte) : (memWrite s x off bs).subActive = s.subActive := rfl
@[simp] theorem memWrite_subBlk (s : State) (x : Slot) (off : Nat) (bs : List Byte) : (memWrite s x off bs).subBlk = s.subBlk := rfl
@[simp] theorem memWrite_subLen (s : State) (x : Slot) (off : Nat) (bs : List Byte) : (memWrite s x off bs).subLen = s.subLen := rfl
@[simp] theorem memWrite_subPos (s : State) (x : Slot) (off : Nat) (bs : List Byte) : (memWrite s x off bs).subPos = s.subPos := rfl
@[simp] theorem memWrite_subData (s : State) (x : Slot) (off : Nat) (bs : List Byte) : (memWrite s x off bs).subData = s.subData := rfl
@[simp] theorem memWrite_par (s : State) (x : Slot) (off : Nat) (bs : List Byte) : (memWrite s x off bs).par = s.par := rfl
@[simp] theorem memWrite_sched (s : State) (x : Slot) (off : Nat) (bs : List Byte) : (memWrite s x off bs).sched = s.sched := rfl
@[simp] theorem memWrite_tick (s : State) (x : Slot) (off : Nat) (bs : List Byte) : (memWrite s x off bs).tick = s.tick := rfl
@[simp] theorem memWrite_bufEpoch (s : State) (x : Slot) (off : Nat) (bs : List Byte) : (memWrite s x off bs).bufEpoch = s.bufEpoch := rfl
@[simp] theorem memWrite_outs (s : State) (x : Slot) (off : Nat) (bs : List Byte) : (memWrite s x off bs).outs = s.outs := rfl
@[simp] theorem memWrite_verdicts (s : State) (x : Slot) (off : Nat) (bs : List Byte) : (memWrite s x off bs).verdicts = s.verdicts := rfl

/-! `send` -/

@[simp] theorem send_run (s : State) (o : Output) : (send o s).run = s.run := rfl
@[simp] theorem send_fatalCause (s : State) (o : Output) : (send o s).fatalCause = s.fatalCause := rfl
@[simp] theorem send_cfgK (s : State) (o : Output) : (send o s).cfgK = s.cfgK := rfl
@[simp] theorem send_cfgN (s : State) (o : Output) : (send o s).cfgN = s.cfgN := rfl
@[simp] theorem send_cfgMtu (s : State) (o : Output) : (send o s).cfgMtu = s.cfgMtu := rfl
@[simp] theorem send_qEff (s : State) (o : Output) : (send o s).qEff = s.qEff := rfl
@[simp] theorem send_cbi (s : State) (o : Output) : (send o s).cbi = s.cbi := rfl
@[simp] theorem send_data (s : State) (o : Output) : (send o s).data = s.data := rfl
@[simp] theorem send_red (s : State) (o : Output) : (send o s).red = s.red := rfl
@[simp] theorem send_next (s : State) (o : Output) : (send o s).next = s.next := rfl
@[simp] theorem send_limit (s : State) (o : Output) : (send o s).limit = s.limit := rfl
@[simp] theorem send_kind (s : State) (o : Output) : (send o s).kind = s.kind := rfl
@[simp] theorem send_decoded (s : State) (o : Output) : (send o s).decoded = s.decoded := rfl
@[simp] theorem send_wph (s : State) (o : Output) : (send o s).wph = s.wph := rfl
@[simp] theorem send_fifo (s : State) (o : Output) : (send o s).fifo = s.fifo := rfl
@[simp] theorem send_free (s : State) (o : Output) : (send o s).free = s.free := rfl
@[simp] theorem send_buf (s : State) (o : Output) : (send o s).buf = s.buf := rfl
@[simp] theorem send_frPhase (s : State) (o : Output) : (send o s).frPhase = s.frPhase := rfl
@[simp] theorem send_frHcnt (s : State) (o : Output) : (send o s).frHcnt = s.frHcnt := rfl
@[simp] theorem send_frHdr (s : State) (o : Output) : (send o s).frHdr = s.frHdr := rfl
@[simp] theorem send_frBi (s : State) (o : Output) : (send o s).frBi = s.frBi := rfl
@[simp] theorem send_frPi (s : State) (o : Output) : (send o s).frPi = s.frPi := rfl
@[simp] theorem send_frPs (s : State) (o : Output) : (send o s).frPs = s.frPs := rfl
@[simp] theorem send_frSlot (s : State) (o : Output) : (send o s).frSlot = s.frSlot := rfl
@[simp] theorem send_frPcnt (s : State) (o : Output) : (send o s).frPcnt = s.frPcnt := rfl
@[simp] theorem send_subActive (s : State) (o : Output) : (send o s).subActive = s.subActive := rfl
@[simp] theorem send_subBlk (s : State) (o : Output) : (send o s).subBlk = s.subBlk := rfl
@[simp] theorem send_subLen (s : State) (o : Output) : (send o s).subLen = s.subLen := rfl
@[simp] theorem send_subPos (s : State) (o : Output) : (send o s).subPos = s.subPos := rfl
@[simp] theorem send_subData (s : State) (o : Output) : (send o s).subData = s.subData := rfl
@[simp] theorem send_par (s : State) (o : Output) : (send o s).par = s.par := rfl
@[simp] theorem send_sched (s : State) (o : Output) : (send o s).sched = s.sched := rfl
@[simp] theorem send_tick (s : State) (o : Output) : (send o s).tick = s.tick := rfl
@[simp] theorem send_bufEpoch (s : State) (o : Output) : (send o s).bufEpoch = s.bufEpoch := rfl
@[simp] theorem send_outs (s : State) (o : Output) : (send o s).outs = s.outs ++ [o] := rfl
@[simp] theorem send_verdicts (s : State) (o : Output) : (send o s).verdicts = s.verdicts := rfl

/-! `respondControl` -/

@[simp] theorem respondControl_run (s : State) (c : ResultCode) : (respondControl c s).run = s.run := rfl
@[simp] theorem respondControl_fatalCause (s : State) (c : ResultCode) : (respondControl c s).fatalCause = s.fatalCause := rfl
@[simp] theorem respondControl_cfgK (s : State) (c : ResultCode) : (respondControl c s).cfgK = s.cfgK := rfl
@[simp] theorem respondControl_cfgN (s : State) (c : ResultCode) : (respondControl c s).cfgN = s.cfgN := rfl
@[simp] theorem respondControl_cfgMtu (s : State) (c : ResultCode) : (respondControl c s).cfgMtu = s.cfgMtu := rfl
@[simp] theorem respondControl_qEff (s : State) (c : ResultCode) : (respondControl c s).qEff = s.qEff := rfl
@[simp] theorem respondControl_cbi (s : State) (c : ResultCode) : (respondControl c s).cbi = s.cbi := rfl
@[simp] theorem respondControl_data (s : State) (c : ResultCode) : (respondControl c s).data = s.data := rfl
@[simp] theorem respondControl_red (s : State) (c : ResultCode) : (respondControl c s).red = s.red := rfl
@[simp] theorem respondControl_next (s : State) (c : ResultCode) : (respondControl c s).next = s.next := rfl
@[simp] theorem respondControl_limit (s : State) (c : ResultCode) : (respondControl c s).limit = s.limit := rfl
@[simp] theorem respondControl_kind (s : State) (c : ResultCode) : (respondControl c s).kind = s.kind := rfl
@[simp] theorem respondControl_decoded (s : State) (c : ResultCode) : (respondControl c s).decoded = s.decoded := rfl
@[simp] theorem respondControl_wph (s : State) (c : ResultCode) : (respondControl c s).wph = s.wph := rfl
@[simp] theorem respondControl_fifo (s : State) (c : ResultCode) : (respondControl c s).fifo = s.fifo := rfl
@[simp] theorem respondControl_free (s : State) (c : ResultCode) : (respondControl c s).free = s.free := rfl
@[simp] theorem respondControl_buf (s : State) (c : ResultCode) : (respondControl c s).buf = s.buf := rfl
@[simp] theorem respondControl_frPhase (s : State) (c : ResultCode) : (respondControl c s).frPhase = s.frPhase := rfl
@[simp] theorem respondControl_frHcnt (s : State) (c : ResultCode) : (respondControl c s).frHcnt = s.frHcnt := rfl
@[simp] theorem respondControl_frHdr (s : State) (c : ResultCode) : (respondControl c s).frHdr = s.frHdr := rfl
@[simp] theorem respondControl_frBi (s : State) (c : ResultCode) : (respondControl c s).frBi = s.frBi := rfl
@[simp] theorem respondControl_frPi (s : State) (c : ResultCode) : (respondControl c s).frPi = s.frPi := rfl
@[simp] theorem respondControl_frPs (s : State) (c : ResultCode) : (respondControl c s).frPs = s.frPs := rfl
@[simp] theorem respondControl_frSlot (s : State) (c : ResultCode) : (respondControl c s).frSlot = s.frSlot := rfl
@[simp] theorem respondControl_frPcnt (s : State) (c : ResultCode) : (respondControl c s).frPcnt = s.frPcnt := rfl
@[simp] theorem respondControl_subActive (s : State) (c : ResultCode) : (respondControl c s).subActive = s.subActive := rfl
@[simp] theorem respondControl_subBlk (s : State) (c : ResultCode) : (respondControl c s).subBlk = s.subBlk := rfl
@[simp] theorem respondControl_subLen (s : State) (c : ResultCode) : (respondControl c s).subLen = s.subLen := rfl
@[simp] theorem respondControl_subPos (s : State) (c : ResultCode) : (respondControl c s).subPos = s.subPos := rfl
@[simp] theorem respondControl_subData (s : State) (c : ResultCode) : (respondControl c s).subData = s.subData := rfl
@[simp] theorem respondControl_par (s : State) (c : ResultCode) : (respondControl c s).par = s.par := rfl
@[simp] theorem respondControl_sched (s : State) (c : ResultCode) : (respondControl c s).sched = s.sched := rfl
@[simp] theorem respondControl_tick (s : State) (c : ResultCode) : (respondControl c s).tick = s.tick := rfl
@[simp] theorem respondControl_bufEpoch (s : State) (c : ResultCode) : (respondControl c s).bufEpoch = s.bufEpoch := rfl
@[simp] theorem respondControl_outs (s : State) (c : ResultCode) : (respondControl c s).outs = s.outs ++ [.ctrl (resp32 c 0#16)] := rfl
@[simp] theorem respondControl_verdicts (s : State) (c : ResultCode) : (respondControl c s).verdicts = s.verdicts := rfl

/-! `respondData` -/

@[simp] theorem respondData_run (s : State) (c : ResultCode) (n : BitVec 16) : (respondData c n s).run = s.run := rfl
@[simp] theorem respondData_fatalCause (s : State) (c : ResultCode) (n : BitVec 16) : (respondData c n s).fatalCause = s.fatalCause := rfl
@[simp] theorem respondData_cfgK (s : State) (c : ResultCode) (n : BitVec 16) : (respondData c n s).cfgK = s.cfgK := rfl
@[simp] theorem respondData_cfgN (s : State) (c : ResultCode) (n : BitVec 16) : (respondData c n s).cfgN = s.cfgN := rfl
@[simp] theorem respondData_cfgMtu (s : State) (c : ResultCode) (n : BitVec 16) : (respondData c n s).cfgMtu = s.cfgMtu := rfl
@[simp] theorem respondData_qEff (s : State) (c : ResultCode) (n : BitVec 16) : (respondData c n s).qEff = s.qEff := rfl
@[simp] theorem respondData_cbi (s : State) (c : ResultCode) (n : BitVec 16) : (respondData c n s).cbi = s.cbi := rfl
@[simp] theorem respondData_data (s : State) (c : ResultCode) (n : BitVec 16) : (respondData c n s).data = s.data := rfl
@[simp] theorem respondData_red (s : State) (c : ResultCode) (n : BitVec 16) : (respondData c n s).red = s.red := rfl
@[simp] theorem respondData_next (s : State) (c : ResultCode) (n : BitVec 16) : (respondData c n s).next = s.next := rfl
@[simp] theorem respondData_limit (s : State) (c : ResultCode) (n : BitVec 16) : (respondData c n s).limit = s.limit := rfl
@[simp] theorem respondData_kind (s : State) (c : ResultCode) (n : BitVec 16) : (respondData c n s).kind = s.kind := rfl
@[simp] theorem respondData_decoded (s : State) (c : ResultCode) (n : BitVec 16) : (respondData c n s).decoded = s.decoded := rfl
@[simp] theorem respondData_wph (s : State) (c : ResultCode) (n : BitVec 16) : (respondData c n s).wph = s.wph := rfl
@[simp] theorem respondData_fifo (s : State) (c : ResultCode) (n : BitVec 16) : (respondData c n s).fifo = s.fifo := rfl
@[simp] theorem respondData_free (s : State) (c : ResultCode) (n : BitVec 16) : (respondData c n s).free = s.free := rfl
@[simp] theorem respondData_buf (s : State) (c : ResultCode) (n : BitVec 16) : (respondData c n s).buf = s.buf := rfl
@[simp] theorem respondData_frPhase (s : State) (c : ResultCode) (n : BitVec 16) : (respondData c n s).frPhase = s.frPhase := rfl
@[simp] theorem respondData_frHcnt (s : State) (c : ResultCode) (n : BitVec 16) : (respondData c n s).frHcnt = s.frHcnt := rfl
@[simp] theorem respondData_frHdr (s : State) (c : ResultCode) (n : BitVec 16) : (respondData c n s).frHdr = s.frHdr := rfl
@[simp] theorem respondData_frBi (s : State) (c : ResultCode) (n : BitVec 16) : (respondData c n s).frBi = s.frBi := rfl
@[simp] theorem respondData_frPi (s : State) (c : ResultCode) (n : BitVec 16) : (respondData c n s).frPi = s.frPi := rfl
@[simp] theorem respondData_frPs (s : State) (c : ResultCode) (n : BitVec 16) : (respondData c n s).frPs = s.frPs := rfl
@[simp] theorem respondData_frSlot (s : State) (c : ResultCode) (n : BitVec 16) : (respondData c n s).frSlot = s.frSlot := rfl
@[simp] theorem respondData_frPcnt (s : State) (c : ResultCode) (n : BitVec 16) : (respondData c n s).frPcnt = s.frPcnt := rfl
@[simp] theorem respondData_subActive (s : State) (c : ResultCode) (n : BitVec 16) : (respondData c n s).subActive = s.subActive := rfl
@[simp] theorem respondData_subBlk (s : State) (c : ResultCode) (n : BitVec 16) : (respondData c n s).subBlk = s.subBlk := rfl
@[simp] theorem respondData_subLen (s : State) (c : ResultCode) (n : BitVec 16) : (respondData c n s).subLen = s.subLen := rfl
@[simp] theorem respondData_subPos (s : State) (c : ResultCode) (n : BitVec 16) : (respondData c n s).subPos = s.subPos := rfl
@[simp] theorem respondData_subData (s : State) (c : ResultCode) (n : BitVec 16) : (respondData c n s).subData = s.subData := rfl
@[simp] theorem respondData_par (s : State) (c : ResultCode) (n : BitVec 16) : (respondData c n s).par = s.par := rfl
@[simp] theorem respondData_sched (s : State) (c : ResultCode) (n : BitVec 16) : (respondData c n s).sched = s.sched := rfl
@[simp] theorem respondData_tick (s : State) (c : ResultCode) (n : BitVec 16) : (respondData c n s).tick = s.tick := rfl
@[simp] theorem respondData_bufEpoch (s : State) (c : ResultCode) (n : BitVec 16) : (respondData c n s).bufEpoch = s.bufEpoch := rfl
@[simp] theorem respondData_outs (s : State) (c : ResultCode) (n : BitVec 16) : (respondData c n s).outs = s.outs ++ [.data (resp32 c n)] := rfl
@[simp] theorem respondData_verdicts (s : State) (c : ResultCode) (n : BitVec 16) : (respondData c n s).verdicts = s.verdicts := rfl

/-! `completeSubmit` -/

@[simp] theorem completeSubmit_run (s : State) (c : ResultCode) (n : BitVec 16) : (completeSubmit c n s).run = s.run := rfl
@[simp] theorem completeSubmit_fatalCause (s : State) (c : ResultCode) (n : BitVec 16) : (completeSubmit c n s).fatalCause = s.fatalCause := rfl
@[simp] theorem completeSubmit_cfgK (s : State) (c : ResultCode) (n : BitVec 16) : (completeSubmit c n s).cfgK = s.cfgK := rfl
@[simp] theorem completeSubmit_cfgN (s : State) (c : ResultCode) (n : BitVec 16) : (completeSubmit c n s).cfgN = s.cfgN := rfl
@[simp] theorem completeSubmit_cfgMtu (s : State) (c : ResultCode) (n : BitVec 16) : (completeSubmit c n s).cfgMtu = s.cfgMtu := rfl
@[simp] theorem completeSubmit_qEff (s : State) (c : ResultCode) (n : BitVec 16) : (completeSubmit c n s).qEff = s.qEff := rfl
@[simp] theorem completeSubmit_cbi (s : State) (c : ResultCode) (n : BitVec 16) : (completeSubmit c n s).cbi = s.cbi := rfl
@[simp] theorem completeSubmit_data (s : State) (c : ResultCode) (n : BitVec 16) : (completeSubmit c n s).data = s.data := rfl
@[simp] theorem completeSubmit_red (s : State) (c : ResultCode) (n : BitVec 16) : (completeSubmit c n s).red = s.red := rfl
@[simp] theorem completeSubmit_next (s : State) (c : ResultCode) (n : BitVec 16) : (completeSubmit c n s).next = s.next := rfl
@[simp] theorem completeSubmit_limit (s : State) (c : ResultCode) (n : BitVec 16) : (completeSubmit c n s).limit = s.limit := rfl
@[simp] theorem completeSubmit_kind (s : State) (c : ResultCode) (n : BitVec 16) : (completeSubmit c n s).kind = s.kind := rfl
@[simp] theorem completeSubmit_decoded (s : State) (c : ResultCode) (n : BitVec 16) : (completeSubmit c n s).decoded = s.decoded := rfl
@[simp] theorem completeSubmit_wph (s : State) (c : ResultCode) (n : BitVec 16) : (completeSubmit c n s).wph = s.wph := rfl
@[simp] theorem completeSubmit_fifo (s : State) (c : ResultCode) (n : BitVec 16) : (completeSubmit c n s).fifo = s.fifo := rfl
@[simp] theorem completeSubmit_free (s : State) (c : ResultCode) (n : BitVec 16) : (completeSubmit c n s).free = s.free := rfl
@[simp] theorem completeSubmit_buf (s : State) (c : ResultCode) (n : BitVec 16) : (completeSubmit c n s).buf = s.buf := rfl
@[simp] theorem completeSubmit_frPhase (s : State) (c : ResultCode) (n : BitVec 16) : (completeSubmit c n s).frPhase = s.frPhase := rfl
@[simp] theorem completeSubmit_frHcnt (s : State) (c : ResultCode) (n : BitVec 16) : (completeSubmit c n s).frHcnt = s.frHcnt := rfl
@[simp] theorem completeSubmit_frHdr (s : State) (c : ResultCode) (n : BitVec 16) : (completeSubmit c n s).frHdr = s.frHdr := rfl
@[simp] theorem completeSubmit_frBi (s : State) (c : ResultCode) (n : BitVec 16) : (completeSubmit c n s).frBi = s.frBi := rfl
@[simp] theorem completeSubmit_frPi (s : State) (c : ResultCode) (n : BitVec 16) : (completeSubmit c n s).frPi = s.frPi := rfl
@[simp] theorem completeSubmit_frPs (s : State) (c : ResultCode) (n : BitVec 16) : (completeSubmit c n s).frPs = s.frPs := rfl
@[simp] theorem completeSubmit_frSlot (s : State) (c : ResultCode) (n : BitVec 16) : (completeSubmit c n s).frSlot = s.frSlot := rfl
@[simp] theorem completeSubmit_frPcnt (s : State) (c : ResultCode) (n : BitVec 16) : (completeSubmit c n s).frPcnt = s.frPcnt := rfl
@[simp] theorem completeSubmit_subActive (s : State) (c : ResultCode) (n : BitVec 16) : (completeSubmit c n s).subActive = false := rfl
@[simp] theorem completeSubmit_subBlk (s : State) (c : ResultCode) (n : BitVec 16) : (completeSubmit c n s).subBlk = s.subBlk := rfl
@[simp] theorem completeSubmit_subLen (s : State) (c : ResultCode) (n : BitVec 16) : (completeSubmit c n s).subLen = s.subLen := rfl
@[simp] theorem completeSubmit_subPos (s : State) (c : ResultCode) (n : BitVec 16) : (completeSubmit c n s).subPos = s.subPos := rfl
@[simp] theorem completeSubmit_subData (s : State) (c : ResultCode) (n : BitVec 16) : (completeSubmit c n s).subData = s.subData := rfl
@[simp] theorem completeSubmit_par (s : State) (c : ResultCode) (n : BitVec 16) : (completeSubmit c n s).par = s.par := rfl
@[simp] theorem completeSubmit_sched (s : State) (c : ResultCode) (n : BitVec 16) : (completeSubmit c n s).sched = s.sched := rfl
@[simp] theorem completeSubmit_tick (s : State) (c : ResultCode) (n : BitVec 16) : (completeSubmit c n s).tick = s.tick := rfl
@[simp] theorem completeSubmit_bufEpoch (s : State) (c : ResultCode) (n : BitVec 16) : (completeSubmit c n s).bufEpoch = s.bufEpoch := rfl
@[simp] theorem completeSubmit_outs (s : State) (c : ResultCode) (n : BitVec 16) : (completeSubmit c n s).outs = s.outs ++ [.data (resp32 c n)] := rfl
@[simp] theorem completeSubmit_verdicts (s : State) (c : ResultCode) (n : BitVec 16) : (completeSubmit c n s).verdicts = s.verdicts := rfl

/-! `label` -/

@[simp] theorem label_run (s : State) (v : Verdict) : (label v s).run = s.run := rfl
@[simp] theorem label_fatalCause (s : State) (v : Verdict) : (label v s).fatalCause = s.fatalCause := rfl
@[simp] theorem label_cfgK (s : State) (v : Verdict) : (label v s).cfgK = s.cfgK := rfl
@[simp] theorem label_cfgN (s : State) (v : Verdict) : (label v s).cfgN = s.cfgN := rfl
@[simp] theorem label_cfgMtu (s : State) (v : Verdict) : (label v s).cfgMtu = s.cfgMtu := rfl
@[simp] theorem label_qEff (s : State) (v : Verdict) : (label v s).qEff = s.qEff := rfl
@[simp] theorem label_cbi (s : State) (v : Verdict) : (label v s).cbi = s.cbi := rfl
@[simp] theorem label_data (s : State) (v : Verdict) : (label v s).data = s.data := rfl
@[simp] theorem label_red (s : State) (v : Verdict) : (label v s).red = s.red := rfl
@[simp] theorem label_next (s : State) (v : Verdict) : (label v s).next = s.next := rfl
@[simp] theorem label_limit (s : State) (v : Verdict) : (label v s).limit = s.limit := rfl
@[simp] theorem label_kind (s : State) (v : Verdict) : (label v s).kind = s.kind := rfl
@[simp] theorem label_decoded (s : State) (v : Verdict) : (label v s).decoded = s.decoded := rfl
@[simp] theorem label_wph (s : State) (v : Verdict) : (label v s).wph = s.wph := rfl
@[simp] theorem label_fifo (s : State) (v : Verdict) : (label v s).fifo = s.fifo := rfl
@[simp] theorem label_free (s : State) (v : Verdict) : (label v s).free = s.free := rfl
@[simp] theorem label_buf (s : State) (v : Verdict) : (label v s).buf = s.buf := rfl
@[simp] theorem label_frPhase (s : State) (v : Verdict) : (label v s).frPhase = s.frPhase := rfl
@[simp] theorem label_frHcnt (s : State) (v : Verdict) : (label v s).frHcnt = s.frHcnt := rfl
@[simp] theorem label_frHdr (s : State) (v : Verdict) : (label v s).frHdr = s.frHdr := rfl
@[simp] theorem label_frBi (s : State) (v : Verdict) : (label v s).frBi = s.frBi := rfl
@[simp] theorem label_frPi (s : State) (v : Verdict) : (label v s).frPi = s.frPi := rfl
@[simp] theorem label_frPs (s : State) (v : Verdict) : (label v s).frPs = s.frPs := rfl
@[simp] theorem label_frSlot (s : State) (v : Verdict) : (label v s).frSlot = s.frSlot := rfl
@[simp] theorem label_frPcnt (s : State) (v : Verdict) : (label v s).frPcnt = s.frPcnt := rfl
@[simp] theorem label_subActive (s : State) (v : Verdict) : (label v s).subActive = s.subActive := rfl
@[simp] theorem label_subBlk (s : State) (v : Verdict) : (label v s).subBlk = s.subBlk := rfl
@[simp] theorem label_subLen (s : State) (v : Verdict) : (label v s).subLen = s.subLen := rfl
@[simp] theorem label_subPos (s : State) (v : Verdict) : (label v s).subPos = s.subPos := rfl
@[simp] theorem label_subData (s : State) (v : Verdict) : (label v s).subData = s.subData := rfl
@[simp] theorem label_par (s : State) (v : Verdict) : (label v s).par = s.par := rfl
@[simp] theorem label_sched (s : State) (v : Verdict) : (label v s).sched = s.sched := rfl
@[simp] theorem label_tick (s : State) (v : Verdict) : (label v s).tick = s.tick := rfl
@[simp] theorem label_bufEpoch (s : State) (v : Verdict) : (label v s).bufEpoch = s.bufEpoch := rfl
@[simp] theorem label_outs (s : State) (v : Verdict) : (label v s).outs = s.outs := rfl
@[simp] theorem label_verdicts (s : State) (v : Verdict) : (label v s).verdicts = s.verdicts ++ [v] := rfl

/-! `framerReset` -/

@[simp] theorem framerReset_run (s : State) : (framerReset s).run = s.run := rfl
@[simp] theorem framerReset_fatalCause (s : State) : (framerReset s).fatalCause = s.fatalCause := rfl
@[simp] theorem framerReset_cfgK (s : State) : (framerReset s).cfgK = s.cfgK := rfl
@[simp] theorem framerReset_cfgN (s : State) : (framerReset s).cfgN = s.cfgN := rfl
@[simp] theorem framerReset_cfgMtu (s : State) : (framerReset s).cfgMtu = s.cfgMtu := rfl
@[simp] theorem framerReset_qEff (s : State) : (framerReset s).qEff = s.qEff := rfl
@[simp] theorem framerReset_cbi (s : State) : (framerReset s).cbi = s.cbi := rfl
@[simp] theorem framerReset_data (s : State) : (framerReset s).data = s.data := rfl
@[simp] theorem framerReset_red (s : State) : (framerReset s).red = s.red := rfl
@[simp] theorem framerReset_next (s : State) : (framerReset s).next = s.next := rfl
@[simp] theorem framerReset_limit (s : State) : (framerReset s).limit = s.limit := rfl
@[simp] theorem framerReset_kind (s : State) : (framerReset s).kind = s.kind := rfl
@[simp] theorem framerReset_decoded (s : State) : (framerReset s).decoded = s.decoded := rfl
@[simp] theorem framerReset_wph (s : State) : (framerReset s).wph = s.wph := rfl
@[simp] theorem framerReset_fifo (s : State) : (framerReset s).fifo = s.fifo := rfl
@[simp] theorem framerReset_free (s : State) : (framerReset s).free = s.free := rfl
@[simp] theorem framerReset_buf (s : State) : (framerReset s).buf = s.buf := rfl
@[simp] theorem framerReset_frPhase (s : State) : (framerReset s).frPhase = .hdr := rfl
@[simp] theorem framerReset_frHcnt (s : State) : (framerReset s).frHcnt = 0 := rfl
@[simp] theorem framerReset_frHdr (s : State) : (framerReset s).frHdr = s.frHdr := rfl
@[simp] theorem framerReset_frBi (s : State) : (framerReset s).frBi = s.frBi := rfl
@[simp] theorem framerReset_frPi (s : State) : (framerReset s).frPi = s.frPi := rfl
@[simp] theorem framerReset_frPs (s : State) : (framerReset s).frPs = s.frPs := rfl
@[simp] theorem framerReset_frSlot (s : State) : (framerReset s).frSlot = none := rfl
@[simp] theorem framerReset_frPcnt (s : State) : (framerReset s).frPcnt = 0#16 := rfl
@[simp] theorem framerReset_subActive (s : State) : (framerReset s).subActive = s.subActive := rfl
@[simp] theorem framerReset_subBlk (s : State) : (framerReset s).subBlk = s.subBlk := rfl
@[simp] theorem framerReset_subLen (s : State) : (framerReset s).subLen = s.subLen := rfl
@[simp] theorem framerReset_subPos (s : State) : (framerReset s).subPos = s.subPos := rfl
@[simp] theorem framerReset_subData (s : State) : (framerReset s).subData = s.subData := rfl
@[simp] theorem framerReset_par (s : State) : (framerReset s).par = s.par := rfl
@[simp] theorem framerReset_sched (s : State) : (framerReset s).sched = s.sched := rfl
@[simp] theorem framerReset_tick (s : State) : (framerReset s).tick = s.tick := rfl
@[simp] theorem framerReset_bufEpoch (s : State) : (framerReset s).bufEpoch = s.bufEpoch := rfl
@[simp] theorem framerReset_outs (s : State) : (framerReset s).outs = s.outs := rfl
@[simp] theorem framerReset_verdicts (s : State) : (framerReset s).verdicts = s.verdicts := rfl

/-! `clearSequencing` -/

@[simp] theorem clearSequencing_run (s : State) : (clearSequencing s).run = s.run := rfl
@[simp] theorem clearSequencing_fatalCause (s : State) : (clearSequencing s).fatalCause = s.fatalCause := rfl
@[simp] theorem clearSequencing_cfgK (s : State) : (clearSequencing s).cfgK = s.cfgK := rfl
@[simp] theorem clearSequencing_cfgN (s : State) : (clearSequencing s).cfgN = s.cfgN := rfl
@[simp] theorem clearSequencing_cfgMtu (s : State) : (clearSequencing s).cfgMtu = s.cfgMtu := rfl
@[simp] theorem clearSequencing_qEff (s : State) : (clearSequencing s).qEff = s.qEff := rfl
@[simp] theorem clearSequencing_cbi (s : State) : (clearSequencing s).cbi = s.cbi := rfl
@[simp] theorem clearSequencing_data (s : State) : (clearSequencing s).data = s.data := rfl
@[simp] theorem clearSequencing_red (s : State) : (clearSequencing s).red = s.red := rfl
@[simp] theorem clearSequencing_next (s : State) : (clearSequencing s).next = 0 := rfl
@[simp] theorem clearSequencing_limit (s : State) : (clearSequencing s).limit = 0 := rfl
@[simp] theorem clearSequencing_kind (s : State) : (clearSequencing s).kind = .none := rfl
@[simp] theorem clearSequencing_decoded (s : State) : (clearSequencing s).decoded = false := rfl
@[simp] theorem clearSequencing_wph (s : State) : (clearSequencing s).wph = s.wph := rfl
@[simp] theorem clearSequencing_fifo (s : State) : (clearSequencing s).fifo = s.fifo := rfl
@[simp] theorem clearSequencing_free (s : State) : (clearSequencing s).free = s.free := rfl
@[simp] theorem clearSequencing_buf (s : State) : (clearSequencing s).buf = s.buf := rfl
@[simp] theorem clearSequencing_frPhase (s : State) : (clearSequencing s).frPhase = s.frPhase := rfl
@[simp] theorem clearSequencing_frHcnt (s : State) : (clearSequencing s).frHcnt = s.frHcnt := rfl
@[simp] theorem clearSequencing_frHdr (s : State) : (clearSequencing s).frHdr = s.frHdr := rfl
@[simp] theorem clearSequencing_frBi (s : State) : (clearSequencing s).frBi = s.frBi := rfl
@[simp] theorem clearSequencing_frPi (s : State) : (clearSequencing s).frPi = s.frPi := rfl
@[simp] theorem clearSequencing_frPs (s : State) : (clearSequencing s).frPs = s.frPs := rfl
@[simp] theorem clearSequencing_frSlot (s : State) : (clearSequencing s).frSlot = s.frSlot := rfl
@[simp] theorem clearSequencing_frPcnt (s : State) : (clearSequencing s).frPcnt = s.frPcnt := rfl
@[simp] theorem clearSequencing_subActive (s : State) : (clearSequencing s).subActive = s.subActive := rfl
@[simp] theorem clearSequencing_subBlk (s : State) : (clearSequencing s).subBlk = s.subBlk := rfl
@[simp] theorem clearSequencing_subLen (s : State) : (clearSequencing s).subLen = s.subLen := rfl
@[simp] theorem clearSequencing_subPos (s : State) : (clearSequencing s).subPos = s.subPos := rfl
@[simp] theorem clearSequencing_subData (s : State) : (clearSequencing s).subData = s.subData := rfl
@[simp] theorem clearSequencing_par (s : State) : (clearSequencing s).par = s.par := rfl
@[simp] theorem clearSequencing_sched (s : State) : (clearSequencing s).sched = s.sched := rfl
@[simp] theorem clearSequencing_tick (s : State) : (clearSequencing s).tick = s.tick := rfl
@[simp] theorem clearSequencing_bufEpoch (s : State) : (clearSequencing s).bufEpoch = s.bufEpoch := rfl
@[simp] theorem clearSequencing_outs (s : State) : (clearSequencing s).outs = s.outs := rfl
@[simp] theorem clearSequencing_verdicts (s : State) : (clearSequencing s).verdicts = s.verdicts := rfl

/-! `clearCollections` -/

@[simp] theorem clearCollections_run (s : State) : (clearCollections s).run = s.run := rfl
@[simp] theorem clearCollections_fatalCause (s : State) : (clearCollections s).fatalCause = s.fatalCause := rfl
@[simp] theorem clearCollections_cfgK (s : State) : (clearCollections s).cfgK = s.cfgK := rfl
@[simp] theorem clearCollections_cfgN (s : State) : (clearCollections s).cfgN = s.cfgN := rfl
@[simp] theorem clearCollections_cfgMtu (s : State) : (clearCollections s).cfgMtu = s.cfgMtu := rfl
@[simp] theorem clearCollections_qEff (s : State) : (clearCollections s).qEff = s.qEff := rfl
@[simp] theorem clearCollections_cbi (s : State) : (clearCollections s).cbi = s.cbi := rfl
@[simp] theorem clearCollections_data (s : State) : (clearCollections s).data = s.data.map DataEntry.cleared := rfl
@[simp] theorem clearCollections_red (s : State) : (clearCollections s).red = s.red.map RedEntry.cleared := rfl
@[simp] theorem clearCollections_next (s : State) : (clearCollections s).next = s.next := rfl
@[simp] theorem clearCollections_limit (s : State) : (clearCollections s).limit = s.limit := rfl
@[simp] theorem clearCollections_kind (s : State) : (clearCollections s).kind = s.kind := rfl
@[simp] theorem clearCollections_decoded (s : State) : (clearCollections s).decoded = s.decoded := rfl
@[simp] theorem clearCollections_wph (s : State) : (clearCollections s).wph = s.wph := rfl
@[simp] theorem clearCollections_fifo (s : State) : (clearCollections s).fifo = s.fifo := rfl
@[simp] theorem clearCollections_free (s : State) : (clearCollections s).free = s.free := rfl
@[simp] theorem clearCollections_buf (s : State) : (clearCollections s).buf = s.buf := rfl
@[simp] theorem clearCollections_frPhase (s : State) : (clearCollections s).frPhase = s.frPhase := rfl
@[simp] theorem clearCollections_frHcnt (s : State) : (clearCollections s).frHcnt = s.frHcnt := rfl
@[simp] theorem clearCollections_frHdr (s : State) : (clearCollections s).frHdr = s.frHdr := rfl
@[simp] theorem clearCollections_frBi (s : State) : (clearCollections s).frBi = s.frBi := rfl
@[simp] theorem clearCollections_frPi (s : State) : (clearCollections s).frPi = s.frPi := rfl
@[simp] theorem clearCollections_frPs (s : State) : (clearCollections s).frPs = s.frPs := rfl
@[simp] theorem clearCollections_frSlot (s : State) : (clearCollections s).frSlot = s.frSlot := rfl
@[simp] theorem clearCollections_frPcnt (s : State) : (clearCollections s).frPcnt = s.frPcnt := rfl
@[simp] theorem clearCollections_subActive (s : State) : (clearCollections s).subActive = s.subActive := rfl
@[simp] theorem clearCollections_subBlk (s : State) : (clearCollections s).subBlk = s.subBlk := rfl
@[simp] theorem clearCollections_subLen (s : State) : (clearCollections s).subLen = s.subLen := rfl
@[simp] theorem clearCollections_subPos (s : State) : (clearCollections s).subPos = s.subPos := rfl
@[simp] theorem clearCollections_subData (s : State) : (clearCollections s).subData = s.subData := rfl
@[simp] theorem clearCollections_par (s : State) : (clearCollections s).par = s.par := rfl
@[simp] theorem clearCollections_sched (s : State) : (clearCollections s).sched = s.sched := rfl
@[simp] theorem clearCollections_tick (s : State) : (clearCollections s).tick = s.tick := rfl
@[simp] theorem clearCollections_bufEpoch (s : State) : (clearCollections s).bufEpoch = s.bufEpoch := rfl
@[simp] theorem clearCollections_outs (s : State) : (clearCollections s).outs = s.outs := rfl
@[simp] theorem clearCollections_verdicts (s : State) : (clearCollections s).verdicts = s.verdicts := rfl

/-! `clearBlock` -/

@[simp] theorem clearBlock_run (s : State) : (clearBlock s).run = s.run := rfl
@[simp] theorem clearBlock_fatalCause (s : State) : (clearBlock s).fatalCause = s.fatalCause := rfl
@[simp] theorem clearBlock_cfgK (s : State) : (clearBlock s).cfgK = s.cfgK := rfl
@[simp] theorem clearBlock_cfgN (s : State) : (clearBlock s).cfgN = s.cfgN := rfl
@[simp] theorem clearBlock_cfgMtu (s : State) : (clearBlock s).cfgMtu = s.cfgMtu := rfl
@[simp] theorem clearBlock_qEff (s : State) : (clearBlock s).qEff = s.qEff := rfl
@[simp] theorem clearBlock_cbi (s : State) : (clearBlock s).cbi = s.cbi := rfl
@[simp] theorem clearBlock_data (s : State) : (clearBlock s).data = blockData s := rfl
@[simp] theorem clearBlock_red (s : State) : (clearBlock s).red = blockRed s := rfl
@[simp] theorem clearBlock_next (s : State) : (clearBlock s).next = 0 := rfl
@[simp] theorem clearBlock_limit (s : State) : (clearBlock s).limit = 0 := rfl
@[simp] theorem clearBlock_kind (s : State) : (clearBlock s).kind = .none := rfl
@[simp] theorem clearBlock_decoded (s : State) : (clearBlock s).decoded = false := rfl
@[simp] theorem clearBlock_wph (s : State) : (clearBlock s).wph = s.wph := rfl
@[simp] theorem clearBlock_fifo (s : State) : (clearBlock s).fifo = s.fifo := rfl
@[simp] theorem clearBlock_free (s : State) : (clearBlock s).free = s.free := rfl
@[simp] theorem clearBlock_buf (s : State) : (clearBlock s).buf = s.buf := rfl
@[simp] theorem clearBlock_frPhase (s : State) : (clearBlock s).frPhase = s.frPhase := rfl
@[simp] theorem clearBlock_frHcnt (s : State) : (clearBlock s).frHcnt = s.frHcnt := rfl
@[simp] theorem clearBlock_frHdr (s : State) : (clearBlock s).frHdr = s.frHdr := rfl
@[simp] theorem clearBlock_frBi (s : State) : (clearBlock s).frBi = s.frBi := rfl
@[simp] theorem clearBlock_frPi (s : State) : (clearBlock s).frPi = s.frPi := rfl
@[simp] theorem clearBlock_frPs (s : State) : (clearBlock s).frPs = s.frPs := rfl
@[simp] theorem clearBlock_frSlot (s : State) : (clearBlock s).frSlot = s.frSlot := rfl
@[simp] theorem clearBlock_frPcnt (s : State) : (clearBlock s).frPcnt = s.frPcnt := rfl
@[simp] theorem clearBlock_subActive (s : State) : (clearBlock s).subActive = s.subActive := rfl
@[simp] theorem clearBlock_subBlk (s : State) : (clearBlock s).subBlk = s.subBlk := rfl
@[simp] theorem clearBlock_subLen (s : State) : (clearBlock s).subLen = s.subLen := rfl
@[simp] theorem clearBlock_subPos (s : State) : (clearBlock s).subPos = s.subPos := rfl
@[simp] theorem clearBlock_subData (s : State) : (clearBlock s).subData = s.subData := rfl
@[simp] theorem clearBlock_par (s : State) : (clearBlock s).par = s.par := rfl
@[simp] theorem clearBlock_sched (s : State) : (clearBlock s).sched = s.sched := rfl
@[simp] theorem clearBlock_tick (s : State) : (clearBlock s).tick = s.tick := rfl
@[simp] theorem clearBlock_bufEpoch (s : State) : (clearBlock s).bufEpoch = s.bufEpoch := rfl
@[simp] theorem clearBlock_outs (s : State) : (clearBlock s).outs = s.outs := rfl
@[simp] theorem clearBlock_verdicts (s : State) : (clearBlock s).verdicts = s.verdicts := rfl

/-! `teardown` -/

@[simp] theorem teardown_run (s : State) : (teardown s).run = .stopped := rfl
@[simp] theorem teardown_fatalCause (s : State) : (teardown s).fatalCause = none := rfl
@[simp] theorem teardown_cfgK (s : State) : (teardown s).cfgK = s.cfgK := rfl
@[simp] theorem teardown_cfgN (s : State) : (teardown s).cfgN = s.cfgN := rfl
@[simp] theorem teardown_cfgMtu (s : State) : (teardown s).cfgMtu = s.cfgMtu := rfl
@[simp] theorem teardown_qEff (s : State) : (teardown s).qEff = s.qEff := rfl
@[simp] theorem teardown_cbi (s : State) : (teardown s).cbi = s.cbi := rfl
@[simp] theorem teardown_data (s : State) : (teardown s).data = s.data.map DataEntry.cleared := rfl
@[simp] theorem teardown_red (s : State) : (teardown s).red = s.red.map RedEntry.cleared := rfl
@[simp] theorem teardown_next (s : State) : (teardown s).next = 0 := rfl
@[simp] theorem teardown_limit (s : State) : (teardown s).limit = 0 := rfl
@[simp] theorem teardown_kind (s : State) : (teardown s).kind = .none := rfl
@[simp] theorem teardown_decoded (s : State) : (teardown s).decoded = false := rfl
@[simp] theorem teardown_wph (s : State) : (teardown s).wph = .idle := rfl
@[simp] theorem teardown_fifo (s : State) : (teardown s).fifo = [] := rfl
@[simp] theorem teardown_free (s : State) : (teardown s).free = poolSlots s.cfgN.val := rfl
@[simp] theorem teardown_buf (s : State) : (teardown s).buf = s.buf := rfl
@[simp] theorem teardown_frPhase (s : State) : (teardown s).frPhase = .hdr := rfl
@[simp] theorem teardown_frHcnt (s : State) : (teardown s).frHcnt = 0 := rfl
@[simp] theorem teardown_frHdr (s : State) : (teardown s).frHdr = s.frHdr := rfl
@[simp] theorem teardown_frBi (s : State) : (teardown s).frBi = s.frBi := rfl
@[simp] theorem teardown_frPi (s : State) : (teardown s).frPi = s.frPi := rfl
@[simp] theorem teardown_frPs (s : State) : (teardown s).frPs = s.frPs := rfl
@[simp] theorem teardown_frSlot (s : State) : (teardown s).frSlot = none := rfl
@[simp] theorem teardown_frPcnt (s : State) : (teardown s).frPcnt = 0#16 := rfl
@[simp] theorem teardown_subActive (s : State) : (teardown s).subActive = s.subActive := rfl
@[simp] theorem teardown_subBlk (s : State) : (teardown s).subBlk = s.subBlk := rfl
@[simp] theorem teardown_subLen (s : State) : (teardown s).subLen = s.subLen := rfl
@[simp] theorem teardown_subPos (s : State) : (teardown s).subPos = s.subPos := rfl
@[simp] theorem teardown_subData (s : State) : (teardown s).subData = s.subData := rfl
@[simp] theorem teardown_par (s : State) : (teardown s).par = s.par := rfl
@[simp] theorem teardown_sched (s : State) : (teardown s).sched = s.sched := rfl
@[simp] theorem teardown_tick (s : State) : (teardown s).tick = s.tick := rfl
@[simp] theorem teardown_bufEpoch (s : State) : (teardown s).bufEpoch = s.bufEpoch := rfl
@[simp] theorem teardown_outs (s : State) : (teardown s).outs = s.outs := rfl
@[simp] theorem teardown_verdicts (s : State) : (teardown s).verdicts = s.verdicts := rfl

/-! `afterInsert` -/

@[simp] theorem afterInsert_run (s : State) : (afterInsert s).run = s.run := rfl
@[simp] theorem afterInsert_fatalCause (s : State) : (afterInsert s).fatalCause = s.fatalCause := rfl
@[simp] theorem afterInsert_cfgK (s : State) : (afterInsert s).cfgK = s.cfgK := rfl
@[simp] theorem afterInsert_cfgN (s : State) : (afterInsert s).cfgN = s.cfgN := rfl
@[simp] theorem afterInsert_cfgMtu (s : State) : (afterInsert s).cfgMtu = s.cfgMtu := rfl
@[simp] theorem afterInsert_qEff (s : State) : (afterInsert s).qEff = s.qEff := rfl
@[simp] theorem afterInsert_cbi (s : State) : (afterInsert s).cbi = s.cbi := rfl
@[simp] theorem afterInsert_data (s : State) : (afterInsert s).data = s.data := rfl
@[simp] theorem afterInsert_red (s : State) : (afterInsert s).red = s.red := rfl
@[simp] theorem afterInsert_next (s : State) : (afterInsert s).next = s.next := rfl
@[simp] theorem afterInsert_limit (s : State) : (afterInsert s).limit = Fin.ofNat 32 (firstGap s) := rfl
@[simp] theorem afterInsert_kind (s : State) : (afterInsert s).kind = kindOf s.cfgK.val (dataCount s) (redCount s) := rfl
@[simp] theorem afterInsert_decoded (s : State) : (afterInsert s).decoded = s.decoded := rfl
@[simp] theorem afterInsert_wph (s : State) : (afterInsert s).wph = .emit := rfl
@[simp] theorem afterInsert_fifo (s : State) : (afterInsert s).fifo = s.fifo := rfl
@[simp] theorem afterInsert_free (s : State) : (afterInsert s).free = s.free := rfl
@[simp] theorem afterInsert_buf (s : State) : (afterInsert s).buf = s.buf := rfl
@[simp] theorem afterInsert_frPhase (s : State) : (afterInsert s).frPhase = s.frPhase := rfl
@[simp] theorem afterInsert_frHcnt (s : State) : (afterInsert s).frHcnt = s.frHcnt := rfl
@[simp] theorem afterInsert_frHdr (s : State) : (afterInsert s).frHdr = s.frHdr := rfl
@[simp] theorem afterInsert_frBi (s : State) : (afterInsert s).frBi = s.frBi := rfl
@[simp] theorem afterInsert_frPi (s : State) : (afterInsert s).frPi = s.frPi := rfl
@[simp] theorem afterInsert_frPs (s : State) : (afterInsert s).frPs = s.frPs := rfl
@[simp] theorem afterInsert_frSlot (s : State) : (afterInsert s).frSlot = s.frSlot := rfl
@[simp] theorem afterInsert_frPcnt (s : State) : (afterInsert s).frPcnt = s.frPcnt := rfl
@[simp] theorem afterInsert_subActive (s : State) : (afterInsert s).subActive = s.subActive := rfl
@[simp] theorem afterInsert_subBlk (s : State) : (afterInsert s).subBlk = s.subBlk := rfl
@[simp] theorem afterInsert_subLen (s : State) : (afterInsert s).subLen = s.subLen := rfl
@[simp] theorem afterInsert_subPos (s : State) : (afterInsert s).subPos = s.subPos := rfl
@[simp] theorem afterInsert_subData (s : State) : (afterInsert s).subData = s.subData := rfl
@[simp] theorem afterInsert_par (s : State) : (afterInsert s).par = s.par := rfl
@[simp] theorem afterInsert_sched (s : State) : (afterInsert s).sched = s.sched := rfl
@[simp] theorem afterInsert_tick (s : State) : (afterInsert s).tick = s.tick := rfl
@[simp] theorem afterInsert_bufEpoch (s : State) : (afterInsert s).bufEpoch = s.bufEpoch := rfl
@[simp] theorem afterInsert_outs (s : State) : (afterInsert s).outs = s.outs := rfl
@[simp] theorem afterInsert_verdicts (s : State) : (afterInsert s).verdicts = s.verdicts := rfl

/-! `insertData` -/

@[simp] theorem insertData_run (s : State) (d : Desc) : (insertData d s).run = s.run := rfl
@[simp] theorem insertData_fatalCause (s : State) (d : Desc) : (insertData d s).fatalCause = s.fatalCause := rfl
@[simp] theorem insertData_cfgK (s : State) (d : Desc) : (insertData d s).cfgK = s.cfgK := rfl
@[simp] theorem insertData_cfgN (s : State) (d : Desc) : (insertData d s).cfgN = s.cfgN := rfl
@[simp] theorem insertData_cfgMtu (s : State) (d : Desc) : (insertData d s).cfgMtu = s.cfgMtu := rfl
@[simp] theorem insertData_qEff (s : State) (d : Desc) : (insertData d s).qEff = s.qEff := rfl
@[simp] theorem insertData_cbi (s : State) (d : Desc) : (insertData d s).cbi = s.cbi := rfl
@[simp] theorem insertData_data (s : State) (d : Desc) : (insertData d s).data = s.data.setIfInBounds d.hdr.pi.toNat ⟨true, d.slot, d.hdr.ps, false, false⟩ := rfl
@[simp] theorem insertData_red (s : State) (d : Desc) : (insertData d s).red = s.red := rfl
@[simp] theorem insertData_next (s : State) (d : Desc) : (insertData d s).next = s.next := rfl
@[simp] theorem insertData_limit (s : State) (d : Desc) : (insertData d s).limit = s.limit := rfl
@[simp] theorem insertData_kind (s : State) (d : Desc) : (insertData d s).kind = s.kind := rfl
@[simp] theorem insertData_decoded (s : State) (d : Desc) : (insertData d s).decoded = s.decoded := rfl
@[simp] theorem insertData_wph (s : State) (d : Desc) : (insertData d s).wph = s.wph := rfl
@[simp] theorem insertData_fifo (s : State) (d : Desc) : (insertData d s).fifo = s.fifo := rfl
@[simp] theorem insertData_free (s : State) (d : Desc) : (insertData d s).free = s.free := rfl
@[simp] theorem insertData_buf (s : State) (d : Desc) : (insertData d s).buf = s.buf := rfl
@[simp] theorem insertData_frPhase (s : State) (d : Desc) : (insertData d s).frPhase = s.frPhase := rfl
@[simp] theorem insertData_frHcnt (s : State) (d : Desc) : (insertData d s).frHcnt = s.frHcnt := rfl
@[simp] theorem insertData_frHdr (s : State) (d : Desc) : (insertData d s).frHdr = s.frHdr := rfl
@[simp] theorem insertData_frBi (s : State) (d : Desc) : (insertData d s).frBi = s.frBi := rfl
@[simp] theorem insertData_frPi (s : State) (d : Desc) : (insertData d s).frPi = s.frPi := rfl
@[simp] theorem insertData_frPs (s : State) (d : Desc) : (insertData d s).frPs = s.frPs := rfl
@[simp] theorem insertData_frSlot (s : State) (d : Desc) : (insertData d s).frSlot = s.frSlot := rfl
@[simp] theorem insertData_frPcnt (s : State) (d : Desc) : (insertData d s).frPcnt = s.frPcnt := rfl
@[simp] theorem insertData_subActive (s : State) (d : Desc) : (insertData d s).subActive = s.subActive := rfl
@[simp] theorem insertData_subBlk (s : State) (d : Desc) : (insertData d s).subBlk = s.subBlk := rfl
@[simp] theorem insertData_subLen (s : State) (d : Desc) : (insertData d s).subLen = s.subLen := rfl
@[simp] theorem insertData_subPos (s : State) (d : Desc) : (insertData d s).subPos = s.subPos := rfl
@[simp] theorem insertData_subData (s : State) (d : Desc) : (insertData d s).subData = s.subData := rfl
@[simp] theorem insertData_par (s : State) (d : Desc) : (insertData d s).par = s.par := rfl
@[simp] theorem insertData_sched (s : State) (d : Desc) : (insertData d s).sched = s.sched := rfl
@[simp] theorem insertData_tick (s : State) (d : Desc) : (insertData d s).tick = s.tick := rfl
@[simp] theorem insertData_bufEpoch (s : State) (d : Desc) : (insertData d s).bufEpoch = s.bufEpoch := rfl
@[simp] theorem insertData_outs (s : State) (d : Desc) : (insertData d s).outs = s.outs := rfl
@[simp] theorem insertData_verdicts (s : State) (d : Desc) : (insertData d s).verdicts = s.verdicts ++ [.inserted] := rfl

/-! `insertRed` -/

@[simp] theorem insertRed_run (s : State) (d : Desc) : (insertRed d s).run = s.run := rfl
@[simp] theorem insertRed_fatalCause (s : State) (d : Desc) : (insertRed d s).fatalCause = s.fatalCause := rfl
@[simp] theorem insertRed_cfgK (s : State) (d : Desc) : (insertRed d s).cfgK = s.cfgK := rfl
@[simp] theorem insertRed_cfgN (s : State) (d : Desc) : (insertRed d s).cfgN = s.cfgN := rfl
@[simp] theorem insertRed_cfgMtu (s : State) (d : Desc) : (insertRed d s).cfgMtu = s.cfgMtu := rfl
@[simp] theorem insertRed_qEff (s : State) (d : Desc) : (insertRed d s).qEff = s.qEff := rfl
@[simp] theorem insertRed_cbi (s : State) (d : Desc) : (insertRed d s).cbi = s.cbi := rfl
@[simp] theorem insertRed_data (s : State) (d : Desc) : (insertRed d s).data = s.data := rfl
@[simp] theorem insertRed_red (s : State) (d : Desc) : (insertRed d s).red = s.red.setIfInBounds d.hdr.pi.toNat ⟨true, d.slot⟩ := rfl
@[simp] theorem insertRed_next (s : State) (d : Desc) : (insertRed d s).next = s.next := rfl
@[simp] theorem insertRed_limit (s : State) (d : Desc) : (insertRed d s).limit = s.limit := rfl
@[simp] theorem insertRed_kind (s : State) (d : Desc) : (insertRed d s).kind = s.kind := rfl
@[simp] theorem insertRed_decoded (s : State) (d : Desc) : (insertRed d s).decoded = s.decoded := rfl
@[simp] theorem insertRed_wph (s : State) (d : Desc) : (insertRed d s).wph = s.wph := rfl
@[simp] theorem insertRed_fifo (s : State) (d : Desc) : (insertRed d s).fifo = s.fifo := rfl
@[simp] theorem insertRed_free (s : State) (d : Desc) : (insertRed d s).free = s.free := rfl
@[simp] theorem insertRed_buf (s : State) (d : Desc) : (insertRed d s).buf = s.buf := rfl
@[simp] theorem insertRed_frPhase (s : State) (d : Desc) : (insertRed d s).frPhase = s.frPhase := rfl
@[simp] theorem insertRed_frHcnt (s : State) (d : Desc) : (insertRed d s).frHcnt = s.frHcnt := rfl
@[simp] theorem insertRed_frHdr (s : State) (d : Desc) : (insertRed d s).frHdr = s.frHdr := rfl
@[simp] theorem insertRed_frBi (s : State) (d : Desc) : (insertRed d s).frBi = s.frBi := rfl
@[simp] theorem insertRed_frPi (s : State) (d : Desc) : (insertRed d s).frPi = s.frPi := rfl
@[simp] theorem insertRed_frPs (s : State) (d : Desc) : (insertRed d s).frPs = s.frPs := rfl
@[simp] theorem insertRed_frSlot (s : State) (d : Desc) : (insertRed d s).frSlot = s.frSlot := rfl
@[simp] theorem insertRed_frPcnt (s : State) (d : Desc) : (insertRed d s).frPcnt = s.frPcnt := rfl
@[simp] theorem insertRed_subActive (s : State) (d : Desc) : (insertRed d s).subActive = s.subActive := rfl
@[simp] theorem insertRed_subBlk (s : State) (d : Desc) : (insertRed d s).subBlk = s.subBlk := rfl
@[simp] theorem insertRed_subLen (s : State) (d : Desc) : (insertRed d s).subLen = s.subLen := rfl
@[simp] theorem insertRed_subPos (s : State) (d : Desc) : (insertRed d s).subPos = s.subPos := rfl
@[simp] theorem insertRed_subData (s : State) (d : Desc) : (insertRed d s).subData = s.subData := rfl
@[simp] theorem insertRed_par (s : State) (d : Desc) : (insertRed d s).par = s.par := rfl
@[simp] theorem insertRed_sched (s : State) (d : Desc) : (insertRed d s).sched = s.sched := rfl
@[simp] theorem insertRed_tick (s : State) (d : Desc) : (insertRed d s).tick = s.tick := rfl
@[simp] theorem insertRed_bufEpoch (s : State) (d : Desc) : (insertRed d s).bufEpoch = s.bufEpoch := rfl
@[simp] theorem insertRed_outs (s : State) (d : Desc) : (insertRed d s).outs = s.outs := rfl
@[simp] theorem insertRed_verdicts (s : State) (d : Desc) : (insertRed d s).verdicts = s.verdicts ++ [.inserted] := rfl

/-! `markDispatched` -/

@[simp] theorem markDispatched_run (s : State) : (markDispatched s).run = s.run := rfl
@[simp] theorem markDispatched_fatalCause (s : State) : (markDispatched s).fatalCause = s.fatalCause := rfl
@[simp] theorem markDispatched_cfgK (s : State) : (markDispatched s).cfgK = s.cfgK := rfl
@[simp] theorem markDispatched_cfgN (s : State) : (markDispatched s).cfgN = s.cfgN := rfl
@[simp] theorem markDispatched_cfgMtu (s : State) : (markDispatched s).cfgMtu = s.cfgMtu := rfl
@[simp] theorem markDispatched_qEff (s : State) : (markDispatched s).qEff = s.qEff := rfl
@[simp] theorem markDispatched_cbi (s : State) : (markDispatched s).cbi = s.cbi := rfl
@[simp] theorem markDispatched_data (s : State) : (markDispatched s).data = s.data.setIfInBounds s.next.val { dataAt s s.next.val with disp := true } := rfl
@[simp] theorem markDispatched_red (s : State) : (markDispatched s).red = s.red := rfl
@[simp] theorem markDispatched_next (s : State) : (markDispatched s).next = s.next + 1 := rfl
@[simp] theorem markDispatched_limit (s : State) : (markDispatched s).limit = s.limit := rfl
@[simp] theorem markDispatched_kind (s : State) : (markDispatched s).kind = s.kind := rfl
@[simp] theorem markDispatched_decoded (s : State) : (markDispatched s).decoded = s.decoded := rfl
@[simp] theorem markDispatched_wph (s : State) : (markDispatched s).wph = s.wph := rfl
@[simp] theorem markDispatched_fifo (s : State) : (markDispatched s).fifo = s.fifo := rfl
@[simp] theorem markDispatched_free (s : State) : (markDispatched s).free = s.free := rfl
@[simp] theorem markDispatched_buf (s : State) : (markDispatched s).buf = s.buf := rfl
@[simp] theorem markDispatched_frPhase (s : State) : (markDispatched s).frPhase = s.frPhase := rfl
@[simp] theorem markDispatched_frHcnt (s : State) : (markDispatched s).frHcnt = s.frHcnt := rfl
@[simp] theorem markDispatched_frHdr (s : State) : (markDispatched s).frHdr = s.frHdr := rfl
@[simp] theorem markDispatched_frBi (s : State) : (markDispatched s).frBi = s.frBi := rfl
@[simp] theorem markDispatched_frPi (s : State) : (markDispatched s).frPi = s.frPi := rfl
@[simp] theorem markDispatched_frPs (s : State) : (markDispatched s).frPs = s.frPs := rfl
@[simp] theorem markDispatched_frSlot (s : State) : (markDispatched s).frSlot = s.frSlot := rfl
@[simp] theorem markDispatched_frPcnt (s : State) : (markDispatched s).frPcnt = s.frPcnt := rfl
@[simp] theorem markDispatched_subActive (s : State) : (markDispatched s).subActive = s.subActive := rfl
@[simp] theorem markDispatched_subBlk (s : State) : (markDispatched s).subBlk = s.subBlk := rfl
@[simp] theorem markDispatched_subLen (s : State) : (markDispatched s).subLen = s.subLen := rfl
@[simp] theorem markDispatched_subPos (s : State) : (markDispatched s).subPos = s.subPos := rfl
@[simp] theorem markDispatched_subData (s : State) : (markDispatched s).subData = s.subData := rfl
@[simp] theorem markDispatched_par (s : State) : (markDispatched s).par = s.par := rfl
@[simp] theorem markDispatched_sched (s : State) : (markDispatched s).sched = s.sched := rfl
@[simp] theorem markDispatched_tick (s : State) : (markDispatched s).tick = s.tick := rfl
@[simp] theorem markDispatched_bufEpoch (s : State) : (markDispatched s).bufEpoch = s.bufEpoch := rfl
@[simp] theorem markDispatched_outs (s : State) : (markDispatched s).outs = s.outs := rfl
@[simp] theorem markDispatched_verdicts (s : State) : (markDispatched s).verdicts = s.verdicts := rfl

/-! `startBlock` -/

@[simp] theorem startBlock_run (s : State) (k n : Nat) (mtu : BitVec 16) : (startBlock k n mtu s).run = .running := rfl
@[simp] theorem startBlock_fatalCause (s : State) (k n : Nat) (mtu : BitVec 16) : (startBlock k n mtu s).fatalCause = none := rfl
@[simp] theorem startBlock_cfgK (s : State) (k n : Nat) (mtu : BitVec 16) : (startBlock k n mtu s).cfgK = Fin.ofNat 32 k := rfl
@[simp] theorem startBlock_cfgN (s : State) (k n : Nat) (mtu : BitVec 16) : (startBlock k n mtu s).cfgN = Fin.ofNat 33 n := rfl
@[simp] theorem startBlock_cfgMtu (s : State) (k n : Nat) (mtu : BitVec 16) : (startBlock k n mtu s).cfgMtu = mtu := rfl
@[simp] theorem startBlock_qEff (s : State) (k n : Nat) (mtu : BitVec 16) : (startBlock k n mtu s).qEff = Fin.ofNat 64 (qEffOf s.par.fifoDepth k n) := rfl
@[simp] theorem startBlock_cbi (s : State) (k n : Nat) (mtu : BitVec 16) : (startBlock k n mtu s).cbi = 0#24 := rfl
@[simp] theorem startBlock_data (s : State) (k n : Nat) (mtu : BitVec 16) : (startBlock k n mtu s).data = s.data.map DataEntry.cleared := rfl
@[simp] theorem startBlock_red (s : State) (k n : Nat) (mtu : BitVec 16) : (startBlock k n mtu s).red = s.red.map RedEntry.cleared := rfl
@[simp] theorem startBlock_next (s : State) (k n : Nat) (mtu : BitVec 16) : (startBlock k n mtu s).next = 0 := rfl
@[simp] theorem startBlock_limit (s : State) (k n : Nat) (mtu : BitVec 16) : (startBlock k n mtu s).limit = 0 := rfl
@[simp] theorem startBlock_kind (s : State) (k n : Nat) (mtu : BitVec 16) : (startBlock k n mtu s).kind = .none := rfl
@[simp] theorem startBlock_decoded (s : State) (k n : Nat) (mtu : BitVec 16) : (startBlock k n mtu s).decoded = false := rfl
@[simp] theorem startBlock_wph (s : State) (k n : Nat) (mtu : BitVec 16) : (startBlock k n mtu s).wph = .idle := rfl
@[simp] theorem startBlock_fifo (s : State) (k n : Nat) (mtu : BitVec 16) : (startBlock k n mtu s).fifo = [] := rfl
@[simp] theorem startBlock_free (s : State) (k n : Nat) (mtu : BitVec 16) : (startBlock k n mtu s).free = poolSlots n := rfl
@[simp] theorem startBlock_buf (s : State) (k n : Nat) (mtu : BitVec 16) : (startBlock k n mtu s).buf = s.buf := rfl
@[simp] theorem startBlock_frPhase (s : State) (k n : Nat) (mtu : BitVec 16) : (startBlock k n mtu s).frPhase = .hdr := rfl
@[simp] theorem startBlock_frHcnt (s : State) (k n : Nat) (mtu : BitVec 16) : (startBlock k n mtu s).frHcnt = 0 := rfl
@[simp] theorem startBlock_frHdr (s : State) (k n : Nat) (mtu : BitVec 16) : (startBlock k n mtu s).frHdr = s.frHdr := rfl
@[simp] theorem startBlock_frBi (s : State) (k n : Nat) (mtu : BitVec 16) : (startBlock k n mtu s).frBi = s.frBi := rfl
@[simp] theorem startBlock_frPi (s : State) (k n : Nat) (mtu : BitVec 16) : (startBlock k n mtu s).frPi = s.frPi := rfl
@[simp] theorem startBlock_frPs (s : State) (k n : Nat) (mtu : BitVec 16) : (startBlock k n mtu s).frPs = s.frPs := rfl
@[simp] theorem startBlock_frSlot (s : State) (k n : Nat) (mtu : BitVec 16) : (startBlock k n mtu s).frSlot = none := rfl
@[simp] theorem startBlock_frPcnt (s : State) (k n : Nat) (mtu : BitVec 16) : (startBlock k n mtu s).frPcnt = 0#16 := rfl
@[simp] theorem startBlock_subActive (s : State) (k n : Nat) (mtu : BitVec 16) : (startBlock k n mtu s).subActive = s.subActive := rfl
@[simp] theorem startBlock_subBlk (s : State) (k n : Nat) (mtu : BitVec 16) : (startBlock k n mtu s).subBlk = s.subBlk := rfl
@[simp] theorem startBlock_subLen (s : State) (k n : Nat) (mtu : BitVec 16) : (startBlock k n mtu s).subLen = s.subLen := rfl
@[simp] theorem startBlock_subPos (s : State) (k n : Nat) (mtu : BitVec 16) : (startBlock k n mtu s).subPos = s.subPos := rfl
@[simp] theorem startBlock_subData (s : State) (k n : Nat) (mtu : BitVec 16) : (startBlock k n mtu s).subData = s.subData := rfl
@[simp] theorem startBlock_par (s : State) (k n : Nat) (mtu : BitVec 16) : (startBlock k n mtu s).par = s.par := rfl
@[simp] theorem startBlock_sched (s : State) (k n : Nat) (mtu : BitVec 16) : (startBlock k n mtu s).sched = s.sched := rfl
@[simp] theorem startBlock_tick (s : State) (k n : Nat) (mtu : BitVec 16) : (startBlock k n mtu s).tick = s.tick := rfl
@[simp] theorem startBlock_bufEpoch (s : State) (k n : Nat) (mtu : BitVec 16) : (startBlock k n mtu s).bufEpoch = s.bufEpoch := rfl
@[simp] theorem startBlock_outs (s : State) (k n : Nat) (mtu : BitVec 16) : (startBlock k n mtu s).outs = s.outs := rfl
@[simp] theorem startBlock_verdicts (s : State) (k n : Nat) (mtu : BitVec 16) : (startBlock k n mtu s).verdicts = s.verdicts := rfl

/-! `takePayloadByte` -/

@[simp] theorem takePayloadByte_run (s : State) (b : Byte) (x : Slot) : (takePayloadByte b x s).run = s.run := rfl
@[simp] theorem takePayloadByte_fatalCause (s : State) (b : Byte) (x : Slot) : (takePayloadByte b x s).fatalCause = s.fatalCause := rfl
@[simp] theorem takePayloadByte_cfgK (s : State) (b : Byte) (x : Slot) : (takePayloadByte b x s).cfgK = s.cfgK := rfl
@[simp] theorem takePayloadByte_cfgN (s : State) (b : Byte) (x : Slot) : (takePayloadByte b x s).cfgN = s.cfgN := rfl
@[simp] theorem takePayloadByte_cfgMtu (s : State) (b : Byte) (x : Slot) : (takePayloadByte b x s).cfgMtu = s.cfgMtu := rfl
@[simp] theorem takePayloadByte_qEff (s : State) (b : Byte) (x : Slot) : (takePayloadByte b x s).qEff = s.qEff := rfl
@[simp] theorem takePayloadByte_cbi (s : State) (b : Byte) (x : Slot) : (takePayloadByte b x s).cbi = s.cbi := rfl
@[simp] theorem takePayloadByte_data (s : State) (b : Byte) (x : Slot) : (takePayloadByte b x s).data = s.data := rfl
@[simp] theorem takePayloadByte_red (s : State) (b : Byte) (x : Slot) : (takePayloadByte b x s).red = s.red := rfl
@[simp] theorem takePayloadByte_next (s : State) (b : Byte) (x : Slot) : (takePayloadByte b x s).next = s.next := rfl
@[simp] theorem takePayloadByte_limit (s : State) (b : Byte) (x : Slot) : (takePayloadByte b x s).limit = s.limit := rfl
@[simp] theorem takePayloadByte_kind (s : State) (b : Byte) (x : Slot) : (takePayloadByte b x s).kind = s.kind := rfl
@[simp] theorem takePayloadByte_decoded (s : State) (b : Byte) (x : Slot) : (takePayloadByte b x s).decoded = s.decoded := rfl
@[simp] theorem takePayloadByte_wph (s : State) (b : Byte) (x : Slot) : (takePayloadByte b x s).wph = s.wph := rfl
@[simp] theorem takePayloadByte_fifo (s : State) (b : Byte) (x : Slot) : (takePayloadByte b x s).fifo = s.fifo := rfl
@[simp] theorem takePayloadByte_free (s : State) (b : Byte) (x : Slot) : (takePayloadByte b x s).free = s.free := rfl
@[simp] theorem takePayloadByte_buf (s : State) (b : Byte) (x : Slot) : (takePayloadByte b x s).buf = Memory.setBytes s.buf (bufKey x s.frPcnt.toNat) [b] := rfl
@[simp] theorem takePayloadByte_frPhase (s : State) (b : Byte) (x : Slot) : (takePayloadByte b x s).frPhase = if s.frPcnt + 1 = s.cfgMtu then .enq else s.frPhase := rfl
@[simp] theorem takePayloadByte_frHcnt (s : State) (b : Byte) (x : Slot) : (takePayloadByte b x s).frHcnt = s.frHcnt := rfl
@[simp] theorem takePayloadByte_frHdr (s : State) (b : Byte) (x : Slot) : (takePayloadByte b x s).frHdr = s.frHdr := rfl
@[simp] theorem takePayloadByte_frBi (s : State) (b : Byte) (x : Slot) : (takePayloadByte b x s).frBi = s.frBi := rfl
@[simp] theorem takePayloadByte_frPi (s : State) (b : Byte) (x : Slot) : (takePayloadByte b x s).frPi = s.frPi := rfl
@[simp] theorem takePayloadByte_frPs (s : State) (b : Byte) (x : Slot) : (takePayloadByte b x s).frPs = s.frPs := rfl
@[simp] theorem takePayloadByte_frSlot (s : State) (b : Byte) (x : Slot) : (takePayloadByte b x s).frSlot = some x := rfl
@[simp] theorem takePayloadByte_frPcnt (s : State) (b : Byte) (x : Slot) : (takePayloadByte b x s).frPcnt = s.frPcnt + 1 := rfl
@[simp] theorem takePayloadByte_subActive (s : State) (b : Byte) (x : Slot) : (takePayloadByte b x s).subActive = s.subActive := rfl
@[simp] theorem takePayloadByte_subBlk (s : State) (b : Byte) (x : Slot) : (takePayloadByte b x s).subBlk = s.subBlk := rfl
@[simp] theorem takePayloadByte_subLen (s : State) (b : Byte) (x : Slot) : (takePayloadByte b x s).subLen = s.subLen := rfl
@[simp] theorem takePayloadByte_subPos (s : State) (b : Byte) (x : Slot) : (takePayloadByte b x s).subPos = s.subPos + 1 := rfl
@[simp] theorem takePayloadByte_subData (s : State) (b : Byte) (x : Slot) : (takePayloadByte b x s).subData = s.subData := rfl
@[simp] theorem takePayloadByte_par (s : State) (b : Byte) (x : Slot) : (takePayloadByte b x s).par = s.par := rfl
@[simp] theorem takePayloadByte_sched (s : State) (b : Byte) (x : Slot) : (takePayloadByte b x s).sched = s.sched := rfl
@[simp] theorem takePayloadByte_tick (s : State) (b : Byte) (x : Slot) : (takePayloadByte b x s).tick = s.tick := rfl
@[simp] theorem takePayloadByte_bufEpoch (s : State) (b : Byte) (x : Slot) : (takePayloadByte b x s).bufEpoch = s.bufEpoch := rfl
@[simp] theorem takePayloadByte_outs (s : State) (b : Byte) (x : Slot) : (takePayloadByte b x s).outs = s.outs := rfl
@[simp] theorem takePayloadByte_verdicts (s : State) (b : Byte) (x : Slot) : (takePayloadByte b x s).verdicts = s.verdicts := rfl

/-! `raiseFatal` (R186): the four writes -/

@[simp] theorem raiseFatal_run (s : State) (c : Cause) : (raiseFatal c s).run = .fatal := by
  unfold raiseFatal; split <;> rfl
@[simp] theorem raiseFatal_fatalCause (s : State) (c : Cause) : (raiseFatal c s).fatalCause = some c := by
  unfold raiseFatal; split <;> rfl
@[simp] theorem raiseFatal_cfgK (s : State) (c : Cause) : (raiseFatal c s).cfgK = s.cfgK := by
  unfold raiseFatal; split <;> rfl
@[simp] theorem raiseFatal_cfgN (s : State) (c : Cause) : (raiseFatal c s).cfgN = s.cfgN := by
  unfold raiseFatal; split <;> rfl
@[simp] theorem raiseFatal_cfgMtu (s : State) (c : Cause) : (raiseFatal c s).cfgMtu = s.cfgMtu := by
  unfold raiseFatal; split <;> rfl
@[simp] theorem raiseFatal_qEff (s : State) (c : Cause) : (raiseFatal c s).qEff = s.qEff := by
  unfold raiseFatal; split <;> rfl
@[simp] theorem raiseFatal_cbi (s : State) (c : Cause) : (raiseFatal c s).cbi = s.cbi := by
  unfold raiseFatal; split <;> rfl
@[simp] theorem raiseFatal_data (s : State) (c : Cause) : (raiseFatal c s).data = s.data := by
  unfold raiseFatal; split <;> rfl
@[simp] theorem raiseFatal_red (s : State) (c : Cause) : (raiseFatal c s).red = s.red := by
  unfold raiseFatal; split <;> rfl
@[simp] theorem raiseFatal_next (s : State) (c : Cause) : (raiseFatal c s).next = s.next := by
  unfold raiseFatal; split <;> rfl
@[simp] theorem raiseFatal_limit (s : State) (c : Cause) : (raiseFatal c s).limit = s.limit := by
  unfold raiseFatal; split <;> rfl
@[simp] theorem raiseFatal_kind (s : State) (c : Cause) : (raiseFatal c s).kind = s.kind := by
  unfold raiseFatal; split <;> rfl
@[simp] theorem raiseFatal_decoded (s : State) (c : Cause) : (raiseFatal c s).decoded = s.decoded := by
  unfold raiseFatal; split <;> rfl
@[simp] theorem raiseFatal_wph (s : State) (c : Cause) : (raiseFatal c s).wph = .halted := by
  unfold raiseFatal; split <;> rfl
@[simp] theorem raiseFatal_fifo (s : State) (c : Cause) : (raiseFatal c s).fifo = s.fifo := by
  unfold raiseFatal; split <;> rfl
@[simp] theorem raiseFatal_free (s : State) (c : Cause) : (raiseFatal c s).free = s.free := by
  unfold raiseFatal; split <;> rfl
@[simp] theorem raiseFatal_buf (s : State) (c : Cause) : (raiseFatal c s).buf = s.buf := by
  unfold raiseFatal; split <;> rfl
@[simp] theorem raiseFatal_frPhase (s : State) (c : Cause) : (raiseFatal c s).frPhase = s.frPhase := by
  unfold raiseFatal; split <;> rfl
@[simp] theorem raiseFatal_frHcnt (s : State) (c : Cause) : (raiseFatal c s).frHcnt = s.frHcnt := by
  unfold raiseFatal; split <;> rfl
@[simp] theorem raiseFatal_frHdr (s : State) (c : Cause) : (raiseFatal c s).frHdr = s.frHdr := by
  unfold raiseFatal; split <;> rfl
@[simp] theorem raiseFatal_frBi (s : State) (c : Cause) : (raiseFatal c s).frBi = s.frBi := by
  unfold raiseFatal; split <;> rfl
@[simp] theorem raiseFatal_frPi (s : State) (c : Cause) : (raiseFatal c s).frPi = s.frPi := by
  unfold raiseFatal; split <;> rfl
@[simp] theorem raiseFatal_frPs (s : State) (c : Cause) : (raiseFatal c s).frPs = s.frPs := by
  unfold raiseFatal; split <;> rfl
@[simp] theorem raiseFatal_frSlot (s : State) (c : Cause) : (raiseFatal c s).frSlot = s.frSlot := by
  unfold raiseFatal; split <;> rfl
@[simp] theorem raiseFatal_frPcnt (s : State) (c : Cause) : (raiseFatal c s).frPcnt = s.frPcnt := by
  unfold raiseFatal; split <;> rfl
@[simp] theorem raiseFatal_subActive (s : State) (c : Cause) : (raiseFatal c s).subActive = false := by
  unfold raiseFatal; split <;> simp_all
@[simp] theorem raiseFatal_subBlk (s : State) (c : Cause) : (raiseFatal c s).subBlk = s.subBlk := by
  unfold raiseFatal; split <;> rfl
@[simp] theorem raiseFatal_subLen (s : State) (c : Cause) : (raiseFatal c s).subLen = s.subLen := by
  unfold raiseFatal; split <;> rfl
@[simp] theorem raiseFatal_subPos (s : State) (c : Cause) : (raiseFatal c s).subPos = s.subPos := by
  unfold raiseFatal; split <;> rfl
@[simp] theorem raiseFatal_subData (s : State) (c : Cause) : (raiseFatal c s).subData = s.subData := by
  unfold raiseFatal; split <;> rfl
@[simp] theorem raiseFatal_par (s : State) (c : Cause) : (raiseFatal c s).par = s.par := by
  unfold raiseFatal; split <;> rfl
@[simp] theorem raiseFatal_sched (s : State) (c : Cause) : (raiseFatal c s).sched = s.sched := by
  unfold raiseFatal; split <;> rfl
@[simp] theorem raiseFatal_tick (s : State) (c : Cause) : (raiseFatal c s).tick = s.tick := by
  unfold raiseFatal; split <;> rfl
@[simp] theorem raiseFatal_bufEpoch (s : State) (c : Cause) : (raiseFatal c s).bufEpoch = s.bufEpoch := by
  unfold raiseFatal; split <;> rfl
@[simp] theorem raiseFatal_outs (s : State) (c : Cause) : (raiseFatal c s).outs = if s.subActive then s.outs ++ [.data (resp32 .failFatal s.subPos)] else s.outs := by
  unfold raiseFatal; cases s.subActive <;> simp
@[simp] theorem raiseFatal_verdicts (s : State) (c : Cause) : (raiseFatal c s).verdicts = s.verdicts := by
  unfold raiseFatal; split <;> rfl

/-! `raisePool`: Fatal(POOL) with FREE as given -/

@[simp] theorem raisePool_run (s : State) (f : List Slot) : (raisePool f s).run = .fatal := by
  simp [raisePool]
@[simp] theorem raisePool_fatalCause (s : State) (f : List Slot) : (raisePool f s).fatalCause = some .pool := by
  simp [raisePool]
@[simp] theorem raisePool_cfgK (s : State) (f : List Slot) : (raisePool f s).cfgK = s.cfgK := by
  simp [raisePool]
@[simp] theorem raisePool_cfgN (s : State) (f : List Slot) : (raisePool f s).cfgN = s.cfgN := by
  simp [raisePool]
@[simp] theorem raisePool_cfgMtu (s : State) (f : List Slot) : (raisePool f s).cfgMtu = s.cfgMtu := by
  simp [raisePool]
@[simp] theorem raisePool_qEff (s : State) (f : List Slot) : (raisePool f s).qEff = s.qEff := by
  simp [raisePool]
@[simp] theorem raisePool_cbi (s : State) (f : List Slot) : (raisePool f s).cbi = s.cbi := by
  simp [raisePool]
@[simp] theorem raisePool_data (s : State) (f : List Slot) : (raisePool f s).data = s.data := by
  simp [raisePool]
@[simp] theorem raisePool_red (s : State) (f : List Slot) : (raisePool f s).red = s.red := by
  simp [raisePool]
@[simp] theorem raisePool_next (s : State) (f : List Slot) : (raisePool f s).next = s.next := by
  simp [raisePool]
@[simp] theorem raisePool_limit (s : State) (f : List Slot) : (raisePool f s).limit = s.limit := by
  simp [raisePool]
@[simp] theorem raisePool_kind (s : State) (f : List Slot) : (raisePool f s).kind = s.kind := by
  simp [raisePool]
@[simp] theorem raisePool_decoded (s : State) (f : List Slot) : (raisePool f s).decoded = s.decoded := by
  simp [raisePool]
@[simp] theorem raisePool_wph (s : State) (f : List Slot) : (raisePool f s).wph = .halted := by
  simp [raisePool]
@[simp] theorem raisePool_fifo (s : State) (f : List Slot) : (raisePool f s).fifo = s.fifo := by
  simp [raisePool]
@[simp] theorem raisePool_free (s : State) (f : List Slot) : (raisePool f s).free = f := by
  simp [raisePool]
@[simp] theorem raisePool_buf (s : State) (f : List Slot) : (raisePool f s).buf = s.buf := by
  simp [raisePool]
@[simp] theorem raisePool_frPhase (s : State) (f : List Slot) : (raisePool f s).frPhase = s.frPhase := by
  simp [raisePool]
@[simp] theorem raisePool_frHcnt (s : State) (f : List Slot) : (raisePool f s).frHcnt = s.frHcnt := by
  simp [raisePool]
@[simp] theorem raisePool_frHdr (s : State) (f : List Slot) : (raisePool f s).frHdr = s.frHdr := by
  simp [raisePool]
@[simp] theorem raisePool_frBi (s : State) (f : List Slot) : (raisePool f s).frBi = s.frBi := by
  simp [raisePool]
@[simp] theorem raisePool_frPi (s : State) (f : List Slot) : (raisePool f s).frPi = s.frPi := by
  simp [raisePool]
@[simp] theorem raisePool_frPs (s : State) (f : List Slot) : (raisePool f s).frPs = s.frPs := by
  simp [raisePool]
@[simp] theorem raisePool_frSlot (s : State) (f : List Slot) : (raisePool f s).frSlot = s.frSlot := by
  simp [raisePool]
@[simp] theorem raisePool_frPcnt (s : State) (f : List Slot) : (raisePool f s).frPcnt = s.frPcnt := by
  simp [raisePool]
@[simp] theorem raisePool_subActive (s : State) (f : List Slot) : (raisePool f s).subActive = false := by
  simp [raisePool]
@[simp] theorem raisePool_subBlk (s : State) (f : List Slot) : (raisePool f s).subBlk = s.subBlk := by
  simp [raisePool]
@[simp] theorem raisePool_subLen (s : State) (f : List Slot) : (raisePool f s).subLen = s.subLen := by
  simp [raisePool]
@[simp] theorem raisePool_subPos (s : State) (f : List Slot) : (raisePool f s).subPos = s.subPos := by
  simp [raisePool]
@[simp] theorem raisePool_subData (s : State) (f : List Slot) : (raisePool f s).subData = s.subData := by
  simp [raisePool]
@[simp] theorem raisePool_par (s : State) (f : List Slot) : (raisePool f s).par = s.par := by
  simp [raisePool]
@[simp] theorem raisePool_sched (s : State) (f : List Slot) : (raisePool f s).sched = s.sched := by
  simp [raisePool]
@[simp] theorem raisePool_tick (s : State) (f : List Slot) : (raisePool f s).tick = s.tick := by
  simp [raisePool]
@[simp] theorem raisePool_bufEpoch (s : State) (f : List Slot) : (raisePool f s).bufEpoch = s.bufEpoch := by
  simp [raisePool]
@[simp] theorem raisePool_outs (s : State) (f : List Slot) : (raisePool f s).outs = if s.subActive then s.outs ++ [.data (resp32 .failFatal s.subPos)] else s.outs := by
  simp [raisePool]
@[simp] theorem raisePool_verdicts (s : State) (f : List Slot) : (raisePool f s).verdicts = s.verdicts := by
  simp [raisePool]

/-! `memWriteShares` writes BUF only -/

@[simp] theorem memWriteShares_run (s : State) (xs : List Slot) (bs : List (List Byte)) :
    (memWriteShares s xs bs).run = s.run := by
  induction xs generalizing s bs with
  | nil => rfl
  | cons x xs ih => cases bs with
    | nil => rfl
    | cons b bs => simp [memWriteShares, ih]
@[simp] theorem memWriteShares_fatalCause (s : State) (xs : List Slot) (bs : List (List Byte)) :
    (memWriteShares s xs bs).fatalCause = s.fatalCause := by
  induction xs generalizing s bs with
  | nil => rfl
  | cons x xs ih => cases bs with
    | nil => rfl
    | cons b bs => simp [memWriteShares, ih]
@[simp] theorem memWriteShares_cfgK (s : State) (xs : List Slot) (bs : List (List Byte)) :
    (memWriteShares s xs bs).cfgK = s.cfgK := by
  induction xs generalizing s bs with
  | nil => rfl
  | cons x xs ih => cases bs with
    | nil => rfl
    | cons b bs => simp [memWriteShares, ih]
@[simp] theorem memWriteShares_cfgN (s : State) (xs : List Slot) (bs : List (List Byte)) :
    (memWriteShares s xs bs).cfgN = s.cfgN := by
  induction xs generalizing s bs with
  | nil => rfl
  | cons x xs ih => cases bs with
    | nil => rfl
    | cons b bs => simp [memWriteShares, ih]
@[simp] theorem memWriteShares_cfgMtu (s : State) (xs : List Slot) (bs : List (List Byte)) :
    (memWriteShares s xs bs).cfgMtu = s.cfgMtu := by
  induction xs generalizing s bs with
  | nil => rfl
  | cons x xs ih => cases bs with
    | nil => rfl
    | cons b bs => simp [memWriteShares, ih]
@[simp] theorem memWriteShares_qEff (s : State) (xs : List Slot) (bs : List (List Byte)) :
    (memWriteShares s xs bs).qEff = s.qEff := by
  induction xs generalizing s bs with
  | nil => rfl
  | cons x xs ih => cases bs with
    | nil => rfl
    | cons b bs => simp [memWriteShares, ih]
@[simp] theorem memWriteShares_cbi (s : State) (xs : List Slot) (bs : List (List Byte)) :
    (memWriteShares s xs bs).cbi = s.cbi := by
  induction xs generalizing s bs with
  | nil => rfl
  | cons x xs ih => cases bs with
    | nil => rfl
    | cons b bs => simp [memWriteShares, ih]
@[simp] theorem memWriteShares_data (s : State) (xs : List Slot) (bs : List (List Byte)) :
    (memWriteShares s xs bs).data = s.data := by
  induction xs generalizing s bs with
  | nil => rfl
  | cons x xs ih => cases bs with
    | nil => rfl
    | cons b bs => simp [memWriteShares, ih]
@[simp] theorem memWriteShares_red (s : State) (xs : List Slot) (bs : List (List Byte)) :
    (memWriteShares s xs bs).red = s.red := by
  induction xs generalizing s bs with
  | nil => rfl
  | cons x xs ih => cases bs with
    | nil => rfl
    | cons b bs => simp [memWriteShares, ih]
@[simp] theorem memWriteShares_next (s : State) (xs : List Slot) (bs : List (List Byte)) :
    (memWriteShares s xs bs).next = s.next := by
  induction xs generalizing s bs with
  | nil => rfl
  | cons x xs ih => cases bs with
    | nil => rfl
    | cons b bs => simp [memWriteShares, ih]
@[simp] theorem memWriteShares_limit (s : State) (xs : List Slot) (bs : List (List Byte)) :
    (memWriteShares s xs bs).limit = s.limit := by
  induction xs generalizing s bs with
  | nil => rfl
  | cons x xs ih => cases bs with
    | nil => rfl
    | cons b bs => simp [memWriteShares, ih]
@[simp] theorem memWriteShares_kind (s : State) (xs : List Slot) (bs : List (List Byte)) :
    (memWriteShares s xs bs).kind = s.kind := by
  induction xs generalizing s bs with
  | nil => rfl
  | cons x xs ih => cases bs with
    | nil => rfl
    | cons b bs => simp [memWriteShares, ih]
@[simp] theorem memWriteShares_decoded (s : State) (xs : List Slot) (bs : List (List Byte)) :
    (memWriteShares s xs bs).decoded = s.decoded := by
  induction xs generalizing s bs with
  | nil => rfl
  | cons x xs ih => cases bs with
    | nil => rfl
    | cons b bs => simp [memWriteShares, ih]
@[simp] theorem memWriteShares_wph (s : State) (xs : List Slot) (bs : List (List Byte)) :
    (memWriteShares s xs bs).wph = s.wph := by
  induction xs generalizing s bs with
  | nil => rfl
  | cons x xs ih => cases bs with
    | nil => rfl
    | cons b bs => simp [memWriteShares, ih]
@[simp] theorem memWriteShares_fifo (s : State) (xs : List Slot) (bs : List (List Byte)) :
    (memWriteShares s xs bs).fifo = s.fifo := by
  induction xs generalizing s bs with
  | nil => rfl
  | cons x xs ih => cases bs with
    | nil => rfl
    | cons b bs => simp [memWriteShares, ih]
@[simp] theorem memWriteShares_free (s : State) (xs : List Slot) (bs : List (List Byte)) :
    (memWriteShares s xs bs).free = s.free := by
  induction xs generalizing s bs with
  | nil => rfl
  | cons x xs ih => cases bs with
    | nil => rfl
    | cons b bs => simp [memWriteShares, ih]
@[simp] theorem memWriteShares_frPhase (s : State) (xs : List Slot) (bs : List (List Byte)) :
    (memWriteShares s xs bs).frPhase = s.frPhase := by
  induction xs generalizing s bs with
  | nil => rfl
  | cons x xs ih => cases bs with
    | nil => rfl
    | cons b bs => simp [memWriteShares, ih]
@[simp] theorem memWriteShares_frHcnt (s : State) (xs : List Slot) (bs : List (List Byte)) :
    (memWriteShares s xs bs).frHcnt = s.frHcnt := by
  induction xs generalizing s bs with
  | nil => rfl
  | cons x xs ih => cases bs with
    | nil => rfl
    | cons b bs => simp [memWriteShares, ih]
@[simp] theorem memWriteShares_frHdr (s : State) (xs : List Slot) (bs : List (List Byte)) :
    (memWriteShares s xs bs).frHdr = s.frHdr := by
  induction xs generalizing s bs with
  | nil => rfl
  | cons x xs ih => cases bs with
    | nil => rfl
    | cons b bs => simp [memWriteShares, ih]
@[simp] theorem memWriteShares_frBi (s : State) (xs : List Slot) (bs : List (List Byte)) :
    (memWriteShares s xs bs).frBi = s.frBi := by
  induction xs generalizing s bs with
  | nil => rfl
  | cons x xs ih => cases bs with
    | nil => rfl
    | cons b bs => simp [memWriteShares, ih]
@[simp] theorem memWriteShares_frPi (s : State) (xs : List Slot) (bs : List (List Byte)) :
    (memWriteShares s xs bs).frPi = s.frPi := by
  induction xs generalizing s bs with
  | nil => rfl
  | cons x xs ih => cases bs with
    | nil => rfl
    | cons b bs => simp [memWriteShares, ih]
@[simp] theorem memWriteShares_frPs (s : State) (xs : List Slot) (bs : List (List Byte)) :
    (memWriteShares s xs bs).frPs = s.frPs := by
  induction xs generalizing s bs with
  | nil => rfl
  | cons x xs ih => cases bs with
    | nil => rfl
    | cons b bs => simp [memWriteShares, ih]
@[simp] theorem memWriteShares_frSlot (s : State) (xs : List Slot) (bs : List (List Byte)) :
    (memWriteShares s xs bs).frSlot = s.frSlot := by
  induction xs generalizing s bs with
  | nil => rfl
  | cons x xs ih => cases bs with
    | nil => rfl
    | cons b bs => simp [memWriteShares, ih]
@[simp] theorem memWriteShares_frPcnt (s : State) (xs : List Slot) (bs : List (List Byte)) :
    (memWriteShares s xs bs).frPcnt = s.frPcnt := by
  induction xs generalizing s bs with
  | nil => rfl
  | cons x xs ih => cases bs with
    | nil => rfl
    | cons b bs => simp [memWriteShares, ih]
@[simp] theorem memWriteShares_subActive (s : State) (xs : List Slot) (bs : List (List Byte)) :
    (memWriteShares s xs bs).subActive = s.subActive := by
  induction xs generalizing s bs with
  | nil => rfl
  | cons x xs ih => cases bs with
    | nil => rfl
    | cons b bs => simp [memWriteShares, ih]
@[simp] theorem memWriteShares_subBlk (s : State) (xs : List Slot) (bs : List (List Byte)) :
    (memWriteShares s xs bs).subBlk = s.subBlk := by
  induction xs generalizing s bs with
  | nil => rfl
  | cons x xs ih => cases bs with
    | nil => rfl
    | cons b bs => simp [memWriteShares, ih]
@[simp] theorem memWriteShares_subLen (s : State) (xs : List Slot) (bs : List (List Byte)) :
    (memWriteShares s xs bs).subLen = s.subLen := by
  induction xs generalizing s bs with
  | nil => rfl
  | cons x xs ih => cases bs with
    | nil => rfl
    | cons b bs => simp [memWriteShares, ih]
@[simp] theorem memWriteShares_subPos (s : State) (xs : List Slot) (bs : List (List Byte)) :
    (memWriteShares s xs bs).subPos = s.subPos := by
  induction xs generalizing s bs with
  | nil => rfl
  | cons x xs ih => cases bs with
    | nil => rfl
    | cons b bs => simp [memWriteShares, ih]
@[simp] theorem memWriteShares_subData (s : State) (xs : List Slot) (bs : List (List Byte)) :
    (memWriteShares s xs bs).subData = s.subData := by
  induction xs generalizing s bs with
  | nil => rfl
  | cons x xs ih => cases bs with
    | nil => rfl
    | cons b bs => simp [memWriteShares, ih]
@[simp] theorem memWriteShares_par (s : State) (xs : List Slot) (bs : List (List Byte)) :
    (memWriteShares s xs bs).par = s.par := by
  induction xs generalizing s bs with
  | nil => rfl
  | cons x xs ih => cases bs with
    | nil => rfl
    | cons b bs => simp [memWriteShares, ih]
@[simp] theorem memWriteShares_sched (s : State) (xs : List Slot) (bs : List (List Byte)) :
    (memWriteShares s xs bs).sched = s.sched := by
  induction xs generalizing s bs with
  | nil => rfl
  | cons x xs ih => cases bs with
    | nil => rfl
    | cons b bs => simp [memWriteShares, ih]
@[simp] theorem memWriteShares_tick (s : State) (xs : List Slot) (bs : List (List Byte)) :
    (memWriteShares s xs bs).tick = s.tick := by
  induction xs generalizing s bs with
  | nil => rfl
  | cons x xs ih => cases bs with
    | nil => rfl
    | cons b bs => simp [memWriteShares, ih]
@[simp] theorem memWriteShares_bufEpoch (s : State) (xs : List Slot) (bs : List (List Byte)) :
    (memWriteShares s xs bs).bufEpoch = s.bufEpoch := by
  induction xs generalizing s bs with
  | nil => rfl
  | cons x xs ih => cases bs with
    | nil => rfl
    | cons b bs => simp [memWriteShares, ih]
@[simp] theorem memWriteShares_outs (s : State) (xs : List Slot) (bs : List (List Byte)) :
    (memWriteShares s xs bs).outs = s.outs := by
  induction xs generalizing s bs with
  | nil => rfl
  | cons x xs ih => cases bs with
    | nil => rfl
    | cons b bs => simp [memWriteShares, ih]
@[simp] theorem memWriteShares_verdicts (s : State) (xs : List Slot) (bs : List (List Byte)) :
    (memWriteShares s xs bs).verdicts = s.verdicts := by
  induction xs generalizing s bs with
  | nil => rfl
  | cons x xs ih => cases bs with
    | nil => rfl
    | cons b bs => simp [memWriteShares, ih]

/-! `takeHeaderByte` -/

@[simp] theorem takeHeaderByte_run (s : State) (b : Byte) : (takeHeaderByte b s).run = s.run := by
  simp only [takeHeaderByte]; split <;> rfl
@[simp] theorem takeHeaderByte_fatalCause (s : State) (b : Byte) : (takeHeaderByte b s).fatalCause = s.fatalCause := by
  simp only [takeHeaderByte]; split <;> rfl
@[simp] theorem takeHeaderByte_cfgK (s : State) (b : Byte) : (takeHeaderByte b s).cfgK = s.cfgK := by
  simp only [takeHeaderByte]; split <;> rfl
@[simp] theorem takeHeaderByte_cfgN (s : State) (b : Byte) : (takeHeaderByte b s).cfgN = s.cfgN := by
  simp only [takeHeaderByte]; split <;> rfl
@[simp] theorem takeHeaderByte_cfgMtu (s : State) (b : Byte) : (takeHeaderByte b s).cfgMtu = s.cfgMtu := by
  simp only [takeHeaderByte]; split <;> rfl
@[simp] theorem takeHeaderByte_qEff (s : State) (b : Byte) : (takeHeaderByte b s).qEff = s.qEff := by
  simp only [takeHeaderByte]; split <;> rfl
@[simp] theorem takeHeaderByte_cbi (s : State) (b : Byte) : (takeHeaderByte b s).cbi = s.cbi := by
  simp only [takeHeaderByte]; split <;> rfl
@[simp] theorem takeHeaderByte_data (s : State) (b : Byte) : (takeHeaderByte b s).data = s.data := by
  simp only [takeHeaderByte]; split <;> rfl
@[simp] theorem takeHeaderByte_red (s : State) (b : Byte) : (takeHeaderByte b s).red = s.red := by
  simp only [takeHeaderByte]; split <;> rfl
@[simp] theorem takeHeaderByte_next (s : State) (b : Byte) : (takeHeaderByte b s).next = s.next := by
  simp only [takeHeaderByte]; split <;> rfl
@[simp] theorem takeHeaderByte_limit (s : State) (b : Byte) : (takeHeaderByte b s).limit = s.limit := by
  simp only [takeHeaderByte]; split <;> rfl
@[simp] theorem takeHeaderByte_kind (s : State) (b : Byte) : (takeHeaderByte b s).kind = s.kind := by
  simp only [takeHeaderByte]; split <;> rfl
@[simp] theorem takeHeaderByte_decoded (s : State) (b : Byte) : (takeHeaderByte b s).decoded = s.decoded := by
  simp only [takeHeaderByte]; split <;> rfl
@[simp] theorem takeHeaderByte_wph (s : State) (b : Byte) : (takeHeaderByte b s).wph = s.wph := by
  simp only [takeHeaderByte]; split <;> rfl
@[simp] theorem takeHeaderByte_fifo (s : State) (b : Byte) : (takeHeaderByte b s).fifo = s.fifo := by
  simp only [takeHeaderByte]; split <;> rfl
@[simp] theorem takeHeaderByte_free (s : State) (b : Byte) : (takeHeaderByte b s).free = s.free := by
  simp only [takeHeaderByte]; split <;> rfl
@[simp] theorem takeHeaderByte_buf (s : State) (b : Byte) : (takeHeaderByte b s).buf = s.buf := by
  simp only [takeHeaderByte]; split <;> rfl
@[simp] theorem takeHeaderByte_frHcnt (s : State) (b : Byte) : (takeHeaderByte b s).frHcnt = Fin.ofNat 7 (s.frHcnt.val + 1) := by
  simp only [takeHeaderByte]; split <;> rfl
@[simp] theorem takeHeaderByte_frHdr (s : State) (b : Byte) : (takeHeaderByte b s).frHdr = s.frHdr.setIfInBounds s.frHcnt.val b := by
  simp only [takeHeaderByte]; split <;> rfl
@[simp] theorem takeHeaderByte_frSlot (s : State) (b : Byte) : (takeHeaderByte b s).frSlot = s.frSlot := by
  simp only [takeHeaderByte]; split <;> rfl
@[simp] theorem takeHeaderByte_subActive (s : State) (b : Byte) : (takeHeaderByte b s).subActive = s.subActive := by
  simp only [takeHeaderByte]; split <;> rfl
@[simp] theorem takeHeaderByte_subBlk (s : State) (b : Byte) : (takeHeaderByte b s).subBlk = s.subBlk := by
  simp only [takeHeaderByte]; split <;> rfl
@[simp] theorem takeHeaderByte_subLen (s : State) (b : Byte) : (takeHeaderByte b s).subLen = s.subLen := by
  simp only [takeHeaderByte]; split <;> rfl
@[simp] theorem takeHeaderByte_subPos (s : State) (b : Byte) : (takeHeaderByte b s).subPos = s.subPos + 1 := by
  simp only [takeHeaderByte]; split <;> rfl
@[simp] theorem takeHeaderByte_subData (s : State) (b : Byte) : (takeHeaderByte b s).subData = s.subData := by
  simp only [takeHeaderByte]; split <;> rfl
@[simp] theorem takeHeaderByte_par (s : State) (b : Byte) : (takeHeaderByte b s).par = s.par := by
  simp only [takeHeaderByte]; split <;> rfl
@[simp] theorem takeHeaderByte_sched (s : State) (b : Byte) : (takeHeaderByte b s).sched = s.sched := by
  simp only [takeHeaderByte]; split <;> rfl
@[simp] theorem takeHeaderByte_tick (s : State) (b : Byte) : (takeHeaderByte b s).tick = s.tick := by
  simp only [takeHeaderByte]; split <;> rfl
@[simp] theorem takeHeaderByte_bufEpoch (s : State) (b : Byte) : (takeHeaderByte b s).bufEpoch = s.bufEpoch := by
  simp only [takeHeaderByte]; split <;> rfl
@[simp] theorem takeHeaderByte_outs (s : State) (b : Byte) : (takeHeaderByte b s).outs = s.outs := by
  simp only [takeHeaderByte]; split <;> rfl
@[simp] theorem takeHeaderByte_verdicts (s : State) (b : Byte) : (takeHeaderByte b s).verdicts = s.verdicts := by
  simp only [takeHeaderByte]; split <;> rfl

end Sys2Proof.Machine
end

