-- ==== Sys2Proof/Laws/Collections.lean ====
section
/-! SUPPORT. The collections, the bitmaps of STATUS and the counts of AfterInsert. -/

namespace Sys2Proof.Machine

theorem dataAt_setData (s : State) (i j : Nat) (e : DataEntry) (h : i < 31) :
    dataAt (setData s i e) j = if j = i then e else dataAt s j := by
  unfold dataAt setData
  rw [Vector.getElem?_setIfInBounds]
  split
  · rename_i hij
    subst hij
    simp_all
  · rename_i hij
    simp [Ne.symm hij]

theorem redAt_setRed (s : State) (q j : Nat) (e : RedEntry) (h : q < 32) :
    redAt (setRed s q e) j = if j = q then e else redAt s j := by
  unfold redAt setRed
  rw [Vector.getElem?_setIfInBounds]
  split
  · rename_i hij
    subst hij
    simp_all
  · rename_i hij
    simp [Ne.symm hij]

@[simp] theorem redAt_setData (s : State) (i j : Nat) (e : DataEntry) : redAt (setData s i e) j = redAt s j := rfl

@[simp] theorem dataAt_setRed (s : State) (q j : Nat) (e : RedEntry) : dataAt (setRed s q e) j = dataAt s j := rfl

/-- Purge and FINISH clear the entries of the block and no other (R135, R163). -/
theorem dataAt_clearBlock (s : State) (i : Nat) :
    dataAt (clearBlock s) i = if i < s.cfgK.val then (dataAt s i).cleared else dataAt s i := by
  unfold dataAt
  simp only [clearBlock_data, blockData, Vector.getElem?_mapIdx]
  cases h : s.data[i]? with
  | some e => simp
  | none => simp [DataEntry.cleared, DataEntry.empty]

theorem redAt_clearBlock (s : State) (q : Nat) :
    redAt (clearBlock s) q = if s.cfgK.val ≤ q ∧ q < s.cfgN.val then (redAt s q).cleared else redAt s q := by
  unfold redAt
  simp only [clearBlock_red, blockRed, Vector.getElem?_mapIdx]
  cases h : s.red[q]? with
  | some e => simp
  | none => simp [RedEntry.cleared, RedEntry.empty]

/-- INIT and STOP clear every entry (R100, R102). -/
theorem dataAt_clearCollections (s : State) (i : Nat) :
    dataAt (clearCollections s) i = (dataAt s i).cleared := by
  unfold dataAt
  simp only [clearCollections_data, Vector.getElem?_map]
  cases h : s.data[i]? with
  | some e => simp
  | none => simp [DataEntry.cleared, DataEntry.empty]

theorem redAt_clearCollections (s : State) (q : Nat) :
    redAt (clearCollections s) q = (redAt s q).cleared := by
  unfold redAt
  simp only [clearCollections_red, Vector.getElem?_map]
  cases h : s.red[q]? with
  | some e => simp
  | none => simp [RedEntry.cleared, RedEntry.empty]

/-- Bit i of a bitmap (R84). -/
theorem getLsbD_bitmap (f : Nat → Bool) (len i : Nat) (h : len ≤ 32) :
    (bitmap f len).getLsbD i = (decide (i < len) && f i) := by
  induction len with
  | zero => simp [bitmap]
  | succ n ih =>
    have hn : n < 32 := h
    rw [bitmap, BitVec.getLsbD_or, ih (by omega)]
    by_cases hf : f n = true
    · rw [if_pos hf, BitVec.getLsbD_shiftLeft]
      rcases Nat.lt_trichotomy i n with hi | rfl | hi
      · simp [hi, show i < n + 1 by omega]
      · simp [hn, hf]
      · simp [show ¬ i < n + 1 by omega, show ¬ i < n by omega,
          show i - n ≠ 0 by omega, BitVec.getLsbD_one]
    · rw [if_neg hf]
      rcases Nat.lt_trichotomy i n with hi | rfl | hi
      · simp [hi, show i < n + 1 by omega]
      · simp [hf]
      · simp [show ¬ i < n by omega, show ¬ i < n + 1 by omega]

/-- The first missing index is missing, and every index below it is present (R141, R157). -/
theorem firstMissing_spec (s : State) (j : Nat) :
    firstMissing s = some j ↔
      j < s.cfgK.val ∧ (dataAt s j).present = false ∧ ∀ i, i < j → (dataAt s i).present = true := by
  unfold firstMissing
  rw [List.find?_range_eq_some]
  simp only [Bool.not_eq_true', List.mem_range, Bool.not_not]
  grind

theorem firstMissing_none (s : State) :
    firstMissing s = none ↔ ∀ i, i < s.cfgK.val → (dataAt s i).present = true := by
  unfold firstMissing
  simp

theorem firstGap_le (s : State) : firstGap s ≤ s.cfgK.val := by
  unfold firstGap
  cases h : firstMissing s with
  | none => simp
  | some j => simpa using Nat.le_of_lt ((firstMissing_spec s j).1 h).1

/-- LIMIT as AfterInsert stores it loses nothing (R141). -/
theorem limit_val_afterInsert (s : State) : (afterInsert s).limit.val = firstGap s := by
  have := firstGap_le s
  have := s.cfgK.isLt
  simp only [afterInsert_limit, Fin.val_ofNat]
  omega

end Sys2Proof.Machine
end

