-- ==== Sys2Proof/Laws/Memory.lean ====
section
/-! SUPPORT. The buffer store: a read after a write, and the canonical form that every memory operation keeps. -/

namespace Sys2Proof.Machine

theorem Memory.lookup_set_same (m : Memory) (key : Nat) (b : Byte) :
    Memory.lookup (Memory.set m key b) key = some b := by
  induction m with
  | nil => simp [Memory.set, Memory.lookup]
  | cons c m ih =>
    obtain ⟨a, x⟩ := c
    simp only [Memory.set]
    split
    · simp [Memory.lookup]
    · split
      · simp [Memory.lookup]
      · rename_i h1 h2
        simp [Memory.lookup, ih, Ne.symm h2]

theorem Memory.lookup_set_other (m : Memory) {key k' : Nat} (b : Byte) (h : k' ≠ key) :
    Memory.lookup (Memory.set m key b) k' = Memory.lookup m k' := by
  induction m with
  | nil => simp [Memory.set, Memory.lookup, Ne.symm h]
  | cons c m ih =>
    obtain ⟨a, x⟩ := c
    simp only [Memory.set]
    split
    · simp [Memory.lookup, Ne.symm h]
    · split
      · rename_i h1 h2
        subst h2
        simp [Memory.lookup, Ne.symm h]
      · simp [Memory.lookup, ih]

theorem Memory.key_mem_set {m : Memory} {key k' : Nat} {b : Byte}
    (h : k' ∈ (Memory.set m key b).map Prod.fst) : k' = key ∨ k' ∈ m.map Prod.fst := by
  induction m with
  | nil => simpa [Memory.set] using h
  | cons c m ih =>
    obtain ⟨a, x⟩ := c
    simp only [Memory.set] at h
    split at h
    · simpa using h
    · split at h
      · rename_i h1 h2
        simp only [List.map_cons, List.mem_cons] at h ⊢
        rcases h with h | h
        · exact .inl h
        · exact .inr (.inr h)
      · simp only [List.map_cons, List.mem_cons] at h ⊢
        rcases h with h | h
        · exact .inr (.inl h)
        · rcases ih h with h | h
          · exact .inl h
          · exact .inr (.inr h)

theorem Memory.set_rising {m : Memory} (key : Nat) (b : Byte) (h : (m.map Prod.fst).Pairwise (· < ·)) :
    ((Memory.set m key b).map Prod.fst).Pairwise (· < ·) := by
  induction m with
  | nil => simp [Memory.set]
  | cons c m ih =>
    obtain ⟨a, x⟩ := c
    simp only [List.map_cons, List.pairwise_cons] at h
    simp only [Memory.set]
    split
    · rename_i h1
      simp only [List.map_cons, List.pairwise_cons, List.mem_cons]
      refine ⟨?_, h.1, h.2⟩
      rintro k' (rfl | hk)
      · exact h1
      · exact lt_trans h1 (h.1 k' hk)
    · split
      · rename_i h1 h2
        subst h2
        simpa using h
      · rename_i h1 h2
        simp only [List.map_cons, List.pairwise_cons]
        refine ⟨fun k' hk => ?_, ih h.2⟩
        rcases Memory.key_mem_set hk with rfl | hk
        · omega
        · exact h.1 k' hk

/-- Writing one byte inside the store keeps the canonical form. -/
theorem Memory.set_wf {m : Memory} {key : Nat} (b : Byte) (h : Memory.wf m) (hk : key < 4194304) :
    Memory.wf (Memory.set m key b) := by
  refine ⟨Memory.set_rising key b h.1, fun c hc => ?_⟩
  rcases Memory.key_mem_set (List.mem_map_of_mem hc) with he | he
  · omega
  · obtain ⟨d, hd, hdc⟩ := List.mem_map.1 he
    have := h.2 d hd
    omega

/-- Writing consecutive bytes inside the store keeps the canonical form. -/
theorem Memory.setBytes_wf {m : Memory} {key : Nat} (bs : List Byte) (h : Memory.wf m)
    (hk : key + bs.length ≤ 4194304) : Memory.wf (Memory.setBytes m key bs) := by
  induction bs generalizing m key with
  | nil => exact h
  | cons b bs ih =>
    simp only [List.length_cons] at hk
    exact ih (Memory.set_wf b h (by omega)) (by omega)

/-- A byte outside the written range reads as before. -/
theorem Memory.lookup_setBytes_other {m : Memory} {key k' : Nat} {bs : List Byte}
    (h : k' < key ∨ key + bs.length ≤ k') :
    Memory.lookup (Memory.setBytes m key bs) k' = Memory.lookup m k' := by
  induction bs generalizing m key with
  | nil => rfl
  | cons b bs ih =>
    simp only [List.length_cons] at h
    rw [Memory.setBytes, ih (by omega), Memory.lookup_set_other _ _ (by omega)]

/-- A byte inside the written range reads as the byte written. -/
theorem Memory.lookup_setBytes_same {m : Memory} {key j : Nat} {bs : List Byte} (h : j < bs.length) :
    Memory.lookup (Memory.setBytes m key bs) (key + j) = some bs[j] := by
  induction bs generalizing m key j with
  | nil => simp at h
  | cons b bs ih =>
    cases j with
    | zero =>
      rw [Memory.setBytes, Memory.lookup_setBytes_other (by simp), Nat.add_zero, Memory.lookup_set_same]
      rfl
    | succ j =>
      simp only [List.length_cons] at h
      rw [Memory.setBytes, show key + (j + 1) = key + 1 + j by omega, ih (by omega)]
      rfl

/-- The keys of different (slot, offset) pairs differ, for offsets below 65536. -/
theorem bufKey_inj {x y : Slot} {o p : Nat} (ho : o < 65536) (hp : p < 65536)
    (h : bufKey x o = bufKey y p) : x = y ∧ o = p := by
  unfold bufKey at h
  have : x.val = y.val := by omega
  exact ⟨Fin.ext this, by omega⟩

theorem bufKey_lt (x : Slot) {o : Nat} (ho : o < 65536) : bufKey x o < 4194304 := by
  have := x.isLt
  unfold bufKey
  omega

/-- MemWrite inside a slot keeps the canonical form. -/
theorem memWrite_wf {s : State} {x : Slot} {off : Nat} {bs : List Byte} (h : Memory.wf s.buf)
    (hb : off + bs.length ≤ 65536) : Memory.wf (memWrite s x off bs).buf := by
  have := x.isLt
  exact Memory.setBytes_wf bs h (by unfold bufKey; omega)

/-- MemWrite of whole shares keeps the canonical form. -/
theorem memWriteShares_wf {s : State} {xs : List Slot} {bs : List (List Byte)} (h : Memory.wf s.buf)
    (hb : ∀ b ∈ bs, b.length ≤ 65536) : Memory.wf (memWriteShares s xs bs).buf := by
  induction xs generalizing s bs with
  | nil => exact h
  | cons x xs ih =>
    cases bs with
    | nil => exact h
    | cons b bs =>
      simp only [List.mem_cons, forall_eq_or_imp] at hb
      exact ih (memWrite_wf h (by simpa using hb.1)) hb.2

/-- What one MemWrite does to every byte of the store. -/
theorem byteAt_memWrite (s : State) (x y : Slot) (off o : Nat) (bs : List Byte)
    (hb : off + bs.length ≤ 65536) (ho : o < 65536) :
    byteAt (memWrite s x off bs) y o =
      if h : y = x ∧ off ≤ o ∧ o < off + bs.length then bs[o - off]'(by omega) else byteAt s y o := by
  unfold byteAt
  simp only [memWrite_buf, memWrite_bufEpoch]
  split
  · rename_i h
    obtain ⟨rfl, h1, h2⟩ := h
    have hj : o - off < bs.length := by omega
    have he : bufKey y o = bufKey y off + (o - off) := by unfold bufKey; omega
    rw [he, Memory.lookup_setBytes_same hj]
    rfl
  · rename_i h
    rw [Memory.lookup_setBytes_other]
    by_contra hc
    apply h
    have h3 : bufKey x off ≤ bufKey y o ∧ bufKey y o < bufKey x off + bs.length := by omega
    have hxy : y = x := by
      apply Fin.ext
      unfold bufKey at h3
      omega
    subst hxy
    unfold bufKey at h3
    exact ⟨rfl, by omega, by omega⟩

theorem reset_memory_wf : Memory.wf State.reset.buf := by decide

end Sys2Proof.Machine
end

