-- ==== Sys2Proof/Laws/PerInstr.lean ====
section
/-! SUPPORT. One lemma per instruction: a well-formed command word has its table row's fixed bits (R76 to R80). -/

namespace Sys2Proof.Laws.Row

/-- The match and mask of an instruction's row of the opcode table, where the table gives them as one number. -/
def row : Instr → Option (Word × Word)
  | .init _ _ _ => some (0x00000001, 0x0000000F)
  | .submit _ _ _ => some (0x00000002, 0x0000FFEF)
  | .stop => some (0x00000003, 0xFFFFFFFF)
  | .status => some (0x00000004, 0xFFFFFFFF)
  | .reservedOp0 _ _ => some (0x00000000, 0x0000000F)
  | .reservedOp5 _ _ => some (0x00000005, 0x0000000F)
  | .reservedOp6 _ _ => some (0x00000006, 0x0000000F)
  | .reservedOp7 _ _ => some (0x00000007, 0x0000000F)
  | .reservedOp8 _ _ => some (0x00000008, 0x0000000F)
  | .reservedOp9 _ _ => some (0x00000009, 0x0000000F)
  | .reservedOp10 _ _ => some (0x0000000A, 0x0000000F)
  | .reservedOp11 _ _ => some (0x0000000B, 0x0000000F)
  | .reservedOp12 _ _ => some (0x0000000C, 0x0000000F)
  | .reservedOp13 _ _ => some (0x0000000D, 0x0000000F)
  | .reservedOp14 _ _ => some (0x0000000E, 0x0000000F)
  | .reservedOp15 _ _ => some (0x0000000F, 0x0000000F)
  | .illegalSubmitReservedBits _ => some (0x00000002, 0x0000000F)
  | .illegalStopStatusBits _ => none
  | .illegalWrongPort _ _ => none
  | .pktMalformedIndex _ => none
  | .pktMalformedSize _ => none
  | .pktStale _ => none
  | .pktSupersede _ => none
  | .pktDupData _ => none
  | .pktData _ => none
  | .pktDupRed _ => none
  | .pktRed _ => none
  | .fHdrByte => none
  | .fPayByte _ => none
  | .fPoolFail => none
  | .fEnq => none
  | .fFifoFail => none
  | .submitDone => none
  | .accept => none
  | .emit => none
  | .emitDone => none
  | .acq _ => none
  | .decode _ => none
  | .finish => none
  | .fatal _ => none
  | .reset => none

/-- The word of a well-formed instruction has the bits its table row fixes. -/
def Statement (i : Instr) : Prop :=
  i.wf = true → ∀ p w payload m, encode i = .command p w payload → row i = some m → w &&& m.2 = m.1

theorem and_low_nibble (hi : BitVec 28) (op : BitVec 4) : cmdWord hi op &&& 0x0000000F#32 = BitVec.zeroExtend 32 op := by
  apply BitVec.eq_of_getLsbD_eq
  intro i hi'
  simp only [cmdWord, BitVec.getLsbD_and, BitVec.getLsbD_append, BitVec.getLsbD_setWidth]
  interval_cases i <;> simp

theorem init (k n : BitVec 6) (mtu : BitVec 16) : Statement (.init k n mtu) := by
  rintro - p w payload m he hm
  cases he; cases hm
  apply BitVec.eq_of_getLsbD_eq
  intro i hi
  simp only [BitVec.getLsbD_and, BitVec.getLsbD_append]
  interval_cases i <;> simp

theorem submit (blk : Bool) (len : BitVec 16) (bytes : List Byte) : Statement (.submit blk len bytes) := by
  rintro - p w payload m he hm
  cases he; cases hm
  apply BitVec.eq_of_getLsbD_eq
  intro i hi
  simp only [BitVec.getLsbD_and, BitVec.getLsbD_append, BitVec.getLsbD_ofBool]
  interval_cases i <;> simp

theorem stop : Statement (.stop) := by
  rintro - p w payload m he hm
  cases he; cases hm
  decide

theorem status : Statement (.status) := by
  rintro - p w payload m he hm
  cases he; cases hm
  decide

theorem reservedOp0 (p : Port) (hi : BitVec 28) : Statement (.reservedOp0 p hi) := by
  rintro - p' w payload m he hm
  cases he; cases hm
  simpa using and_low_nibble hi 0

theorem reservedOp5 (p : Port) (hi : BitVec 28) : Statement (.reservedOp5 p hi) := by
  rintro - p' w payload m he hm
  cases he; cases hm
  simpa using and_low_nibble hi 5

theorem reservedOp6 (p : Port) (hi : BitVec 28) : Statement (.reservedOp6 p hi) := by
  rintro - p' w payload m he hm
  cases he; cases hm
  simpa using and_low_nibble hi 6

theorem reservedOp7 (p : Port) (hi : BitVec 28) : Statement (.reservedOp7 p hi) := by
  rintro - p' w payload m he hm
  cases he; cases hm
  simpa using and_low_nibble hi 7

theorem reservedOp8 (p : Port) (hi : BitVec 28) : Statement (.reservedOp8 p hi) := by
  rintro - p' w payload m he hm
  cases he; cases hm
  simpa using and_low_nibble hi 8

theorem reservedOp9 (p : Port) (hi : BitVec 28) : Statement (.reservedOp9 p hi) := by
  rintro - p' w payload m he hm
  cases he; cases hm
  simpa using and_low_nibble hi 9

theorem reservedOp10 (p : Port) (hi : BitVec 28) : Statement (.reservedOp10 p hi) := by
  rintro - p' w payload m he hm
  cases he; cases hm
  simpa using and_low_nibble hi 10

theorem reservedOp11 (p : Port) (hi : BitVec 28) : Statement (.reservedOp11 p hi) := by
  rintro - p' w payload m he hm
  cases he; cases hm
  simpa using and_low_nibble hi 11

theorem reservedOp12 (p : Port) (hi : BitVec 28) : Statement (.reservedOp12 p hi) := by
  rintro - p' w payload m he hm
  cases he; cases hm
  simpa using and_low_nibble hi 12

theorem reservedOp13 (p : Port) (hi : BitVec 28) : Statement (.reservedOp13 p hi) := by
  rintro - p' w payload m he hm
  cases he; cases hm
  simpa using and_low_nibble hi 13

theorem reservedOp14 (p : Port) (hi : BitVec 28) : Statement (.reservedOp14 p hi) := by
  rintro - p' w payload m he hm
  cases he; cases hm
  simpa using and_low_nibble hi 14

theorem reservedOp15 (p : Port) (hi : BitVec 28) : Statement (.reservedOp15 p hi) := by
  rintro - p' w payload m he hm
  cases he; cases hm
  simpa using and_low_nibble hi 15

theorem illegalSubmitReservedBits (w : Word) : Statement (.illegalSubmitReservedBits w) := by
  intro hw p w' payload m he hm
  cases he; cases hm
  simp only [Instr.wf, submitBitsSet, opOf, Bool.and_eq_true, beq_iff_eq] at hw
  have h := hw.1
  apply BitVec.eq_of_getLsbD_eq
  intro i hi
  have h0 := congrArg (fun v : BitVec 4 => v.getLsbD i) h
  simp only [BitVec.getLsbD_extractLsb'] at h0
  rw [BitVec.getLsbD_and]
  interval_cases i <;> simp_all

theorem illegalStopStatusBits (w : Word) : Statement (.illegalStopStatusBits w) := by
  intro _ _ _ _ _ _ hm
  cases hm

theorem illegalWrongPort (p : Port) (w : Word) : Statement (.illegalWrongPort p w) := by
  intro _ _ _ _ _ _ hm
  cases hm

theorem pktMalformedIndex (h : Header) : Statement (.pktMalformedIndex h) := by
  intro _ _ _ _ _ _ hm
  cases hm

theorem pktMalformedSize (h : Header) : Statement (.pktMalformedSize h) := by
  intro _ _ _ _ _ _ hm
  cases hm

theorem pktStale (h : Header) : Statement (.pktStale h) := by
  intro _ _ _ _ _ _ hm
  cases hm

theorem pktSupersede (h : Header) : Statement (.pktSupersede h) := by
  intro _ _ _ _ _ _ hm
  cases hm

theorem pktDupData (h : Header) : Statement (.pktDupData h) := by
  intro _ _ _ _ _ _ hm
  cases hm

theorem pktData (h : Header) : Statement (.pktData h) := by
  intro _ _ _ _ _ _ hm
  cases hm

theorem pktDupRed (h : Header) : Statement (.pktDupRed h) := by
  intro _ _ _ _ _ _ hm
  cases hm

theorem pktRed (h : Header) : Statement (.pktRed h) := by
  intro _ _ _ _ _ _ hm
  cases hm

theorem fHdrByte : Statement (.fHdrByte) := by
  intro _ _ _ _ _ _ hm
  cases hm

theorem fPayByte (pick : Nat) : Statement (.fPayByte pick) := by
  intro _ _ _ _ _ _ hm
  cases hm

theorem fPoolFail : Statement (.fPoolFail) := by
  intro _ _ _ _ _ _ hm
  cases hm

theorem fEnq : Statement (.fEnq) := by
  intro _ _ _ _ _ _ hm
  cases hm

theorem fFifoFail : Statement (.fFifoFail) := by
  intro _ _ _ _ _ _ hm
  cases hm

theorem submitDone : Statement (.submitDone) := by
  intro _ _ _ _ _ _ hm
  cases hm

theorem accept : Statement (.accept) := by
  intro _ _ _ _ _ _ hm
  cases hm

theorem emit : Statement (.emit) := by
  intro _ _ _ _ _ _ hm
  cases hm

theorem emitDone : Statement (.emitDone) := by
  intro _ _ _ _ _ _ hm
  cases hm

theorem acq (pick : Nat) : Statement (.acq pick) := by
  intro _ _ _ _ _ _ hm
  cases hm

theorem decode (reply : CodecReply) : Statement (.decode reply) := by
  intro _ _ _ _ _ _ hm
  cases hm

theorem finish : Statement (.finish) := by
  intro _ _ _ _ _ _ hm
  cases hm

theorem fatal (c : Cause) : Statement (.fatal c) := by
  intro _ _ _ _ _ _ hm
  cases hm

theorem reset : Statement (.reset) := by
  intro _ _ _ _ _ _ hm
  cases hm

end Sys2Proof.Laws.Row
end

