-- ==== Sys2Proof/Laws/Pool.lean ====
section
/-! SUPPORT. The pool: what Acquire, Release and a run of Releases can answer. -/

namespace Sys2Proof.Machine

/-- Acquire waits exactly where FREE = ∅ (R54). -/
theorem acquire_eq_none_iff (pick : Nat) (free : List Slot) : acquire pick free = none ↔ free = [] := by
  unfold acquire
  constructor
  · intro h
    by_contra hne
    have hlen : 0 < free.length := List.length_pos_iff.2 hne
    rw [List.getElem?_eq_getElem (Nat.mod_lt pick hlen)] at h
    simp at h
  · rintro rfl
    simp

/-- Acquire answers a slot of FREE and FREE without it (R54). -/
theorem acquire_some {pick : Nat} {free f : List Slot} {x : Slot} (h : acquire pick free = some (x, f)) :
    x ∈ free ∧ f = free.erase x := by
  unfold acquire at h
  split at h
  · simp at h
  · rename_i y hy
    simp only [Option.some.injEq, Prod.mk.injEq] at h
    obtain ⟨rfl, rfl⟩ := h
    exact ⟨List.mem_of_getElem? hy, rfl⟩

/-- Every slot of FREE is some draw's (R54: "choose one slot s ∈ FREE"). -/
theorem acquire_any {free : List Slot} {x : Slot} (h : x ∈ free) :
    ∃ pick, acquire pick free = some (x, free.erase x) := by
  obtain ⟨i, hi, hx⟩ := List.getElem_of_mem h
  refine ⟨i, ?_⟩
  unfold acquire
  rw [Nat.mod_eq_of_lt hi, List.getElem?_eq_getElem hi, hx]

theorem mem_insertSlot (x y : Slot) (free : List Slot) : y ∈ insertSlot x free ↔ y = x ∨ y ∈ free := by
  induction free with
  | nil => simp [insertSlot]
  | cons z zs ih =>
    simp only [insertSlot]
    split
    · simp
    · split
      · rename_i h
        subst h
        simp
      · simp only [List.mem_cons, ih]
        tauto

theorem insertSlot_rising {x : Slot} {free : List Slot} (h : free.Pairwise (· < ·)) :
    (insertSlot x free).Pairwise (· < ·) := by
  induction free with
  | nil => simp [insertSlot]
  | cons y ys ih =>
    rw [List.pairwise_cons] at h
    simp only [insertSlot]
    split
    · rename_i hx
      rw [List.pairwise_cons, List.pairwise_cons]
      refine ⟨?_, h⟩
      intro z hz
      rcases List.mem_cons.1 hz with rfl | hz
      · exact hx
      · exact lt_trans hx (h.1 z hz)
    · split
      · exact List.pairwise_cons.2 h
      · rename_i h1 h2
        rw [List.pairwise_cons]
        refine ⟨fun z hz => ?_, ih h.2⟩
        rcases (mem_insertSlot x z ys).1 hz with rfl | hz
        · exact lt_of_le_of_ne (not_lt.1 h1) (Ne.symm h2)
        · exact h.1 z hz

/-- Release raises exactly on a slot already free (R55). -/
theorem release_eq_none_iff (x : Slot) (free : List Slot) : release x free = none ↔ x ∈ free := by
  unfold release
  split <;> simp_all

/-- Release of a slot that is not free puts it into FREE (R55). -/
theorem release_of_not_mem {x : Slot} {free : List Slot} (h : x ∉ free) :
    release x free = some (insertSlot x free) := by
  simp [release, h]

/-- A run of Releases that completes adds exactly its slots (R135, R163). -/
theorem releaseAll_ok {xs free f : List Slot} (h : releaseAll xs free = .ok f) (y : Slot) :
    y ∈ f ↔ y ∈ free ∨ y ∈ xs := by
  induction xs generalizing free with
  | nil =>
    simp only [releaseAll, Except.ok.injEq] at h
    simp [h]
  | cons x xs ih =>
    simp only [releaseAll] at h
    split at h
    · simp at h
    · rename_i f1 hr
      have hx : x ∉ free := fun hm => by simp [(release_eq_none_iff x free).2 hm] at hr
      rw [release_of_not_mem hx, Option.some.injEq] at hr
      subst hr
      rw [ih h, mem_insertSlot, List.mem_cons]
      tauto

/-- Releases of distinct slots none of which is free complete (R185: only a double free raises). -/
theorem releaseAll_completes {xs free : List Slot} (hd : xs.Nodup) (hf : ∀ x ∈ xs, x ∉ free) :
    ∃ f, releaseAll xs free = .ok f := by
  induction xs generalizing free with
  | nil => exact ⟨free, rfl⟩
  | cons x xs ih =>
    rw [List.nodup_cons] at hd
    simp only [releaseAll, release_of_not_mem (hf x (by simp))]
    apply ih hd.2
    intro y hy hm
    rcases (mem_insertSlot x y free).1 hm with rfl | hm
    · exact hd.1 hy
    · exact hf y (by simp [hy]) hm

/-- At the first double free the run of Releases stops with FREE as the Releases before it left it (R185, R186). -/
theorem releaseAll_double {pre post free : List Slot} {x : Slot} (hd : pre.Nodup) (hf : ∀ y ∈ pre, y ∉ free)
    (hx : x ∈ free ∨ x ∈ pre) :
    ∃ f, releaseAll (pre ++ x :: post) free = .error f ∧ ∀ y, y ∈ f ↔ y ∈ free ∨ y ∈ pre := by
  induction pre generalizing free with
  | nil =>
    have hm : x ∈ free := by simpa using hx
    exact ⟨free, by simp [releaseAll, (release_eq_none_iff x free).2 hm], by simp⟩
  | cons z pre ih =>
    rw [List.nodup_cons] at hd
    simp only [List.cons_append, releaseAll, release_of_not_mem (hf z (by simp))]
    obtain ⟨f, hr, hfm⟩ := ih (free := insertSlot z free) hd.2
      (fun y hy hm => by
        rcases (mem_insertSlot z y free).1 hm with rfl | hm
        · exact hd.1 hy
        · exact hf y (by simp [hy]) hm)
      (by rw [mem_insertSlot]; simp only [List.mem_cons] at hx; tauto)
    exact ⟨f, hr, fun y => by rw [hfm, mem_insertSlot, List.mem_cons]; tauto⟩

theorem releaseAll_rising {xs free f : List Slot} (h : releaseAll xs free = .ok f)
    (hr : free.Pairwise (· < ·)) : f.Pairwise (· < ·) := by
  induction xs generalizing free with
  | nil =>
    simp only [releaseAll, Except.ok.injEq] at h
    exact h ▸ hr
  | cons x xs ih =>
    simp only [releaseAll] at h
    split at h
    · simp at h
    · rename_i f1 hx
      have hx' : x ∉ free := fun hm => by simp [(release_eq_none_iff x free).2 hm] at hx
      rw [release_of_not_mem hx', Option.some.injEq] at hx
      exact ih h (hx ▸ insertSlot_rising hr)

theorem mem_poolSlots (n : Nat) (x : Slot) : x ∈ poolSlots n ↔ x.val < 2 * n := by
  simp [poolSlots]

theorem poolSlots_rising (n : Nat) : (poolSlots n).Pairwise (· < ·) :=
  List.Pairwise.filter _ (List.pairwise_lt_finRange 64)

end Sys2Proof.Machine
end

