-- ==== Sys2Proof/Laws/Steps.lean ====
section
/-! SUPPORT. What the shared operations of the steps can answer, said once. -/

namespace Sys2Proof.Machine

@[simp] theorem hold_eq (s : State) : hold s = .next s := rfl

theorem framerOn_iff (s : State) : framerOn s = true ↔ s.run = .running ∧ s.subActive = true := by
  simp [framerOn]

theorem workerIn_iff (p : Wph) (s : State) : workerIn p s = true ↔ s.run = .running ∧ s.wph = p := by
  simp [workerIn]

/-- The fatal entry's writes, with or without an active SUBMIT (R186). -/
theorem raiseFatal_eq (c : Cause) (s : State) :
    raiseFatal c s = { s with
      run := .fatal, fatalCause := some c, wph := .halted, subActive := false
      outs := s.outs ++ (if s.subActive = true then [.data (resp32 .failFatal s.subPos)] else []) } := by
  unfold raiseFatal
  cases h : s.subActive
  · cases s
    simp_all
  · simp [completeSubmit, respondData, send]

/-- ACCEPT restricted to a class runs its action on the FIFO head, or holds. -/
theorem acceptAs_cases (c : PacketClass) (h : Header) (s : State) (act : Desc → List Desc → Result) :
    (∃ d rest, s.fifo = d :: rest ∧ s.run = .running ∧ s.wph = .idle ∧ d.hdr = h ∧ packetClass s h = c
        ∧ acceptAs c h s act = act d rest)
      ∨ acceptAs c h s act = hold s := by
  unfold acceptAs
  split
  · exact .inr rfl
  · rename_i d rest hf
    split
    · rename_i hg
      have hw := (workerIn_iff .idle s).1 hg.1
      exact .inl ⟨d, rest, hf, hw.1, hw.2, hg.2.1, hg.2.2, rfl⟩
    · exact .inr rfl

/-- A class's action runs where ACCEPT's guard holds and the head has the header and the class. -/
theorem acceptAs_run {c : PacketClass} {h : Header} {s : State} {act : Desc → List Desc → Result} {d : Desc}
    {rest : List Desc} (hf : s.fifo = d :: rest) (hr : s.run = .running) (hw : s.wph = .idle) (hd : d.hdr = h)
    (hc : packetClass s h = c) : acceptAs c h s act = act d rest := by
  unfold acceptAs
  rw [hf]
  simp [workerIn, hr, hw, hd, hc]

/-- Discard releases the slot and drops the descriptor, or raises Fatal(POOL) on a double free (R130, R55). -/
theorem discard_cases (v : Verdict) (s : State) (d : Desc) (rest : List Desc) :
    (d.slot ∈ s.free ∧ discard v s d rest = .next (raisePool s.free s))
      ∨ (d.slot ∉ s.free
          ∧ discard v s d rest = .next (label v { s with fifo := rest, free := insertSlot d.slot s.free })) := by
  unfold discard
  by_cases h : d.slot ∈ s.free
  · exact .inl ⟨h, by simp [(release_eq_none_iff _ _).2 h]⟩
  · exact .inr ⟨h, by simp [release_of_not_mem h]⟩

/-- An illegal word is answered, or waits on a busy data port; it does nothing else (R83). -/
theorem illegalWord_cases (p : Port) (s : State) :
    (p = .control ∧ illegalWord p s = .next (respondControl .errIllegalOp s))
      ∨ (p = .data ∧ s.subActive = false ∧ illegalWord p s = .next (respondData .errIllegalOp 0#16 s))
      ∨ (p = .data ∧ s.subActive = true ∧ illegalWord p s = .next s) := by
  unfold illegalWord
  cases p
  · simp
  · cases s.subActive <;> simp

/-- ACCEPT on a FIFO head is the row of the head's class (R74, R130). -/
theorem execAccept_eq {s : State} {d : Desc} {rest : List Desc} (h : s.fifo = d :: rest) :
    execAccept s = exec (classInstr (packetClass s d.hdr) d.hdr) s := by
  unfold execAccept
  rw [h]
  simp only
  cases packetClass s d.hdr <;> rfl

/-- ACCEPT on an empty FIFO holds (R130). -/
theorem execAccept_empty {s : State} (h : s.fifo = []) : execAccept s = .next s := by
  unfold execAccept
  rw [h]
  rfl

/-- There is an offer exactly in a running EMIT phase with NEXT < LIMIT (R38). -/
theorem offer_eq (s : State) :
    offer s =
      if s.run = .running ∧ s.wph = .emit ∧ s.next < s.limit then
        some (.ready (offerLen s (dataAt s s.next.val))
          (memRead s (dataAt s s.next.val).slot 0 (offerLen s (dataAt s s.next.val)).toNat))
      else none := by
  simp [offer, workerIn, and_assoc]

/-- One step is one turn: an instruction, a turn with nothing to do, or a short SUBMIT (R7, R8). -/
theorem step_cases (s : State) :
    (∃ i, fetchTurn (nextTurn s).1 (nextTurn s).2 = .run i ∧ step s = exec i (nextTurn s).2)
      ∨ (fetchTurn (nextTurn s).1 (nextTurn s).2 = .wait ∧ step s = .next (nextTurn s).2)
      ∨ (fetchTurn (nextTurn s).1 (nextTurn s).2 = .bad .shortSubmit ∧ step s = .refused .shortSubmit) := by
  unfold step
  cases fetchTurn (nextTurn s).1 (nextTurn s).2 with
  | run i => exact .inl ⟨i, rfl, rfl⟩
  | wait => exact .inr (.inl ⟨rfl, rfl⟩)
  | bad e => cases e; exact .inr (.inr ⟨rfl, rfl⟩)

/-- Taking the next turn changes the turns to come and the step count, nothing else. -/
theorem nextTurn_state (s : State) :
    (nextTurn s).2 = { s with sched := s.sched.tail, tick := s.tick + 1 } := by
  unfold nextTurn
  split
  · rename_i h
    simp [h]
  · rename_i t ts h
    simp [h]

/-- The turn the state lists comes next. -/
theorem nextTurn_cons {s : State} {t : Turn} {ts : List Turn} (h : s.sched = t :: ts) :
    nextTurn s = (t, { s with sched := ts, tick := s.tick + 1 }) := by
  unfold nextTurn
  rw [h]

/-- BuildShares makes one source and one index for each data index it walks over. -/
theorem buildFrom_length {s : State} {is r : List Nat} {b : Shares} (h : buildFrom s is r = .ok b) :
    b.idx.length = is.length ∧ b.src.length = is.length := by
  induction is generalizing r b with
  | nil =>
    simp only [buildFrom, Except.ok.injEq] at h
    subst h
    simp
  | cons i is ih =>
    simp only [buildFrom] at h
    split at h
    · simp at h
    · split at h
      · split at h
        · rename_i b' hb
          simp only [Except.ok.injEq] at h
          subst h
          simpa using ih hb
        · simp at h
      · split at h
        · simp at h
        · split at h
          · rename_i b' hb
            simp only [Except.ok.injEq] at h
            subst h
            simpa using ih hb
          · simp at h

/-- BuildShares reads the two collections, CFG_K and CFG_N. -/
theorem buildFrom_congr {s u : State} (hd : ∀ i, dataAt u i = dataAt s i) (hr : ∀ q, redAt u q = redAt s q)
    (is r : List Nat) : buildFrom u is r = buildFrom s is r := by
  induction is generalizing r with
  | nil => rfl
  | cons i is ih =>
    unfold buildFrom
    simp only [hd, hr, ih]

/-- Taking the next turn does not change what BuildShares makes. -/
@[simp] theorem buildShares_nextTurn (s : State) : buildShares (nextTurn s).2 = buildShares s := by
  rw [nextTurn_state]
  exact buildFrom_congr (u := { s with sched := s.sched.tail, tick := s.tick + 1 }) (s := s)
    (fun _ => rfl) (fun _ => rfl) _ _

/-- The attached codec's answer has the shape of R86. -/
theorem codecReply_fits {draw k mtu m : Nat} {idx : List Nat} {src dst : List (List Byte)}
    (h : Config.codecReply draw k mtu idx src m = .ok dst) : replyFits m mtu dst = true := by
  unfold Config.codecReply at h
  split at h
  · simp at h
  · rw [CodecReply.ok.injEq] at h
    subst h
    simp [replyFits]

theorem replyFits_iff (m mtu : Nat) (dst : List (List Byte)) :
    replyFits m mtu dst = true ↔ dst.length = m ∧ ∀ d ∈ dst, d.length = mtu := by
  simp [replyFits]

end Sys2Proof.Machine
end

