-- ==== Sys2Proof/Tests/Slice0.lean ====
section
/-! SUPPORT. The model's own tests: words and packets of 95_test_vectors.md, one step at a time, and a witness for the hypotheses of each statement. -/

namespace Sys2Proof.Tests
open Sys2Proof Sys2Proof.Machine

/-! ## Small states -/

/-- The next state, if the answer is one. -/
def nextOf (r : Result) : Option State :=
  match r with
  | .next t => some t
  | .fault _ => none
  | .refused _ => none

/-- The name of the fault, if the answer is one. -/
def faultOf (r : Result) : Option Fault :=
  match r with
  | .next _ => none
  | .fault f => some f
  | .refused _ => none

theorem exists_next {r : Result} (h : (nextOf r).isSome = true) : ∃ t, r = .next t := by
  cases r with
  | next t => exact ⟨t, rfl⟩
  | fault f => simp [nextOf] at h
  | refused f => simp [nextOf] at h

/-- What an outside observer sees of the answer: the ports' transactions. -/
def outsOf (r : Result) : Option (List Output) := (nextOf r).map State.outs

/-- Configuration A of 95_test_vectors.md, just after `INIT k=2 n=3 mtu=4`. -/
def confA : State :=
  { State.reset with run := .running, cfgK := 2, cfgN := 3, cfgMtu := 4#16, qEff := 2, free := poolSlots 3 }

/-- Configuration A with an active SUBMIT at position `pos`. -/
def sub (blk : Bool) (pos : Nat) (bytes : List Byte) : State :=
  { confA with
    subActive := true, subBlk := blk, subLen := BitVec.ofNat 16 bytes.length, subPos := BitVec.ofNat 16 pos
    subData := bytes }

/-- The 10 bytes of vector F1: a packet (0, 0, 4) with payload 11 22 33 44. -/
def bytesF1 : List Byte := [0x00, 0x00, 0x00, 0x00, 0x04, 0x00, 0x11, 0x22, 0x33, 0x44]

/-- Framer in PAY with `c` payload bytes in slot 5, at byte `6 + c` of F1. -/
def payState (c : Nat) : State :=
  { sub true (6 + c) bytesF1 with
    frPhase := .pay, frHcnt := 6, frPs := 4#16, frPcnt := BitVec.ofNat 16 c
    frSlot := if c = 0 then none else some 5
    free := if c = 0 then poolSlots 3 else [0, 1, 2, 3, 4] }

/-- Framer in ENQ with the packet (0, 0, 4) in slot 5 and `n` descriptors in the FIFO. -/
def enqState (blk : Bool) (n : Nat) : State :=
  { sub blk 10 bytesF1 with
    frPhase := .enq, frHcnt := 6, frPs := 4#16, frPcnt := 4#16, frSlot := some 5
    fifo := (List.range n).map fun i => ⟨Fin.ofNat 64 i, ⟨0#24, BitVec.ofNat 8 i, 4#16⟩⟩
    free := ([0, 1, 2, 3, 4] : List Slot).drop n }

/-- Configuration A, idle, CBI = `cbi`, with one descriptor (slot 5) at the FIFO's head. -/
def headA (cbi : Nat) (bi pi ps : Nat) : State :=
  { confA with
    cbi := BitVec.ofNat 24 cbi, free := [0, 1, 2, 3, 4]
    fifo := [⟨5, ⟨BitVec.ofNat 24 bi, BitVec.ofNat 8 pi, BitVec.ofNat 16 ps⟩⟩] }

/-- The header of a packet. -/
def hdr (bi pi ps : Nat) : Header := ⟨BitVec.ofNat 24 bi, BitVec.ofNat 8 pi, BitVec.ofNat 16 ps⟩

/-- A received share of size 4. -/
def share (x : Slot) (disp : Bool) : DataEntry := ⟨true, x, 4#16, false, disp⟩

/-- 11 22 33 44 in slot 0, 55 66 77 88 in slot 1, 44 44 44 CC in slot 2. -/
def bufA : Memory :=
  [(0, 0x11), (1, 0x22), (2, 0x33), (3, 0x44), (65536, 0x55), (65537, 0x66), (65538, 0x77), (65539, 0x88),
   (131072, 0x44), (131073, 0x44), (131074, 0x44), (131075, 0xCC)]

/-- Configuration A with DATA[0] (slot 0) held and dispatched. -/
def heldA (s : State) : State :=
  { setData s 0 (share 0 true) with next := 1, limit := 1, free := [1, 2, 3, 4], buf := bufA }

/-- X3 in DECODE: DATA[1] in slot 1, RED[2] in slot 2, DATA[0] rebuilt into slot 3. -/
def decodeA : State :=
  { setRed (setData (setData confA 1 (share 1 false)) 0 ⟨true, 3, 4#16, true, false⟩) 2 ⟨true, 2⟩ with
    wph := .decode, kind := .recon, free := [0, 4, 5], buf := bufA }

/-- X3 in ACQ: DATA[1] in slot 1, RED[2] in slot 2, nothing rebuilt yet. -/
def acqA : State :=
  { setRed (setData confA 1 (share 1 false)) 2 ⟨true, 2⟩ with
    wph := .acq, kind := .recon, free := [0, 3, 4, 5], buf := bufA }

/-- X2 at the end: DATA[0] in slot 0 and DATA[1] in slot 1, both dispatched, WPH = FINISH, CBI = 0xFFFFFF (E8). -/
def finishA : State :=
  { setData (setData confA 0 (share 0 true)) 1 (share 1 true) with
    wph := .finish, kind := .direct, next := 2, limit := 2, cbi := 0xFFFFFF#24, free := [2, 3, 4, 5], buf := bufA }

/-- The offer of DATA[0] in configuration A. -/
def emitA : State :=
  { setData confA 0 (share 0 false) with wph := .emit, limit := 1, free := [1, 2, 3, 4, 5], buf := bufA }

/-- S3: FATAL CODEC, DATA[0] (rebuilt) in slot 2, DATA[1] in slot 0, RED[2] in slot 1. -/
def fatalA : State :=
  { setRed (setData (setData confA 1 (share 0 false)) 0 ⟨true, 2, 4#16, true, false⟩) 2 ⟨true, 1⟩ with
    run := .fatal, fatalCause := some .codec, wph := .halted, kind := .recon, free := [3, 4, 5] }

/-- X8 in DECODE: k = 1, n = 2, mtu = 2, RED[1] = AB CD in slot 0, DATA[0] rebuilt into slot 1. -/
def decodeX8 : State :=
  { setRed (setData State.reset 0 ⟨true, 1, 2#16, true, false⟩) 1 ⟨true, 0⟩ with
    run := .running, cfgK := 1, cfgN := 2, cfgMtu := 2#16, qEff := 1, wph := .decode, kind := .recon
    free := [2, 3], buf := [(0, 0xAB), (1, 0xCD)]
    sched := [.worker ⟨true, 0, some (.ok [[0xAB, 0xCD]])⟩] }

/-- X8 in ACQ with the framer holding slot 1 and one descriptor waiting: the fullest pool an ACQ can meet. -/
def acqX8 : State :=
  { setRed State.reset 1 ⟨true, 0⟩ with
    run := .running, cfgK := 1, cfgN := 2, cfgMtu := 2#16, qEff := 1, wph := .acq, kind := .recon
    free := [3], buf := [(0, 0xAB), (1, 0xCD)]
    frPhase := .pay, frHcnt := 6, frSlot := some 1, frPcnt := 1#16, fifo := [⟨2, ⟨0#24, 0#8, 2#16⟩⟩] }

/-! ## Well-formedness: an ill-formed term for each check is refused -/

theorem test_wf_submit_length : (Instr.submit true 2 [0x11]).wf = false := by decide
theorem test_wf_submit_ok : (Instr.submit true 2 [0x11, 0x22]).wf = true := by decide
theorem test_wf_submit_bits : (Instr.illegalSubmitReservedBits 0x000A0012).wf = false := by decide
theorem test_wf_stop_status_bits : (Instr.illegalStopStatusBits 0x00000003).wf = false := by decide
theorem test_wf_wrong_port : (Instr.illegalWrongPort .control 0x00000004).wf = false := by decide

/-! ## Decoding: words written out from R76 to R80 -/

/-- R77: MTU ++ N ++ K ++ 0001. -/
theorem test_decode_init :
    decodeControl (0b0000000010000000_000110_000100_0001#32) = .init 4 6 128 := by decide
/-- K4: INIT k=31 n=32 mtu=1. -/
theorem test_decode_init_k4 : decodeControl 0x000181F1 = .init 31 32 1 := by decide
/-- R78: LEN ++ zeros ++ BLK ++ 0010, non-blocking. -/
theorem test_decode_submit :
    decodeData (0b0000000000000011_00000000000_0_0010#32) [1, 2, 3, 4] = .ok (.submit false 3 [1, 2, 3], [4]) := rfl
/-- R78: a blocking SUBMIT of 134 bytes is 0x00860012. -/
theorem test_decode_submit_134 : encode (.submit true 134 []) = .command .data 0x00860012 [] := by decide
theorem test_decode_submit_short : decodeData 0x00020012 [0x11] = .error .shortSubmit := rfl
theorem test_decode_stop : decodeControl 0x00000003 = .stop := by decide
theorem test_decode_status : decodeControl 0x00000004 = .status := by decide
theorem test_decode_op0 : decodeControl 0x00000000 = .reservedOp0 .control 0 := by decide
theorem test_decode_op5 : decodeControl 0x00000005 = .reservedOp5 .control 0 := by decide
theorem test_decode_op6 : decodeControl 0xFFFFFFF6 = .reservedOp6 .control 0xFFFFFFF := by decide
theorem test_decode_op7 : decodeData 0x00000017 [] = .ok (.reservedOp7 .data 1, []) := rfl
theorem test_decode_op8 : decodeControl 0x00000008 = .reservedOp8 .control 0 := by decide
theorem test_decode_op9 : decodeControl 0x00000009 = .reservedOp9 .control 0 := by decide
theorem test_decode_op10 : decodeControl 0x0000000A = .reservedOp10 .control 0 := by decide
theorem test_decode_op11 : decodeControl 0x0000000B = .reservedOp11 .control 0 := by decide
theorem test_decode_op12 : decodeControl 0x8000000C = .reservedOp12 .control 0x8000000 := by decide
theorem test_decode_op13 : decodeControl 0x0000000D = .reservedOp13 .control 0 := by decide
theorem test_decode_op14 : decodeData 0x0000000E [7] = .ok (.reservedOp14 .data 0, [7]) := rfl
theorem test_decode_op15 : decodeControl 0x0000000F = .reservedOp15 .control 0 := by decide
/-- K17: its bytes stay on the port. -/
theorem test_decode_submit_bits :
    decodeData 0x000A0032 [1] = .ok (.illegalSubmitReservedBits 0x000A0032, [1]) := rfl
/-- K20. -/
theorem test_decode_stop_bits : decodeControl 0x00000013 = .illegalStopStatusBits 0x00000013 := by decide
theorem test_decode_status_top_bit : decodeControl 0x80000004 = .illegalStopStatusBits 0x80000004 := by decide
/-- K21, K22. -/
theorem test_decode_wrong_port : decodeControl 0x000A0012 = .illegalWrongPort .control 0x000A0012 := by decide
theorem test_decode_wrong_port_data :
    decodeData 0x00000004 [] = .ok (.illegalWrongPort .data 0x00000004, []) := rfl

/-- H2: 56 34 12 05 80 00. -/
theorem test_parse_h2 : parseHeader #v[0x56, 0x34, 0x12, 0x05, 0x80, 0x00] = ⟨0x123456, 5, 128⟩ := by decide
/-- H4: 01 00 00 03 00 01. -/
theorem test_parse_h4 : parseHeader #v[0x01, 0x00, 0x00, 0x03, 0x00, 0x01] = ⟨1, 3, 256⟩ := by decide
/-- H7: 00 00 80 00 00 00. -/
theorem test_seal_h7 : sealHeader ⟨0x800000, 0, 0⟩ = #v[0x00, 0x00, 0x80, 0x00, 0x00, 0x00] := by decide

/-- The table word of a packet header is its little-endian word W (R71), here H6: 05 00 00 02 04 00. -/
theorem test_table_header :
    decodeTableWord 48 0x000402000005 = some (.pktMalformedIndex ⟨5, 2, 4⟩) := by decide
theorem test_table_submit : decodeTableWord 32 0x0000332211_00030012 = some (.submit true 3 [0x11, 0x22, 0x33]) := by decide
/-- The very next step after `withFetchWord` runs the word: STATUS from reset (K14). -/
theorem test_fetch_status :
    outsOf (step (State.reset.withFetchWord 32 0x00000004)) = some [.ctrl 0, .status 0 0 0 0] := by decide
/-- And a header reaches ACCEPT, which discards it as MALFORMED_INDEX while CFG_N = 0. -/
theorem test_fetch_header :
    (nextOf (step (State.reset.withFetchWord 48 0x000402000005))).map (fun t => (t.fifo, t.verdicts))
      = some ([], [.malformedIndex]) := by decide

/-! ## Packet classes (R74; V1 to V11) -/

theorem test_class_v1 : packetClass confA (hdr 0 3 4) = .malformedIndex := by decide
theorem test_class_v3 : packetClass confA (hdr 7 3 4) = .malformedIndex := by decide
theorem test_class_v5 : packetClass confA (hdr 7 0 5) = .malformedSize := by decide
theorem test_class_v6 : packetClass confA (hdr 0 2 0xFFFF) = .red := by decide
theorem test_class_v7 : packetClass { confA with cbi := 1#24 } (hdr 0 0 4) = .stale := by decide
theorem test_class_v8 : packetClass { confA with cbi := 0xFFFFFF#24 } (hdr 0xFFFFFF 0 4) = .data := by decide
theorem test_class_v9 : packetClass (heldA confA) (hdr 3 1 4) = .supersede := by decide
theorem test_class_v10 : packetClass (heldA confA) (hdr 0 0 4) = .dupData := by decide
theorem test_class_v11 : packetClass acqA (hdr 0 2 4) = .dupRed := by decide

/-! ## Commands -/

/-- K1: Q_EFF = 5, |FREE| = 12. -/
theorem test_init_k1 :
    (nextOf (exec (.init 4 6 128) State.reset)).map (fun t => (t.outs, t.qEff, t.free.length, t.run))
      = some ([.ctrl 0], 5, 12, .running) := by decide
/-- K7 (n = 33) and K5 (k = n): ERR_CONFIG. -/
theorem test_init_err_config :
    outsOf (exec (.init 1 33 4) State.reset) = some [.ctrl 5] ∧ outsOf (exec (.init 32 32 1) State.reset) = some [.ctrl 5] := by
  decide
/-- E6: the held SUBMIT answers FAIL_STOPPED consumed=10, STOP answers OK. -/
theorem test_stop_e6 : outsOf (exec .stop (enqState true 2)) = some [.data 0x000A0003, .ctrl 0] := by decide
/-- E3: |FREE| = 6, RUN = STOPPED, no cause. -/
theorem test_stop_e3 :
    (nextOf (exec .stop fatalA)).map (fun t => (t.run, t.fatalCause, t.free.length)) = some (.stopped, none, 6) := by decide
/-- S3. -/
theorem test_status_s3 :
    outsOf (exec .status fatalA)
      = some [.ctrl 0, .status 0x00000056 0x00000003 0x00000003 0x00000004] := by decide
/-- S1. -/
theorem test_status_s1 :
    outsOf (exec .status { setData confA 0 (share 0 true) with cbi := 5#24, next := 1, limit := 1, free := [1, 2, 3, 4, 5] })
      = some [.ctrl 0, .status 0x00000501 0x00010005 0x00000001 0x00000000] := by decide
/-- K15 and E1. -/
theorem test_submit_rejected :
    outsOf (exec (.submit true 1 [0]) State.reset) = some [.data 0x00000003]
      ∧ outsOf (exec (.submit true 1 [0]) fatalA) = some [.data 0x00000004] := by decide
theorem test_submit_starts :
    (nextOf (exec (.submit true 10 bytesF1) confA)).map (fun t => (t.subActive, t.subLen, t.subPos, t.outs))
      = some (true, 10, 0, []) := by decide
/-- K18 and K22: ERR_ILLEGAL_OP on the port that took the word. -/
theorem test_illegal_words :
    outsOf (exec (.reservedOp0 .control 0) confA) = some [.ctrl 7]
      ∧ outsOf (exec (.illegalWrongPort .data 0x00000004) fatalA) = some [.data 7] := by decide

/-! ## Framer -/

/-- The sixth header byte of H2 parses the header. -/
theorem test_hdr_byte_parses :
    (nextOf (exec .fHdrByte { sub true 5 [0x56, 0x34, 0x12, 0x05, 0x80, 0x00] with
      frHcnt := 5, frHdr := #v[0x56, 0x34, 0x12, 0x05, 0x80, 0xEE] })).map
      (fun t => (t.frBi, t.frPi, t.frPs, t.frPhase, t.subPos)) = some (0x123456, 5, 128, .pay, 6) := by decide
/-- F2: the third byte is kept, the phase stays HDR. -/
theorem test_hdr_byte_keeps :
    (nextOf (exec .fHdrByte { sub true 2 [0x00, 0x00, 0x07] with frHcnt := 2 })).map
      (fun t => (t.frHcnt, t.frHdr[2], t.frPhase)) = some (3, 0x07, .hdr) := by decide
/-- The first payload byte takes the drawn slot out of FREE and is stored at its offset 0. -/
theorem test_pay_byte_acquires :
    (nextOf (exec (.fPayByte 5) (payState 0))).map (fun t => (t.frSlot, t.free, t.buf, t.frPhase))
      = some (some 5, [0, 1, 2, 3, 4], [(327680, 0x11)], .pay) := by decide
/-- R107's example: byte 0x44 goes to offset 3 and FR_PHASE becomes ENQ. -/
theorem test_pay_byte_last :
    (nextOf (exec (.fPayByte 0) (payState 3))).map (fun t => (t.buf, t.frPcnt, t.frPhase))
      = some ([(327683, 0x44)], 4, .enq) := by decide
/-- F9. -/
theorem test_pool_fail :
    (nextOf (exec .fPoolFail { sub false 0 [0x11, 0x22, 0x33, 0x44] with frPhase := .pay, frHcnt := 6, free := [] })).map
      (fun t => (t.outs, t.subActive, t.frPhase)) = some ([.data 0x00000001], false, .pay) := by decide
/-- F1's F_ENQ behind one descriptor: the packet goes to the tail. -/
theorem test_enq :
    (nextOf (exec .fEnq (enqState true 1))).map (fun t => (t.fifo, t.frPhase, t.frSlot))
      = some ([⟨0, hdr 0 0 4⟩, ⟨5, hdr 0 0 4⟩], .hdr, none) := by decide
/-- F8: a full FIFO holds a blocking SUBMIT. -/
theorem test_enq_full : nextOf (exec .fEnq (enqState true 2)) = some (enqState true 2) := by decide
/-- F7: FAIL_FIFO_FULL consumed=10, the slot is released. -/
theorem test_fifo_fail :
    (nextOf (exec .fFifoFail (enqState false 2))).map (fun t => (t.outs, t.free, t.frPhase, t.frSlot))
      = some ([.data 0x000A0002], [2, 3, 4, 5], .hdr, none) := by decide
/-- F2: OK consumed=3, FR_HCNT = 3 kept. -/
theorem test_submit_done :
    (nextOf (exec .submitDone { sub true 3 [0, 0, 0] with frHcnt := 3 })).map (fun t => (t.outs, t.subActive, t.frHcnt))
      = some ([.data 0x00030000], false, 3) := by decide

/-! ## ACCEPT -/

/-- V1: the slot is released and nothing else changes. -/
theorem test_accept_v1 :
    (nextOf (exec .accept (headA 0 0 3 4))).map (fun t => (t.fifo, t.free, t.cbi, t.wph, t.verdicts))
      = some ([], [0, 1, 2, 3, 4, 5], 0, .idle, [.malformedIndex]) := by decide
/-- V4. -/
theorem test_malformed_size :
    (nextOf (exec (.pktMalformedSize (hdr 0 1 5)) (headA 0 0 1 5))).map (fun t => (t.free, (dataAt t 1).present))
      = some ([0, 1, 2, 3, 4, 5], false) := by decide
/-- V7. -/
theorem test_stale :
    (nextOf (exec (.pktStale (hdr 0 0 4)) (headA 1 0 0 4))).map (fun t => (t.free, t.cbi, t.verdicts))
      = some ([0, 1, 2, 3, 4, 5], 1, [.stale]) := by decide
/-- V9: DATA[0]'s slot is released, CBI = 3, DATA[1] held, NEXT = LIMIT = 0. -/
theorem test_supersede_v9 :
    (nextOf (exec (.pktSupersede (hdr 3 1 4)) (heldA (headA 0 3 1 4)))).map
      (fun t => (t.free, t.cbi, (dataAt t 0).present, dataAt t 1, t.next, t.limit))
      = some ([0, 1, 2, 3, 4], 3, false, share 5 false, 0, 0) := by decide
/-- V10: the copy is released, the held share stays. -/
theorem test_dup_data :
    (nextOf (exec (.pktDupData (hdr 0 0 4)) (heldA (headA 0 0 0 4)))).map (fun t => (t.free, dataAt t 0, t.wph))
      = some ([1, 2, 3, 4, 5], share 0 true, .idle) := by decide
/-- X2 at d0: LIMIT jumps 0 to 2, KIND = DIRECT. -/
theorem test_data_closes_gap :
    (nextOf (exec (.pktData (hdr 0 0 4)) { setData (headA 0 0 0 4) 1 (share 1 false) with free := [0, 2, 3, 4] })).map
      (fun t => (t.limit, t.kind, t.wph, dataAt t 0)) = some (2, .direct, .emit, share 5 false) := by decide
/-- V11. -/
theorem test_dup_red :
    (nextOf (exec (.pktDupRed (hdr 0 2 4)) { setRed (headA 0 0 2 4) 2 ⟨true, 0⟩ with free := [1, 2, 3, 4] })).map
      (fun t => (t.free, redAt t 2)) = some ([1, 2, 3, 4, 5], ⟨true, 0⟩) := by decide
/-- V6: RED[2] held, ps ignored, KIND NONE. -/
theorem test_red_v6 :
    (nextOf (exec (.pktRed (hdr 0 2 0xFFFF)) (headA 0 0 2 0xFFFF))).map (fun t => (redAt t 2, t.kind, t.limit, t.wph))
      = some (⟨true, 5⟩, .none, 0, .emit) := by decide
/-- X3 at r2: nd + nr = 2 = k gives RECON. -/
theorem test_red_recon :
    (nextOf (exec .accept { setData (headA 0 0 2 4) 1 (share 1 false) with free := [0, 2, 3, 4] })).map
      (fun t => (t.kind, t.limit)) = some (.recon, 0) := by decide

/-! ## Dispatch, reconstruction, finish -/

/-- P1: OUT len=4 11 22 33 44. -/
theorem test_emit :
    (nextOf (exec .emit emitA)).map (fun t => (t.outs, t.next, (dataAt t 0).disp))
      = some ([.ready 4 [0x11, 0x22, 0x33, 0x44]], 1, true) := by decide
/-- V12: s = 0 gives a zero-length transaction; V13: s = 2 gives two bytes. -/
theorem test_emit_short :
    outsOf (exec .emit (setData emitA 0 ⟨true, 0, 0#16, false, false⟩)) = some [.ready 0 []]
      ∧ outsOf (exec .emit (setData emitA 0 ⟨true, 0, 2#16, false, false⟩)) = some [.ready 2 [0x11, 0x22]] := by decide
theorem test_emit_done :
    (nextOf (exec .emitDone { emitA with next := 1 })).map State.wph = some .idle
      ∧ (nextOf (exec .emitDone { emitA with next := 1, kind := .recon })).map State.wph = some .acq := by decide
/-- X3: DATA[0] gets the drawn slot, is rebuilt, and WPH = DECODE. -/
theorem test_acq :
    (nextOf (exec (.acq 1) acqA)).map (fun t => (dataAt t 0, t.free, t.wph))
      = some (⟨true, 3, 4#16, true, false⟩, [0, 4, 5], .decode) := by decide
/-- X3: IDX = [2, 1], DST = [DATA[0]]. -/
theorem test_build_shares : buildShares decodeA = .ok ⟨[2, 1], [2, 1], [3]⟩ := rfl
theorem test_decode :
    (nextOf (exec (.decode (.ok [[0x11, 0x22, 0x33, 0x44]])) decodeA)).map
      (fun t => (memRead t 3 0 4, t.decoded, t.limit, t.wph)) = some ([0x11, 0x22, 0x33, 0x44], true, 2, .emit) := by decide
/-- X10: FATAL CODEC. -/
theorem test_decode_fail :
    (nextOf (exec (.decode .fail) decodeA)).map (fun t => (t.run, t.fatalCause, t.wph, t.decoded))
      = some (.fatal, some .codec, .halted, false) := by decide
/-- E8: CBI wraps, FREE = 0 .. 5. -/
theorem test_finish :
    (nextOf (exec .finish finishA)).map (fun t => (t.cbi, t.free, t.wph, (dataAt t 0).present, t.next))
      = some (0, [0, 1, 2, 3, 4, 5], .idle, false, 0) := by decide
/-- E5: FATAL answers the held SUBMIT FAIL_FATAL consumed=10. -/
theorem test_fatal :
    (nextOf (exec (.fatal .codec) (enqState true 2))).map (fun t => (t.outs, t.run, t.subActive, t.frSlot))
      = some ([.data 0x000A0004], .fatal, false, some 5) := by decide
/-- E7: an active SUBMIT gets no response. -/
theorem test_reset :
    (nextOf (exec .reset (enqState true 2))).map (fun t => (t.outs, t.run, t.free, t.cfgN, t.subActive))
      = some ([], .stopped, [], 0, false) := by decide

/-! ## Witnesses: concrete values that meet the hypotheses of each statement, clause by clause -/

theorem wit_CommandRoundTrip :
    (Instr.submit true 2 [0x11, 0x22]).wf = true
      ∧ encode (.submit true 2 [0x11, 0x22]) = .command .data 0x00020012 [0x11, 0x22]
      ∧ (Instr.submit false 0 []).wf = true ∧ encode (.submit false 0 []) = .command .data 0x00000002 []
      ∧ (Instr.illegalWrongPort .data 0x00000004).wf = true
      ∧ encode (.illegalWrongPort .data 0x00000004) = .command .data 0x00000004 [] := by decide

theorem wit_DecodedWordEncodesBack :
    decodeCommand .data 0x00020012 [0x11, 0x22, 0x33] = .ok (.submit true 2 [0x11, 0x22], [0x33])
      ∧ decodeCommand .control 0xFFFFFFFF [] = .ok (.reservedOp15 .control 0xFFFFFFF, []) := ⟨rfl, rfl⟩

/-- One turn of each kind; a word on a free and on a busy data port; a worker that has a step and one that has none. -/
theorem wit_StepRunsDecodedInstruction :
    (∀ t : Turn, { confA with sched := [t] }.sched = t :: [])
      ∧ confA.subActive = false ∧ decodeData 0x00000012 [] = .ok (.submit true 0 [], [])
      ∧ (sub true 0 []).subActive = true
      ∧ workerStep ⟨true, 0, none⟩ confA = some .accept ∧ workerStep ⟨false, 0, none⟩ emitA = none :=
  ⟨fun _ => rfl, rfl, rfl, rfl, rfl, by decide⟩

/-- A state in each worker phase, with the answer brought and not brought in DECODE, and with sources missing. -/
theorem wit_StepRunsDecodedInstruction_worker :
    confA.wph = .idle ∧ (emitA.wph = .emit ∧ emitA.next < emitA.limit)
      ∧ ({ emitA with next := 1 }.wph = .emit ∧ emitA.limit ≤ { emitA with next := 1 }.next) ∧ acqA.wph = .acq
      ∧ (decodeA.wph = .decode ∧ WorkerEnv.reply ⟨true, 0, some .fail⟩ = some .fail
          ∧ WorkerEnv.reply ⟨true, 0, none⟩ = none ∧ buildShares decodeA = .ok ⟨[2, 1], [2, 1], [3]⟩)
      ∧ ((setRed decodeA 2 ⟨false, 2⟩).wph = .decode
          ∧ buildShares (setRed decodeA 2 ⟨false, 2⟩) = .error .sourcesExhausted)
      ∧ finishA.wph = .finish ∧ fatalA.wph = .halted :=
  ⟨rfl, by decide, by decide, rfl, ⟨rfl, rfl, rfl, rfl⟩, ⟨rfl, rfl⟩, rfl, rfl⟩

/-- A state for each step the framer's phase selects: the last header byte of a SUBMIT and the end of it, a payload byte with and
without a free slot, and a completed packet before a full and a free FIFO. -/
theorem wit_StepRunsDecodedInstruction_framer :
    ((sub true 2 [1, 2, 3]).frPhase = .hdr ∧ (sub true 2 [1, 2, 3]).subPos < (sub true 2 [1, 2, 3]).subLen)
      ∧ ((sub true 3 [1, 2, 3]).frPhase ≠ .enq ∧ (sub true 3 [1, 2, 3]).subLen ≤ (sub true 3 [1, 2, 3]).subPos)
      ∧ ((payState 0).frPhase = .pay ∧ (payState 0).subPos < (payState 0).subLen ∧ (payState 0).free ≠ [])
      ∧ (∀ s ∈ [{ payState 0 with subBlk := false, free := [] }],
          s.frPhase = .pay ∧ s.subPos < s.subLen ∧ s.subBlk = false ∧ s.frSlot = none ∧ s.free = [])
      ∧ ((enqState false 2).frPhase = .enq ∧ (enqState false 2).subBlk = false
          ∧ (enqState false 2).fifo.length = (enqState false 2).qEff.val)
      ∧ ((enqState false 1).frPhase = .enq ∧ (enqState false 1).fifo.length ≠ (enqState false 1).qEff.val) := by decide

theorem wit_StepTakesFreeTurn : State.reset.sched = [] := rfl

theorem wit_OfferWaitsForConsumer :
    { emitA with sched := [.worker ⟨false, 0, none⟩] }.sched = .worker ⟨false, 0, none⟩ :: []
      ∧ { emitA with sched := [.worker ⟨false, 0, none⟩] }.wph = .emit
      ∧ { emitA with sched := [.worker ⟨false, 0, none⟩] }.next < { emitA with sched := [.worker ⟨false, 0, none⟩] }.limit := by
  decide

/-- Busy; invalid at k = n; valid at both ends of the ranges. -/
theorem wit_InitCommand :
    confA.run ≠ .stopped ∧ State.reset.run = .stopped
      ∧ ¬ (1 ≤ (32#6).toNat ∧ (32#6).toNat < (32#6).toNat ∧ (32#6).toNat ≤ 32 ∧ 1 ≤ (1#16).toNat
            ∧ (1#16).toNat ≤ State.reset.par.mtuMax)
      ∧ (1 ≤ (31#6).toNat ∧ (31#6).toNat < (32#6).toNat ∧ (32#6).toNat ≤ 32 ∧ 1 ≤ (65535#16).toNat
            ∧ (65535#16).toNat ≤ State.reset.par.mtuMax)
      ∧ (1 ≤ (1#6).toNat ∧ (1#6).toNat < (2#6).toNat ∧ (2#6).toNat ≤ 32 ∧ 1 ≤ (1#16).toNat
            ∧ (1#16).toNat ≤ State.reset.par.mtuMax) := by decide

theorem wit_StopCommand : State.reset.run = .stopped ∧ (enqState true 2).run ≠ .stopped ∧ fatalA.run ≠ .stopped := by
  decide

theorem wit_SubmitCommand :
    (sub true 0 []).subActive = true ∧ State.reset.subActive = false ∧ State.reset.run = .stopped
      ∧ fatalA.subActive = false ∧ fatalA.run = .fatal ∧ confA.subActive = false ∧ confA.run = .running := by decide

theorem wit_IllegalWordsAnswered :
    illegalPort (.reservedOp0 .control 0) = some .control ∧ illegalPort (.illegalStopStatusBits 0x13) = some .control
      ∧ illegalPort (.illegalSubmitReservedBits 0x000A0032) = some .data ∧ confA.subActive = false
      ∧ (sub true 0 []).subActive = true := by decide

/-- The first, the fifth and the sixth header byte. -/
theorem wit_HeaderByteStep :
    ∀ c : Fin 6, c = 0 ∨ c = 4 ∨ c = 5 →
      let s := { sub true c.val bytesF1 with frHcnt := Fin.ofNat 7 c.val }
      s.run = .running ∧ s.subActive = true ∧ s.subPos < s.subLen ∧ s.frPhase = .hdr ∧ s.frHcnt.val < 6
        ∧ s.subData[s.subPos.toNat]? = some (bytesF1.getD c.val 0) := by decide

/-- FREE empty; the last byte of a payload in the last slot of the pool; the first byte. -/
theorem wit_PayloadByteStep :
    (∀ s ∈ [{ payState 0 with free := [] }, payState 3, payState 0],
        s.run = .running ∧ s.subActive = true ∧ s.subPos < s.subLen ∧ s.frPhase = .pay
          ∧ (s.subData[s.subPos.toNat]?).isSome = true ∧ s.frPcnt < s.cfgMtu)
      ∧ (payState 0).frSlot = none
      ∧ ((payState 3).frSlot = some 5 ∧ (5 : Slot).val < 2 * (payState 3).cfgN.val)
      ∧ ((payState 0).free ≠ [] ∧ ∀ x ∈ (payState 0).free, x.val < 2 * (payState 0).cfgN.val) := by decide

theorem wit_PoolFailStep :
    let s := { sub false 0 [0x11, 0x22, 0x33, 0x44] with frPhase := .pay, frHcnt := 6, free := [] }
    s.run = .running ∧ s.subActive = true ∧ s.subBlk = false ∧ s.subPos < s.subLen ∧ s.frPhase = .pay
      ∧ s.frSlot = none ∧ s.free = [] := by decide

/-- One place left in the FIFO, and none. -/
theorem wit_EnqueueStep :
    (∀ s ∈ [enqState true 1, enqState true 2],
        s.run = .running ∧ s.subActive = true ∧ s.frPhase = .enq ∧ s.frSlot = some 5)
      ∧ (enqState true 1).fifo.length < (enqState true 1).qEff.val
      ∧ (enqState true 2).qEff.val ≤ (enqState true 2).fifo.length := by decide

theorem wit_FifoFailStep :
    let s := enqState false 2
    s.run = .running ∧ s.subActive = true ∧ s.subBlk = false ∧ s.frPhase = .enq ∧ s.fifo.length = s.qEff.val
      ∧ s.frSlot = some 5 ∧ 5 ∉ s.free := by decide

/-- LEN = 0, and a SUBMIT that ends in a payload. -/
theorem wit_SubmitDoneStep :
    ∀ s ∈ [sub true 0 [], { payState 2 with subPos := 10#16 }],
      s.run = .running ∧ s.subActive = true ∧ s.subPos = s.subLen ∧ s.frPhase ≠ .enq := by decide

/-- The same next byte at position 2 of one SUBMIT and at position 0 of another. -/
theorem wit_HeaderByteIgnoresSplit :
    let s := { sub true 2 [1, 2, 3] with frHcnt := 2 }
    let u := { sub false 0 [3, 4] with frHcnt := 2 }
    u = { s with subBlk := u.subBlk, subLen := u.subLen, subPos := u.subPos, subData := u.subData }
      ∧ s.subActive = true ∧ s.subPos < s.subLen ∧ u.subPos < u.subLen
      ∧ s.subData[s.subPos.toNat]? = u.subData[u.subPos.toNat]?
      ∧ (nextOf (exec .fHdrByte s)).isSome = true ∧ s.frPhase = .hdr := by decide

theorem wit_AcceptIsItsClassRow :
    confA.fifo = [] ∧ (headA 0 0 0 4).fifo = ⟨5, hdr 0 0 4⟩ :: [] := by decide

/-- For each of the five rows that discard their head: a state at the boundary of the row's condition, the head's header, the row
and its verdict. -/
def discardCases : List (State × Header × Instr × Verdict) :=
  [(headA 7 8 3 4, hdr 8 3 4, .pktMalformedIndex (hdr 8 3 4), .malformedIndex),
   (headA 0 9 1 5, hdr 9 1 5, .pktMalformedSize (hdr 9 1 5), .malformedSize),
   (headA 1 0 2 65535, hdr 0 2 65535, .pktStale (hdr 0 2 65535), .stale),
   (heldA (headA 0 0 0 4), hdr 0 0 4, .pktDupData (hdr 0 0 4), .duplicate),
   ({ setRed (headA 0 0 2 4) 2 ⟨true, 0⟩ with free := [1, 2, 3, 4] }, hdr 0 2 4, .pktDupRed (hdr 0 2 4), .duplicate)]

theorem wit_DiscardedPackets :
    ∀ p ∈ discardCases,
      p.1.run = .running ∧ p.1.wph = .idle ∧ p.1.fifo = ⟨5, p.2.1⟩ :: [] ∧ 5 ∉ p.1.free
        ∧ DiscardRow p.1 p.2.1 p.2.2.1 p.2.2.2 := by decide

/-- The same with the head's slot put into FREE. -/
theorem wit_DoubleFreeIsFatal :
    ∀ p ∈ discardCases.map (fun p => ({ p.1 with free := poolSlots 3 }, p.2)),
      p.1.run = .running ∧ p.1.wph = .idle ∧ p.1.fifo = ⟨5, p.2.1⟩ :: [] ∧ 5 ∈ p.1.free
        ∧ DiscardRow p.1 p.2.1 p.2.2.1 p.2.2.2 := by decide

/-- F_FIFO_FAIL with its slot free. -/
theorem wit_PoolFatalElsewhere_framer :
    let s := { enqState false 2 with free := [5] }
    s.run = .running ∧ s.subActive = true ∧ s.subBlk = false ∧ s.frPhase = .enq ∧ s.fifo.length = s.qEff.val
      ∧ s.frSlot = some 5 ∧ 5 ∈ s.free := by decide

/-- FINISH whose second slot repeats the first. -/
theorem wit_PoolFatalElsewhere_finish :
    let s := setData finishA 1 (share 0 true)
    s.run = .running ∧ s.wph = .finish ∧ heldSlots s = [0] ++ 0 :: [] ∧ ([0] : List Slot).Nodup
      ∧ (∀ y ∈ ([0] : List Slot), y ∉ s.free) ∧ (0 : Slot) ∈ ([0] : List Slot) := by decide

/-- Configuration A with two data shares held, the second in a slot that is free, and a superseding head. -/
def purgeA : State := setData (heldA (headA 0 3 1 4)) 1 (share 4 false)

theorem wit_PoolFatalElsewhere :
    purgeA.run = .running ∧ purgeA.wph = .idle ∧ purgeA.fifo = ⟨5, hdr 3 1 4⟩ :: [] ∧ heldSlots purgeA = [0] ++ 4 :: []
      ∧ ([0] : List Slot).Nodup ∧ (∀ y ∈ ([0] : List Slot), y ∉ purgeA.free) ∧ 4 ∈ purgeA.free
      ∧ (hdr 3 1 4).pi.toNat < purgeA.cfgN.val ∧ (hdr 3 1 4).ps ≤ purgeA.cfgMtu ∧ purgeA.cbi < (hdr 3 1 4).bi := by decide

/-- The double free in Purge: FREE keeps the one Release before it, the FIFO and CBI stay (R186, log 9). -/
theorem test_supersede_double_free :
    (nextOf (exec .accept purgeA)).map
      (fun t => (t.run, t.fatalCause, t.free, t.fifo.length, t.cbi)) = some (.fatal, some .pool, [0, 1, 2, 3, 4], 1, 0) := by
  decide

/-- The lowest and the highest data index, payload_size = mtu and 0. -/
theorem wit_DataShareInserted :
    ∀ p ∈ [(0, 4), (1, 0)],
      let s := headA 0 0 p.1 p.2
      s.run = .running ∧ s.wph = .idle ∧ s.fifo = ⟨5, hdr 0 p.1 p.2⟩ :: [] ∧ s.cfgK.val ≤ s.cfgN.val
        ∧ (hdr 0 p.1 p.2).pi.toNat < s.cfgK.val ∧ (hdr 0 p.1 p.2).ps ≤ s.cfgMtu ∧ (hdr 0 p.1 p.2).bi = s.cbi
        ∧ (dataAt s (hdr 0 p.1 p.2).pi.toNat).present = false := by decide

/-- pi = k and pi = n - 1 are the same index here; the payload size is the largest there is. -/
theorem wit_RedundancyShareInserted :
    let s := headA 0 0 2 65535
    s.run = .running ∧ s.wph = .idle ∧ s.fifo = ⟨5, hdr 0 2 65535⟩ :: [] ∧ s.cfgK.val ≤ (hdr 0 2 65535).pi.toNat
      ∧ (hdr 0 2 65535).pi.toNat < s.cfgN.val ∧ (hdr 0 2 65535).bi = s.cbi
      ∧ (redAt s (hdr 0 2 65535).pi.toNat).present = false := by decide

/-- V9, and the same with a redundancy share. -/
theorem wit_SupersedingPacket :
    ∀ p ∈ [1, 2],
      let s := heldA (headA 0 3 p 4)
      s.run = .running ∧ s.wph = .idle ∧ s.fifo = ⟨5, hdr 3 p 4⟩ :: [] ∧ (hdr 3 p 4).pi.toNat < s.cfgN.val
        ∧ s.cfgK.val ≤ s.cfgN.val ∧ ((hdr 3 p 4).pi.toNat < s.cfgK.val → (hdr 3 p 4).ps ≤ s.cfgMtu)
        ∧ s.cbi < (hdr 3 p 4).bi ∧ (heldSlots s).Nodup ∧ (∀ x ∈ heldSlots s, x ∉ s.free) := by decide

/-- A received share of full size, one of size 0, and a rebuilt one. -/
theorem wit_EmitStep :
    ∀ s ∈ [emitA, setData emitA 0 ⟨true, 0, 0#16, false, false⟩, setData emitA 0 ⟨true, 5, 0#16, true, false⟩],
      s.run = .running ∧ s.wph = .emit ∧ s.next < s.limit ∧ (dataAt s s.next.val).present = true
        ∧ (if (dataAt s s.next.val).recon = true then s.cfgMtu else (dataAt s s.next.val).ps) ≤ s.cfgMtu
        ∧ (dataAt s s.next.val).slot.val < 2 * s.cfgN.val := by decide

theorem wit_EmitDoneStep :
    ∀ p ∈ [(Kind.none, false), (.direct, false), (.recon, true), (.recon, false)],
      let s := { emitA with next := 1, kind := p.1, decoded := p.2 }
      s.run = .running ∧ s.wph = .emit ∧ s.next = s.limit ∧ s.kind = p.1 ∧ s.decoded = p.2 := by decide

/-- FREE empty, and a missing index 0 with four slots free. -/
theorem wit_AcquireDestinationStep :
    (let s := { acqA with free := [] }; s.run = .running ∧ s.wph = .acq ∧ s.free = [])
      ∧ acqA.run = .running ∧ acqA.wph = .acq ∧ acqA.free ≠ [] ∧ 0 < acqA.cfgK.val ∧ (dataAt acqA 0).present = false
      ∧ ∀ i, i < 0 → (dataAt acqA i).present = true :=
  ⟨by decide, by decide, by decide, by decide, by decide, by decide, fun _ h => absurd h (Nat.not_lt_zero _)⟩

theorem wit_BuildSharesLists :
    buildShares decodeA = .ok ⟨[2, 1], [2, 1], [3]⟩ ∧ (dataAt decodeA 1).recon = false ∧ (dataAt decodeA 0).recon = true :=
  ⟨rfl, by decide, by decide⟩

theorem wit_DecodeFillsDestinations :
    decodeA.run = .running ∧ decodeA.wph = .decode ∧ buildShares decodeA = .ok ⟨[2, 1], [2, 1], [3]⟩
      ∧ ([3] : List Slot).Nodup ∧ (∀ x ∈ ([2, 1] ++ [3] : List Slot), x.val < 2 * decodeA.cfgN.val)
      ∧ [([0x11, 0x22, 0x33, 0x44] : List Byte)].length = ([3] : List Slot).length
      ∧ ∀ d ∈ [([0x11, 0x22, 0x33, 0x44] : List Byte)], d.length = decodeA.cfgMtu.toNat :=
  ⟨rfl, rfl, rfl, by decide, by decide, rfl, by decide⟩

theorem wit_CodecFailureIsFatal :
    decodeA.run = .running ∧ decodeA.wph = .decode ∧ buildShares decodeA = .ok ⟨[2, 1], [2, 1], [3]⟩
      ∧ ∀ x ∈ ([2, 1] ++ [3] : List Slot), x.val < 2 * decodeA.cfgN.val :=
  ⟨rfl, rfl, rfl, by decide⟩

theorem wit_FinishStep :
    finishA.run = .running ∧ finishA.wph = .finish ∧ (heldSlots finishA).Nodup ∧ ∀ x ∈ heldSlots finishA, x ∉ finishA.free := by
  decide

theorem wit_FatalEntry : confA.run = .running ∧ (enqState true 2).run = .running := by decide

theorem wit_FatalLeftOnlyByStopOrReset :
    fatalA.run = .fatal ∧ Instr.init 2 3 4 ≠ .stop ∧ Instr.init 2 3 4 ≠ .reset
      ∧ (nextOf (exec (.init 2 3 4) fatalA)).isSome = true := by decide

theorem wit_NothingRunsUnlessRunning :
    fatalA.run ≠ .running ∧ State.reset.run ≠ .running ∧ encode .accept = .internal ∧ Instr.accept ≠ .reset
      ∧ encode (.pktData (hdr 0 0 4)) = .header #v[0, 0, 0, 0, 4, 0] := by decide

theorem wit_DescriptorImmutableOnceActive :
    confA.run ≠ .stopped ∧ Instr.init 1 2 2 ≠ .reset ∧ (nextOf (exec (.init 1 2 2) confA)).isSome = true
      ∧ (nextOf (exec .stop confA)).isSome = true := by decide

/-- Each of the five writers changes CBI somewhere. -/
theorem wit_BlockIndexWriters :
    (∀ p ∈ [(Instr.init 2 3 4, { State.reset with cbi := 5#24 }), (.reset, { confA with cbi := 5#24 }), (.finish, finishA),
          (.accept, headA 0 3 1 4), (.pktSupersede (hdr 3 1 4), headA 0 3 1 4)],
        (nextOf (exec p.1 p.2)).map (fun t => decide (t.cbi ≠ p.2.cbi)) = some true) := by decide

theorem wit_OnlyEmitDelivers :
    (nextOf (exec .emit emitA)).map (fun t => decide (Output.ready 4 [0x11, 0x22, 0x33, 0x44] ∈ t.outs)) = some true := by
  decide

theorem wit_EnvironmentNeverWritten : ∃ t, exec .reset confA = .next t := exists_next (by decide)

/-- A state for each named stop. -/
theorem wit_NamedStops :
    faultOf (exec .fHdrByte { sub true 0 [1] with frHcnt := 6 }) = some .headerFull
      ∧ faultOf (exec .fHdrByte { sub true 0 [1] with subData := [] }) = some .submitByteMissing
      ∧ faultOf (exec (.fPayByte 0) { payState 0 with subData := [] }) = some .submitByteMissing
      ∧ faultOf (exec (.fPayByte 0) { payState 3 with frSlot := some 6 }) = some .bufRange
      ∧ faultOf (exec (.fPayByte 0) { payState 3 with frPcnt := 4#16 }) = some .bufRange
      ∧ acquire 0 [6] = some (6, []) ∧ faultOf (exec (.fPayByte 0) { payState 0 with free := [6] }) = some .bufRange
      ∧ faultOf (exec (.fPayByte 0) { payState 0 with frPcnt := 4#16 }) = some .bufRange
      ∧ faultOf (exec .fEnq { enqState true 1 with frSlot := none }) = some .noPayloadSlot
      ∧ faultOf (exec .fFifoFail { enqState false 2 with frSlot := none }) = some .noPayloadSlot
      ∧ faultOf (exec .emit { confA with wph := .emit, limit := 1 }) = some .absentShare
      ∧ faultOf (exec .emit (setData emitA 0 ⟨true, 0, 5#16, false, false⟩)) = some .bufRange
      ∧ faultOf (exec .emit (setData emitA 0 ⟨true, 6, 4#16, false, false⟩)) = some .bufRange
      ∧ faultOf (exec (.acq 0) { decodeA with wph := .acq }) = some .noMissingShare
      ∧ faultOf (exec (.decode .fail) { acqA with wph := .decode }) = some .absentShare
      ∧ faultOf (exec (.decode .fail) (setRed decodeA 2 ⟨false, 2⟩)) = some .sourcesExhausted
      ∧ faultOf (exec (.decode .fail) (setRed decodeA 2 ⟨true, 6⟩)) = some .bufRange := by decide

theorem wit_NamedStops_reply_shape : exec (.decode (.ok [])) decodeA = .refused .codecReplyShape := rfl

theorem wit_RefusalsAreNamed :
    ({ confA with sched := [.data 0x00020012 [0x11]] }.sched = .data 0x00020012 [0x11] :: []
        ∧ { confA with sched := [.data 0x00020012 [0x11]] }.subActive = false
        ∧ step { confA with sched := [.data 0x00020012 [0x11]] } = .refused .shortSubmit)
      ∧ field 0x00020012 0 4 = 2 ∧ field 0x00020012 5 11 = 0
      ∧ ([0x11] : List Byte).length < (field 0x00020012 16 16).toNat
      ∧ step { decodeA with sched := [.worker ⟨true, 0, some (.ok [])⟩] } = .refused .codecReplyShape :=
  ⟨⟨rfl, rfl, rfl⟩, by decide, by decide, by decide, rfl⟩

/-! ### The invariants hold in running states with every kind of holder -/

theorem wit_pool_decodeX8 : PoolInv decodeX8 :=
  { config := by decide, rising := by decide, unused := by decide, owner := by decide }

theorem wit_worker_decodeX8 : WorkerInv decodeX8 :=
  { config := by decide, unused := by decide, dispatch := by decide, bounds := by decide, sizes := by decide
    halted := by decide, stopped := by decide
    phase := by
      show decodeX8.kind = .recon ∧ decodeX8.decoded = false ∧ dataCount decodeX8 = decodeX8.cfgK.val
        ∧ receivedCount decodeX8 + redCount decodeX8 = decodeX8.cfgK.val
      decide }

theorem wit_inv_decodeX8 : Inv decodeX8 :=
  { memory := by decide, pool := wit_pool_decodeX8, fifo := by decide, worker := wit_worker_decodeX8
    framer :=
      { active := by decide, stopped := by decide, mtu := by decide, hdr := by decide, pay := by decide, enq := by decide
        bytes := by decide } }

/-- FREE has its last slot: the framer holds one, the FIFO one, RED one. -/
theorem wit_inv_acqX8 : Inv acqX8 :=
  { memory := by decide, fifo := by decide
    pool := { config := by decide, rising := by decide, unused := by decide, owner := by decide }
    worker :=
      { config := by decide, unused := by decide, dispatch := by decide, bounds := by decide, sizes := by decide
        halted := by decide, stopped := by decide
        phase := by
          show acqX8.kind = .recon ∧ acqX8.decoded = false ∧ dataCount acqX8 < acqX8.cfgK.val
            ∧ receivedCount acqX8 + redCount acqX8 = acqX8.cfgK.val
          decide }
    framer :=
      { active := by decide, stopped := by decide, mtu := by decide, hdr := by decide, pay := by decide, enq := by decide
        bytes := by decide } }

theorem wit_AcquireNeverWaits :
    acqX8.run = .running ∧ acqX8.wph = .acq ∧ decodeX8.run = .running ∧ decodeX8.frSlot = none := by decide

theorem wit_decodeX8_steps : ∃ t, step decodeX8 = .next t := exists_next (by decide)

theorem wit_MemoryStaysCanonical : Memory.wf decodeX8.buf ∧ ∃ t, step decodeX8 = .next t :=
  ⟨wit_inv_decodeX8.memory, wit_decodeX8_steps⟩

theorem wit_PoolConservationKept : PoolInv decodeX8 ∧ ∃ t, step decodeX8 = .next t :=
  ⟨wit_pool_decodeX8, wit_decodeX8_steps⟩

/-- X8 with POOL recorded before and a STATUS turn next: the cause stays, so the conclusion's premise is met. -/
def poolX8 : State := { decodeX8 with run := .fatal, wph := .halted, fatalCause := some .pool, sched := [.ctrl 0x00000004] }

theorem wit_PoolFatalNeverRaised :
    PoolInv poolX8 ∧ (nextOf (step poolX8)).map State.fatalCause = some (some .pool)
      ∧ Instr.status ≠ .fatal .pool ∧ (nextOf (exec .status poolX8)).map State.fatalCause = some (some .pool) :=
  ⟨{ config := by decide, rising := by decide, unused := by decide, owner := by decide }, by decide, by decide, by decide⟩

theorem wit_PoolCountsAddUp : PoolInv acqX8 ∧ acqX8.run ≠ .stopped := ⟨wit_inv_acqX8.pool, by decide⟩

theorem wit_DispatchFlagsKept : DispatchInv decodeX8 ∧ ∃ t, step decodeX8 = .next t :=
  ⟨wit_worker_decodeX8.dispatch, wit_decodeX8_steps⟩

theorem wit_FramerRegistersKept : FramerInv decodeX8 ∧ ∃ t, step decodeX8 = .next t :=
  ⟨wit_inv_decodeX8.framer, wit_decodeX8_steps⟩

theorem wit_FifoBoundKept : FifoInv decodeX8 ∧ ∃ t, step decodeX8 = .next t :=
  ⟨wit_inv_decodeX8.fifo, wit_decodeX8_steps⟩

theorem wit_WorkerPhasesKept : WorkerInv decodeX8 ∧ ∃ t, step decodeX8 = .next t :=
  ⟨wit_worker_decodeX8, wit_decodeX8_steps⟩

theorem wit_GoodStatesNeverFault : Inv decodeX8 := wit_inv_decodeX8

theorem wit_worker_headA : WorkerInv (headA 0 0 2 4) :=
  { config := by decide, unused := by decide, dispatch := by decide, bounds := by decide, sizes := by decide
    halted := by decide, stopped := by decide
    phase := by
      show (headA 0 0 2 4).kind = .none ∧ (headA 0 0 2 4).decoded = false ∧ NoneRebuilt (headA 0 0 2 4)
        ∧ (headA 0 0 2 4).next = (headA 0 0 2 4).limit ∧ (headA 0 0 2 4).limit.val = firstGap (headA 0 0 2 4)
        ∧ ((headA 0 0 2 4).run ≠ .stopped
            → dataCount (headA 0 0 2 4) + redCount (headA 0 0 2 4) < (headA 0 0 2 4).cfgK.val)
      decide }

/-- The redundancy share is really inserted: the EMIT phase is entered. -/
theorem wit_RedundancyInsertKeepsLimit :
    WorkerInv (headA 0 0 2 4) ∧ (nextOf (exec (.pktRed (hdr 0 2 4)) (headA 0 0 2 4))).map State.wph = some .emit :=
  ⟨wit_worker_headA, by decide⟩

theorem wit_written_decodeX8 : WrittenInv decodeX8 :=
  { framer := by decide, full := by decide, fifo := by decide, data := by decide, red := by decide }

theorem wit_WrittenBytesKept : Inv decodeX8 ∧ WrittenInv decodeX8 ∧ ∃ t, step decodeX8 = .next t :=
  ⟨wit_inv_decodeX8, wit_written_decodeX8, wit_decodeX8_steps⟩

theorem wit_inv_emitA : Inv emitA :=
  { memory := by decide, fifo := by decide
    pool := { config := by decide, rising := by decide, unused := by decide, owner := by decide }
    worker :=
      { config := by decide, unused := by decide, dispatch := by decide, bounds := by decide, sizes := by decide
        halted := by decide, stopped := by decide
        phase := by
          show NoneRebuilt emitA ∧ emitA.limit.val = firstGap emitA ∧ dataCount emitA + redCount emitA < emitA.cfgK.val
          decide }
    framer :=
      { active := by decide, stopped := by decide, mtu := by decide, hdr := by decide, pay := by decide, enq := by decide
        bytes := by decide } }

/-- An offer, and a decode request. -/
theorem wit_ReadsAreWritten :
    Inv emitA ∧ WrittenInv emitA ∧ offer emitA = some (.ready 4 [0x11, 0x22, 0x33, 0x44])
      ∧ Inv decodeX8 ∧ WrittenInv decodeX8 ∧ buildShares decodeX8 = .ok ⟨[1], [0], [1]⟩ :=
  ⟨wit_inv_emitA,
    { framer := by decide, full := by decide, fifo := by decide, data := by decide, red := by decide },
    by decide, wit_inv_decodeX8, wit_written_decodeX8, rfl⟩

/-- The repetition code: with k = 1 every share is the data. -/
def repeatCode (D : List (List Byte)) : List (List Byte) := D ++ D

/-- Its decoder: the destination, if there is one, is the source. -/
def repeatCodec (_idx : List Nat) (src : List (List Byte)) (m : Nat) : CodecReply := .ok (src.take m)

theorem repeatCode_systematic : Config.Systematic 1 2 2 repeatCode := by
  intro D hD hd
  refine ⟨by simp [repeatCode, hD], fun e he => ?_, fun i hi => ?_⟩
  · simp only [repeatCode, List.mem_append, or_self] at he
    exact hd e he
  · rw [repeatCode, List.getElem?_append_left (by omega)]

theorem repeatCodec_contract : Config.CodecContract 1 2 2 repeatCode repeatCodec := by
  intro D idx src hD _ hidx _ hlt ⟨hsrc, hval⟩
  obtain ⟨d, rfl⟩ := List.length_eq_one_iff.mp hD
  obtain ⟨q, rfl⟩ := List.length_eq_one_iff.mp hidx
  obtain ⟨b, rfl⟩ := List.length_eq_one_iff.mp hsrc
  obtain ⟨q', hq, hb⟩ := hval 0 Nat.one_pos
  have hq2 := hlt q (by simp)
  simp only [List.getElem?_cons_zero, Option.some.injEq] at hq hb
  subst hq
  interval_cases q <;> simp_all [Config.missing, repeatCode, repeatCodec, List.range_succ]

/-- X8: RED[1] holds AB CD, the correct share of the block AB CD. -/
theorem wit_ReconstructionRecoversBlock :
    WorkerInv decodeX8 ∧ PoolInv decodeX8 ∧ decodeX8.run = .running ∧ decodeX8.wph = .decode
      ∧ Config.Systematic decodeX8.cfgK.val decodeX8.cfgN.val decodeX8.cfgMtu.toNat repeatCode
      ∧ Config.CodecContract decodeX8.cfgK.val decodeX8.cfgN.val decodeX8.cfgMtu.toNat repeatCode repeatCodec
      ∧ [([0xAB, 0xCD] : List Byte)].length = decodeX8.cfgK.val
      ∧ (∀ d ∈ [([0xAB, 0xCD] : List Byte)], d.length = decodeX8.cfgMtu.toNat)
      ∧ (∀ i, i < decodeX8.cfgK.val → (dataAt decodeX8 i).recon = false →
          some (memRead decodeX8 (dataAt decodeX8 i).slot 0 decodeX8.cfgMtu.toNat) = [([0xAB, 0xCD] : List Byte)][i]?)
      ∧ ∀ q, decodeX8.cfgK.val ≤ q → q < decodeX8.cfgN.val → (redAt decodeX8 q).present = true →
          some (memRead decodeX8 (redAt decodeX8 q).slot 0 decodeX8.cfgMtu.toNat)
            = (repeatCode [([0xAB, 0xCD] : List Byte)])[q]? := by
  refine ⟨wit_worker_decodeX8, wit_pool_decodeX8, rfl, rfl, repeatCode_systematic, repeatCodec_contract, rfl, by decide,
    fun i hi hr => ?_, fun q hk hn _ => ?_⟩
  · have hi0 : i < 1 := hi
    interval_cases i
    exact absurd hr (by decide)
  · have hk1 : 1 ≤ q := hk
    have hn2 : q < 2 := hn
    interval_cases q
    decide

end Sys2Proof.Tests
end

section
/-! How a step takes its turn (R7, R8): what each turn fetches, and what each phase selects for the worker and the
framer. -/

namespace Sys2Proof.Machine

/-! ## The turn that comes next -/

/-- The free turn comes next where the state lists none (log 1). -/
theorem nextTurn_nil {s : State} (h : s.sched = []) :
    nextTurn s = (Config.freeTurn s.tick, { s with sched := [], tick := s.tick + 1 }) :=
  Prod.ext (by simp [nextTurn, h]) (by rw [nextTurn_state, h]; rfl)

/-- A step depends on the state through its next turn alone. -/
theorem step_congr {s u : State} (h : nextTurn s = nextTurn u) : step s = step u := by
  unfold step
  rw [h]

theorem step_of_fetch_run {s s1 : State} {t : Turn} {i : Instr} (hn : nextTurn s = (t, s1))
    (hf : fetchTurn t s1 = .run i) : step s = exec i s1 := by
  simp only [step, hn, hf]

theorem step_of_fetch_wait {s s1 : State} {t : Turn} (hn : nextTurn s = (t, s1))
    (hf : fetchTurn t s1 = .wait) : step s = .next s1 := by
  simp only [step, hn, hf, hold_eq]

/-! ## What a turn fetches -/

theorem fetchTurn_data_free {w : Word} {stream rest : List Byte} {i : Instr} {s : State}
    (ha : s.subActive = false) (hd : decodeData w stream = .ok (i, rest)) :
    fetchTurn (.data w stream) s = .run i := by
  simp [fetchTurn, ha, hd]

theorem fetchTurn_data_busy {w : Word} {stream : List Byte} {s : State} (ha : s.subActive = true) :
    fetchTurn (.data w stream) s = .wait := by
  simp [fetchTurn, ha]

theorem fetchTurn_worker_some {env : WorkerEnv} {s : State} {i : Instr} (h : workerStep env s = some i) :
    fetchTurn (.worker env) s = .run i := by
  simp [fetchTurn, h]

theorem fetchTurn_worker_none {env : WorkerEnv} {s : State} (h : workerStep env s = none) :
    fetchTurn (.worker env) s = .wait := by
  simp [fetchTurn, h]

/-! ## What WPH selects for the worker (R35) -/

section Worker
variable {s : State} (env : WorkerEnv)

theorem workerStep_idle (h : s.wph = .idle) : workerStep env s = some .accept := by
  simp [workerStep, h]

theorem workerStep_emit_taken (h : s.wph = .emit) (hn : s.next < s.limit) (ht : env.take = true) :
    workerStep env s = some .emit := by
  simp [workerStep, h, hn, ht]

theorem workerStep_emit_untaken (h : s.wph = .emit) (hn : s.next < s.limit) (ht : env.take = false) :
    workerStep env s = none := by
  simp [workerStep, h, hn, ht]

theorem workerStep_emitDone (h : s.wph = .emit) (hn : s.limit ≤ s.next) :
    workerStep env s = some .emitDone := by
  simp [workerStep, h, Fin.not_lt.mpr hn]

theorem workerStep_acq (h : s.wph = .acq) : workerStep env s = some (.acq env.pick) := by
  simp [workerStep, h]

/-- DECODE gets the answer the turn brings (log 6). -/
theorem workerStep_decode_brought {r : CodecReply} (h : s.wph = .decode) (hr : env.reply = some r) :
    workerStep env s = some (.decode r) := by
  simp [workerStep, h, hr]

/-- Without one, the attached codec answers the request that BuildShares makes (R86, R159, log 6). -/
theorem workerStep_decode_attached {b : Shares} (h : s.wph = .decode) (hr : env.reply = none)
    (hb : buildShares s = .ok b) :
    workerStep env s = some (.decode
      (Config.codecReply s.tick s.cfgK.val s.cfgMtu.toNat b.idx (shareBytes s b) b.dst.length)) := by
  simp [workerStep, h, hr, codecAnswer, hb]

theorem workerStep_decode_noRequest {f : Fault} (h : s.wph = .decode) (hr : env.reply = none)
    (hb : buildShares s = .error f) : workerStep env s = some (.decode .fail) := by
  simp [workerStep, h, hr, codecAnswer, hb]

theorem workerStep_finish (h : s.wph = .finish) : workerStep env s = some .finish := by
  simp [workerStep, h]

theorem workerStep_halted (h : s.wph = .halted) : workerStep env s = none := by
  simp [workerStep, h]

end Worker

/-! ## What FR_PHASE selects for the framer (R34, R40) -/

section Framer
variable {s : State} (pick : Nat)

theorem framerStep_hdr (h : s.frPhase = .hdr) (hp : s.subPos < s.subLen) : framerStep pick s = .fHdrByte := by
  simp [framerStep, h, hp]

theorem framerStep_pay (h : s.frPhase = .pay) (hp : s.subPos < s.subLen)
    (hf : ¬ (s.subBlk = false ∧ s.frSlot = none ∧ s.free = [])) : framerStep pick s = .fPayByte pick := by
  simp only [framerStep, h, if_pos hp, if_neg hf]

theorem framerStep_poolFail (h : s.frPhase = .pay) (hp : s.subPos < s.subLen)
    (hf : s.subBlk = false ∧ s.frSlot = none ∧ s.free = []) : framerStep pick s = .fPoolFail := by
  simp only [framerStep, h, if_pos hp, if_pos hf]

/-- In both the header and the payload phase a SUBMIT whose bytes are used up is done (R111). -/
theorem framerStep_submitDone (h : s.frPhase ≠ .enq) (hp : s.subLen ≤ s.subPos) :
    framerStep pick s = .submitDone := by
  have hp' : ¬ s.subPos < s.subLen := BitVec.not_lt.mpr hp
  cases hph : s.frPhase with
  | hdr => simp only [framerStep, hph, if_neg hp']
  | pay => simp only [framerStep, hph, if_neg hp']
  | enq => exact absurd hph h

theorem framerStep_fifoFail (h : s.frPhase = .enq) (hf : s.subBlk = false ∧ s.fifo.length = s.qEff.val) :
    framerStep pick s = .fFifoFail := by
  simp only [framerStep, h, if_pos hf]

theorem framerStep_enq (h : s.frPhase = .enq) (hf : ¬ (s.subBlk = false ∧ s.fifo.length = s.qEff.val)) :
    framerStep pick s = .fEnq := by
  simp only [framerStep, h, if_neg hf]

end Framer

/-! ## The statements about a step's turn -/

/-- Settles O7: each turn fetches what the equations above say, on the state that `nextTurn_cons` gives; the
registers that select a step are those of `s`, since taking a turn writes none of them. -/
theorem stepRunsDecodedInstruction : Obligations.StepRunsDecodedInstruction := by
  unfold Obligations.StepRunsDecodedInstruction
  intro s s1 t ts hs hs1
  have hn : nextTurn s = (t, s1) := hs1 ▸ nextTurn_cons hs
  have hb : buildShares s1 = buildShares s := by simpa only [hn] using buildShares_nextTurn s
  subst hs1
  refine ⟨?ctrl, ?dataFree, ?dataBusy, ?framer, ?workerRuns, ?workerWaits, ?reset, fun env => ?workerSelects,
    fun pick => ?framerSelects⟩
  case ctrl => rintro w rfl; exact step_of_fetch_run hn rfl
  case dataFree => rintro w stream i rest rfl ha hd; exact step_of_fetch_run hn (fetchTurn_data_free ha hd)
  case dataBusy => rintro w stream rfl ha; exact step_of_fetch_wait hn (fetchTurn_data_busy ha)
  case framer => rintro pick rfl; exact step_of_fetch_run hn rfl
  case workerRuns => rintro env i rfl hw; exact step_of_fetch_run hn (fetchTurn_worker_some hw)
  case workerWaits => rintro env rfl hw; exact step_of_fetch_wait hn (fetchTurn_worker_none hw)
  case reset => rintro rfl; exact step_of_fetch_run hn rfl
  case workerSelects =>
    exact ⟨fun h => workerStep_idle env h, fun h hlt ht => workerStep_emit_taken env h hlt ht,
      fun h hlt ht => workerStep_emit_untaken env h hlt ht, fun h hle => workerStep_emitDone env h hle,
      fun h => workerStep_acq env h, fun r h hr => workerStep_decode_brought env h hr,
      fun b h hr hok => workerStep_decode_attached env h hr (hb.trans hok),
      fun f h hr herr => workerStep_decode_noRequest env h hr (hb.trans herr),
      fun h => workerStep_finish env h, fun h => workerStep_halted env h⟩
  case framerSelects =>
    exact ⟨fun h hp => framerStep_hdr pick h hp, fun h hp hf => framerStep_pay pick h hp hf,
      fun h hp hblk hslot hfree => framerStep_poolFail pick h hp ⟨hblk, hslot, hfree⟩,
      fun h hp => framerStep_submitDone pick h hp, fun h hblk hfull => framerStep_fifoFail pick h ⟨hblk, hfull⟩,
      fun h hf => framerStep_enq pick h hf⟩

/-- Settles O8: listing the free turn and listing none give the same next turn and the same state without it. -/
theorem stepTakesFreeTurn : Obligations.StepTakesFreeTurn := by
  unfold Obligations.StepTakesFreeTurn
  intro s h
  have hlisted : nextTurn { s with sched := [Config.freeTurn s.tick] }
      = (Config.freeTurn s.tick, { s with sched := [], tick := s.tick + 1 }) := nextTurn_cons rfl
  exact step_congr ((nextTurn_nil h).trans hlisted.symm)

end Sys2Proof.Machine
end

section
/-! What each instruction leaves where it completes: one inversion lemma for each meaning, with its guards. A meaning whose
guard is false holds, so `t = s` is a case of every internal step. -/

namespace Sys2Proof.Machine

/-- Of a step that completes, the next state; `hold s` is such a step by definition. -/
theorem eq_of_next {u t : State} (h : (.next u : Result) = .next t) : t = u := (Host.Outcome.next.inj h).symm

/-! ## Commands -/

theorem execInit_next {k n : BitVec 6} {mtu : BitVec 16} {s t : State} (h : execInit k n mtu s = .next t) :
    (s.run ≠ .stopped ∧ t = respondControl .errBusy s)
      ∨ (s.run = .stopped ∧ configValid s.par.mtuMax k.toNat n.toNat mtu.toNat = false
          ∧ t = respondControl .errConfig s)
      ∨ (s.run = .stopped ∧ configValid s.par.mtuMax k.toNat n.toNat mtu.toNat = true
          ∧ t = respondControl .ok (startBlock k.toNat n.toNat mtu s)) := by
  unfold execInit at h
  split at h
  case isTrue hr => exact .inl ⟨hr, eq_of_next h⟩
  case isFalse hr =>
    have hr' : s.run = .stopped := not_not.mp hr
    split at h
    case isTrue hv => exact .inr (.inl ⟨hr', hv, eq_of_next h⟩)
    case isFalse hv => exact .inr (.inr ⟨hr', by simpa using hv, eq_of_next h⟩)

theorem execStop_next {s t : State} (h : execStop s = .next t) :
    ∃ s1, s1 = (if s.subActive then completeSubmit .failStopped s.subPos s else s)
      ∧ t = respondControl .ok (if s.run = .stopped then s1 else teardown s1) :=
  ⟨_, rfl, eq_of_next h⟩

theorem execStatus_next {s t : State} (h : execStatus s = .next t) :
    t = send (.status (st0 s) (st1 s) (st2 s) (st3 s)) (respondControl .ok s) :=
  eq_of_next h

theorem execSubmit_next {blk : Bool} {len : BitVec 16} {bytes : List Byte} {s t : State}
    (h : execSubmit blk len bytes s = .next t) :
    (s.subActive = true ∧ t = s)
      ∨ (s.subActive = false ∧ s.run = .stopped ∧ t = respondData .failStopped 0#16 s)
      ∨ (s.subActive = false ∧ s.run = .fatal ∧ t = respondData .failFatal 0#16 s)
      ∨ (s.subActive = false ∧ s.run = .running
          ∧ t = { s with subActive := true, subBlk := blk, subLen := len, subPos := 0#16, subData := bytes }) := by
  unfold execSubmit at h
  cases ha : s.subActive with
  | true => exact .inl ⟨rfl, by simpa [ha] using h.symm⟩
  | false =>
    simp only [ha, Bool.false_eq_true, if_false] at h
    cases hr : s.run <;> simp only [hr, Host.Outcome.next.injEq] at h
    case stopped => exact .inr (.inl ⟨rfl, rfl, h.symm⟩)
    case running => exact .inr (.inr (.inr ⟨rfl, rfl, h.symm⟩))
    case fatal => exact .inr (.inr (.inl ⟨rfl, rfl, h.symm⟩))

theorem illegalWord_next {p : Port} {s t : State} (h : illegalWord p s = .next t) :
    t = s ∨ t = respondControl .errIllegalOp s ∨ t = respondData .errIllegalOp 0#16 s := by
  obtain ⟨-, hw⟩ | ⟨-, -, hw⟩ | ⟨-, -, hw⟩ := illegalWord_cases p s <;>
    rw [hw, Host.Outcome.next.injEq] at h
  · exact .inr (.inl h.symm)
  · exact .inr (.inr h.symm)
  · exact .inl h.symm

/-! ## Framer steps -/

theorem execFHdrByte_next {s t : State} (h : execFHdrByte s = .next t) :
    t = s
      ∨ ∃ b, s.run = .running ∧ s.subActive = true ∧ s.subPos < s.subLen ∧ s.frPhase = .hdr ∧ s.frHcnt ≠ 6
          ∧ submitByte s = some b ∧ t = takeHeaderByte b s := by
  unfold execFHdrByte at h
  split at h
  case isTrue hg =>
    obtain ⟨hon, hpos, hph⟩ := hg
    obtain ⟨hr, ha⟩ := (framerOn_iff s).1 hon
    split at h
    case isTrue => simp at h
    case isFalse hc =>
      split at h
      case h_1 => simp at h
      case h_2 b hb => exact .inr ⟨b, hr, ha, hpos, hph, hc, hb, eq_of_next h⟩
  case isFalse => exact .inl (eq_of_next h)

/-- F_PAY_BYTE writes one byte to the slot it holds or, at the first one, to the slot it acquires (R107). -/
theorem execFPayByte_next {pick : Nat} {s t : State} (h : execFPayByte pick s = .next t) :
    t = s
      ∨ ∃ b x, s.run = .running ∧ s.subActive = true ∧ s.subPos < s.subLen ∧ s.frPhase = .pay
          ∧ submitByte s = some b ∧ inRange s x s.frPcnt.toNat 1 = true
          ∧ ((s.frSlot = some x ∧ t = takePayloadByte b x s)
              ∨ ∃ free, s.frSlot = none ∧ acquire pick s.free = some (x, free)
                  ∧ t = takePayloadByte b x { s with free := free }) := by
  unfold execFPayByte at h
  split at h
  case isTrue hg =>
    obtain ⟨hon, hpos, hph⟩ := hg
    obtain ⟨hr, ha⟩ := (framerOn_iff s).1 hon
    split at h
    case h_1 => simp at h
    case h_2 b hb =>
      split at h
      case h_1 x hx =>
        split at h
        case isTrue hin => exact .inr ⟨b, x, hr, ha, hpos, hph, hb, hin, .inl ⟨hx, eq_of_next h⟩⟩
        case isFalse => simp at h
      case h_2 hx =>
        split at h
        case h_1 => exact .inl (eq_of_next h)
        case h_2 x free hacq =>
          split at h
          case isTrue hin =>
            exact .inr ⟨b, x, hr, ha, hpos, hph, hb, hin, .inr ⟨free, hx, hacq, eq_of_next h⟩⟩
          case isFalse => simp at h
  case isFalse => exact .inl (eq_of_next h)

theorem execFPoolFail_next {s t : State} (h : execFPoolFail s = .next t) :
    t = s
      ∨ (s.run = .running ∧ s.subActive = true ∧ s.subBlk = false ∧ s.subPos < s.subLen ∧ s.frPhase = .pay
          ∧ s.frSlot = none ∧ s.free = [] ∧ t = completeSubmit .failPoolEmpty s.subPos s) := by
  unfold execFPoolFail at h
  split at h
  case isTrue hg =>
    obtain ⟨hon, hblk, hpos, hph, hslot, hfree⟩ := hg
    obtain ⟨hr, ha⟩ := (framerOn_iff s).1 hon
    exact .inr ⟨hr, ha, hblk, hpos, hph, hslot, hfree, eq_of_next h⟩
  case isFalse => exact .inl (eq_of_next h)

theorem execFEnq_next {s t : State} (h : execFEnq s = .next t) :
    t = s
      ∨ ∃ x, s.run = .running ∧ s.subActive = true ∧ s.frPhase = .enq ∧ s.fifo.length < s.qEff.val
          ∧ s.frSlot = some x ∧ t = framerReset { s with fifo := s.fifo ++ [⟨x, frHeader s⟩] } := by
  unfold execFEnq at h
  split at h
  case isTrue hg =>
    obtain ⟨hon, hph, hlen⟩ := hg
    obtain ⟨hr, ha⟩ := (framerOn_iff s).1 hon
    split at h
    case h_1 => simp at h
    case h_2 x hx => exact .inr ⟨x, hr, ha, hph, hlen, hx, eq_of_next h⟩
  case isFalse => exact .inl (eq_of_next h)

theorem execFFifoFail_next {s t : State} (h : execFFifoFail s = .next t) :
    t = s
      ∨ ∃ x, s.run = .running ∧ s.subActive = true ∧ s.subBlk = false ∧ s.frPhase = .enq
          ∧ s.fifo.length = s.qEff.val ∧ s.frSlot = some x
          ∧ ((x ∈ s.free ∧ t = raisePool s.free s)
              ∨ (x ∉ s.free ∧ t = completeSubmit .failFifoFull s.subPos
                  (framerReset { s with free := insertSlot x s.free }))) := by
  unfold execFFifoFail at h
  split at h
  case isTrue hg =>
    obtain ⟨hon, hblk, hph, hlen⟩ := hg
    obtain ⟨hr, ha⟩ := (framerOn_iff s).1 hon
    split at h
    case h_1 => simp at h
    case h_2 x hx =>
      refine .inr ⟨x, hr, ha, hblk, hph, hlen, hx, ?_⟩
      by_cases hm : x ∈ s.free
      · exact .inl ⟨hm, by simpa [(release_eq_none_iff _ _).2 hm] using h.symm⟩
      · exact .inr ⟨hm, by simpa [release_of_not_mem hm] using h.symm⟩
  case isFalse => exact .inl (eq_of_next h)

theorem execSubmitDone_next {s t : State} (h : execSubmitDone s = .next t) :
    t = s
      ∨ (s.run = .running ∧ s.subActive = true ∧ s.subPos = s.subLen ∧ s.frPhase ≠ .enq
          ∧ t = completeSubmit .ok s.subLen s) := by
  unfold execSubmitDone at h
  split at h
  case isTrue hg =>
    obtain ⟨hon, hpos, hph⟩ := hg
    obtain ⟨hr, ha⟩ := (framerOn_iff s).1 hon
    exact .inr ⟨hr, ha, hpos, hph, eq_of_next h⟩
  case isFalse => exact .inl (eq_of_next h)

/-! ## ACCEPT and its classes -/

theorem acceptAs_next {c : PacketClass} {hd : Header} {s t : State} {act : Desc → List Desc → Result}
    (h : acceptAs c hd s act = .next t) :
    t = s
      ∨ ∃ d rest, s.fifo = d :: rest ∧ s.run = .running ∧ s.wph = .idle ∧ d.hdr = hd ∧ packetClass s hd = c
          ∧ act d rest = .next t := by
  obtain ⟨d, rest, hf, hr, hw, he, hc, ha⟩ | ha := acceptAs_cases c hd s act
  · exact .inr ⟨d, rest, hf, hr, hw, he, hc, ha ▸ h⟩
  · exact .inl (by simpa [ha] using h.symm)

theorem discard_next {v : Verdict} {s t : State} {d : Desc} {rest : List Desc} (h : discard v s d rest = .next t) :
    (d.slot ∈ s.free ∧ t = raisePool s.free s)
      ∨ (d.slot ∉ s.free ∧ t = label v { s with fifo := rest, free := insertSlot d.slot s.free }) := by
  obtain ⟨hm, hd⟩ | ⟨hm, hd⟩ := discard_cases v s d rest <;> rw [hd, Host.Outcome.next.injEq] at h
  · exact .inl ⟨hm, h.symm⟩
  · exact .inr ⟨hm, h.symm⟩

/-- The state between Purge and the insert of PKT_SUPERSEDE: the block is cleared, the head is popped and CBI is the
packet's block index (R135, R136). -/
def superseded (bi : BitVec 24) (rest : List Desc) (free : List Slot) (s : State) : State :=
  { clearBlock s with fifo := rest, free := free, cbi := bi }

theorem execPktSupersede_next {hd : Header} {s t : State} (h : execPktSupersede hd s = .next t) :
    t = s
      ∨ ∃ d rest, s.fifo = d :: rest ∧ s.run = .running ∧ s.wph = .idle ∧ d.hdr = hd
          ∧ packetClass s hd = .supersede
          ∧ ((∃ free, releaseAll (heldSlots s) s.free = .error free ∧ t = raisePool free s)
              ∨ ∃ free, releaseAll (heldSlots s) s.free = .ok free
                  ∧ t = afterInsert (if hd.pi.toNat < s.cfgK.val then insertData d (superseded hd.bi rest free s)
                      else insertRed d (superseded hd.bi rest free s))) := by
  obtain rfl | ⟨d, rest, hf, hr, hw, he, hc, ha⟩ := acceptAs_next h
  · exact .inl rfl
  refine .inr ⟨d, rest, hf, hr, hw, he, hc, ?_⟩
  cases hrel : releaseAll (heldSlots s) s.free with
  | error free => simp only [hrel] at ha; exact .inl ⟨free, rfl, eq_of_next ha⟩
  | ok free => simp only [hrel] at ha; exact .inr ⟨free, rfl, eq_of_next ha⟩

/-- ACCEPT holds on an empty FIFO; else it is the row of the head's class. -/
theorem execAccept_next {s t : State} (h : execAccept s = .next t) :
    t = s ∨ ∃ d rest, s.fifo = d :: rest ∧ exec (classInstr (packetClass s d.hdr) d.hdr) s = .next t := by
  cases hf : s.fifo with
  | nil => exact .inl (by simpa [execAccept_empty hf] using h.symm)
  | cons d rest => exact .inr ⟨d, rest, rfl, execAccept_eq hf ▸ h⟩

/-! ## Worker steps -/

theorem execEmit_next {s t : State} (h : execEmit s = .next t) :
    t = s
      ∨ ∃ o, offer s = some o ∧ (dataAt s s.next.val).present = true
          ∧ inRange s (dataAt s s.next.val).slot 0 (offerLen s (dataAt s s.next.val)).toNat = true
          ∧ t = send o (markDispatched s) := by
  unfold execEmit at h
  split at h
  case h_1 => exact .inl (eq_of_next h)
  case h_2 o ho =>
    dsimp only at h
    split at h
    case isTrue => simp at h
    case isFalse hp =>
      split at h
      case isTrue hin => exact .inr ⟨o, ho, by simpa using hp, hin, eq_of_next h⟩
      case isFalse => simp at h

/-- Where EMIT_DONE leads (R152). -/
def emitDonePhase (s : State) : Wph :=
  match s.kind with
  | .none => .idle
  | .direct => .finish
  | .recon => if s.decoded then .finish else .acq

theorem execEmitDone_next {s t : State} (h : execEmitDone s = .next t) :
    t = s
      ∨ (s.run = .running ∧ s.wph = .emit ∧ s.next = s.limit ∧ t = { s with wph := emitDonePhase s }) := by
  unfold execEmitDone at h
  split at h
  case isTrue hg =>
    obtain ⟨hw, hn⟩ := hg
    obtain ⟨hr, hph⟩ := (workerIn_iff .emit s).1 hw
    exact .inr ⟨hr, hph, hn, eq_of_next h⟩
  case isFalse => exact .inl (eq_of_next h)

/-- The state ACQ makes of `s` with a destination for index `j`, before it looks for a further one (R157). -/
def acquired (j : Nat) (x : Slot) (free : List Slot) (s : State) : State :=
  setData { s with free := free } j ⟨true, x, s.cfgMtu, true, false⟩

theorem execAcq_next {pick : Nat} {s t : State} (h : execAcq pick s = .next t) :
    t = s
      ∨ ∃ x free j, s.run = .running ∧ s.wph = .acq ∧ acquire pick s.free = some (x, free)
          ∧ firstMissing s = some j
          ∧ ((firstMissing (acquired j x free s) = none ∧ t = { acquired j x free s with wph := .decode })
              ∨ (firstMissing (acquired j x free s) ≠ none ∧ t = acquired j x free s)) := by
  unfold execAcq at h
  split at h
  case isTrue hw =>
    obtain ⟨hr, hph⟩ := (workerIn_iff .acq s).1 hw
    split at h
    case h_1 => exact .inl (eq_of_next h)
    case h_2 x free hacq =>
      split at h
      case h_1 => simp at h
      case h_2 j hj =>
        refine .inr ⟨x, free, j, hr, hph, hacq, hj, ?_⟩
        change Host.Outcome.next (if firstMissing (acquired j x free s) = none
          then { acquired j x free s with wph := .decode } else acquired j x free s) = .next t at h
        split at h
        case isTrue hm => exact .inl ⟨hm, eq_of_next h⟩
        case isFalse hm => exact .inr ⟨hm, eq_of_next h⟩
  case isFalse => exact .inl (eq_of_next h)

theorem execDecode_next {reply : CodecReply} {s t : State} (h : execDecode reply s = .next t) :
    t = s
      ∨ ∃ b, s.run = .running ∧ s.wph = .decode ∧ buildShares s = .ok b
          ∧ (b.src ++ b.dst).all (fun x => inRange s x 0 s.cfgMtu.toNat) = true
          ∧ ((reply = .fail ∧ t = raiseFatal .codec s)
              ∨ ∃ dst, reply = .ok dst ∧ replyFits b.dst.length s.cfgMtu.toNat dst = true
                  ∧ t = { memWriteShares s b.dst dst with decoded := true, limit := s.cfgK, wph := .emit }) := by
  unfold execDecode at h
  split at h
  case isTrue hw =>
    obtain ⟨hr, hph⟩ := (workerIn_iff .decode s).1 hw
    split at h
    case h_1 => simp at h
    case h_2 b hb =>
      split at h
      case isTrue => simp at h
      case isFalse hin =>
        refine .inr ⟨b, hr, hph, hb, (Bool.not_eq_false _).mp hin, ?_⟩
        cases reply with
        | fail => exact .inl ⟨rfl, eq_of_next h⟩
        | ok dst =>
          simp only at h
          split at h
          case isTrue hfit => exact .inr ⟨dst, rfl, hfit, eq_of_next h⟩
          case isFalse => simp at h
  case isFalse => exact .inl (eq_of_next h)

theorem execFinish_next {s t : State} (h : execFinish s = .next t) :
    t = s
      ∨ (s.run = .running ∧ s.wph = .finish
          ∧ ((∃ free, releaseAll (heldSlots s) s.free = .error free ∧ t = raisePool free s)
              ∨ ∃ free, releaseAll (heldSlots s) s.free = .ok free
                  ∧ t = { clearBlock s with free := free, cbi := s.cbi + 1, wph := .idle })) := by
  unfold execFinish at h
  split at h
  case isTrue hw =>
    obtain ⟨hr, hph⟩ := (workerIn_iff .finish s).1 hw
    refine .inr ⟨hr, hph, ?_⟩
    cases hrel : releaseAll (heldSlots s) s.free with
    | error free => exact .inl ⟨free, rfl, by simpa [hrel] using h.symm⟩
    | ok free => exact .inr ⟨free, rfl, by simpa [hrel] using h.symm⟩
  case isFalse => exact .inl (eq_of_next h)

theorem execFatal_next {c : Cause} {s t : State} (h : execFatal c s = .next t) :
    t = s ∨ (s.run = .running ∧ t = raiseFatal c s) := by
  unfold execFatal at h
  split at h
  case isTrue hr => exact .inr ⟨hr, eq_of_next h⟩
  case isFalse => exact .inl (eq_of_next h)

end Sys2Proof.Machine
end

section
/-! The model's own fields: no instruction writes the parameters, the turns to come or the step count (R5, R20, log 1,
log 3). -/

namespace Sys2Proof.Machine

/-- `t` has the parameters, the turns to come and the step count of `s`. -/
def EnvKept (s t : State) : Prop := t.par = s.par ∧ t.sched = s.sched ∧ t.tick = s.tick

theorem EnvKept.refl (s : State) : EnvKept s s := ⟨rfl, rfl, rfl⟩

/-! ## Commands and illegal words -/

theorem execInit_keeps_env {k n : BitVec 6} {mtu : BitVec 16} {s t : State} (h : execInit k n mtu s = .next t) :
    EnvKept s t := by
  obtain ⟨-, rfl⟩ | ⟨-, -, rfl⟩ | ⟨-, -, rfl⟩ := execInit_next h <;> simp [EnvKept]

theorem execStop_keeps_env {s t : State} (h : execStop s = .next t) : EnvKept s t := by
  obtain ⟨s1, hs1, rfl⟩ := execStop_next h
  have h1 : EnvKept s s1 := by subst hs1; split <;> simp [EnvKept]
  split <;> simpa [EnvKept] using h1

theorem execStatus_keeps_env {s t : State} (h : execStatus s = .next t) : EnvKept s t := by
  simp [execStatus_next h, EnvKept]

theorem execSubmit_keeps_env {blk : Bool} {len : BitVec 16} {bytes : List Byte} {s t : State}
    (h : execSubmit blk len bytes s = .next t) : EnvKept s t := by
  obtain ⟨-, rfl⟩ | ⟨-, -, rfl⟩ | ⟨-, -, rfl⟩ | ⟨-, -, rfl⟩ := execSubmit_next h <;> simp [EnvKept]

theorem illegalWord_keeps_env {p : Port} {s t : State} (h : illegalWord p s = .next t) : EnvKept s t := by
  obtain rfl | rfl | rfl := illegalWord_next h <;> simp [EnvKept]

/-! ## Framer steps -/

theorem execFHdrByte_keeps_env {s t : State} (h : execFHdrByte s = .next t) : EnvKept s t := by
  obtain rfl | ⟨b, -, -, -, -, -, -, rfl⟩ := execFHdrByte_next h <;> simp [EnvKept]

theorem execFPayByte_keeps_env {pick : Nat} {s t : State} (h : execFPayByte pick s = .next t) : EnvKept s t := by
  obtain rfl | ⟨b, x, -, -, -, -, -, -, ⟨-, rfl⟩ | ⟨free, -, -, rfl⟩⟩ := execFPayByte_next h <;> simp [EnvKept]

theorem execFPoolFail_keeps_env {s t : State} (h : execFPoolFail s = .next t) : EnvKept s t := by
  obtain rfl | ⟨-, -, -, -, -, -, -, rfl⟩ := execFPoolFail_next h <;> simp [EnvKept]

theorem execFEnq_keeps_env {s t : State} (h : execFEnq s = .next t) : EnvKept s t := by
  obtain rfl | ⟨x, -, -, -, -, -, rfl⟩ := execFEnq_next h <;> simp [EnvKept]

theorem execFFifoFail_keeps_env {s t : State} (h : execFFifoFail s = .next t) : EnvKept s t := by
  obtain rfl | ⟨x, -, -, -, -, -, -, ⟨-, rfl⟩ | ⟨-, rfl⟩⟩ := execFFifoFail_next h <;> simp [EnvKept]

theorem execSubmitDone_keeps_env {s t : State} (h : execSubmitDone s = .next t) : EnvKept s t := by
  obtain rfl | ⟨-, -, -, -, rfl⟩ := execSubmitDone_next h <;> simp [EnvKept]

/-! ## ACCEPT and its classes -/

/-- A class keeps the environment where its action on the FIFO head does. -/
theorem acceptAs_keeps_env {c : PacketClass} {hd : Header} {s t : State} {act : Desc → List Desc → Result}
    (hact : ∀ d rest, act d rest = .next t → EnvKept s t) (h : acceptAs c hd s act = .next t) : EnvKept s t := by
  obtain rfl | ⟨d, rest, -, -, -, -, -, ha⟩ := acceptAs_next h
  · exact EnvKept.refl t
  · exact hact d rest ha

theorem discard_keeps_env {v : Verdict} {s t : State} {d : Desc} {rest : List Desc} (h : discard v s d rest = .next t) :
    EnvKept s t := by
  obtain ⟨-, rfl⟩ | ⟨-, rfl⟩ := discard_next h <;> simp [EnvKept]

theorem execPktData_keeps_env {hd : Header} {s t : State} (h : execPktData hd s = .next t) : EnvKept s t :=
  acceptAs_keeps_env (fun d rest ha => by rw [eq_of_next ha]; simp [EnvKept]) h

theorem execPktRed_keeps_env {hd : Header} {s t : State} (h : execPktRed hd s = .next t) : EnvKept s t :=
  acceptAs_keeps_env (fun d rest ha => by rw [eq_of_next ha]; simp [EnvKept]) h

theorem execPktSupersede_keeps_env {hd : Header} {s t : State} (h : execPktSupersede hd s = .next t) : EnvKept s t := by
  obtain rfl | ⟨d, rest, -, -, -, -, -, ⟨free, -, rfl⟩ | ⟨free, -, rfl⟩⟩ := execPktSupersede_next h
  · exact EnvKept.refl t
  · simp [EnvKept]
  · split <;> simp [EnvKept, superseded]

/-- Every packet row keeps the environment: it discards, inserts, or purges and inserts. -/
theorem classInstr_keeps_env {c : PacketClass} {hd : Header} {s t : State} (h : exec (classInstr c hd) s = .next t) :
    EnvKept s t := by
  cases c with
  | malformedIndex | malformedSize | stale | dupData | dupRed => exact acceptAs_keeps_env (fun _ _ => discard_keeps_env) h
  | supersede => exact execPktSupersede_keeps_env h
  | data => exact execPktData_keeps_env h
  | red => exact execPktRed_keeps_env h

theorem execAccept_keeps_env {s t : State} (h : execAccept s = .next t) : EnvKept s t := by
  obtain rfl | ⟨d, rest, -, hc⟩ := execAccept_next h
  · exact EnvKept.refl t
  · exact classInstr_keeps_env hc

/-! ## Worker steps -/

theorem execEmit_keeps_env {s t : State} (h : execEmit s = .next t) : EnvKept s t := by
  obtain rfl | ⟨o, -, -, -, rfl⟩ := execEmit_next h <;> simp [EnvKept]

theorem execEmitDone_keeps_env {s t : State} (h : execEmitDone s = .next t) : EnvKept s t := by
  obtain rfl | ⟨-, -, -, rfl⟩ := execEmitDone_next h <;> simp [EnvKept]

theorem execAcq_keeps_env {pick : Nat} {s t : State} (h : execAcq pick s = .next t) : EnvKept s t := by
  obtain rfl | ⟨x, free, j, -, -, -, -, ⟨-, rfl⟩ | ⟨-, rfl⟩⟩ := execAcq_next h <;> simp [EnvKept, acquired]

theorem execDecode_keeps_env {reply : CodecReply} {s t : State} (h : execDecode reply s = .next t) : EnvKept s t := by
  obtain rfl | ⟨b, -, -, -, -, ⟨-, rfl⟩ | ⟨dst, -, -, rfl⟩⟩ := execDecode_next h <;> simp [EnvKept]

theorem execFinish_keeps_env {s t : State} (h : execFinish s = .next t) : EnvKept s t := by
  obtain rfl | ⟨-, -, ⟨free, -, rfl⟩ | ⟨free, -, rfl⟩⟩ := execFinish_next h <;> simp [EnvKept]

/-! ## FATAL, RESET, and the statement -/

theorem execFatal_keeps_env {c : Cause} {s t : State} (h : execFatal c s = .next t) : EnvKept s t := by
  obtain rfl | ⟨-, rfl⟩ := execFatal_next h <;> simp [EnvKept]

/-- RESET keeps what the model holds beside the machine (log 20). -/
theorem execReset_keeps_env {s t : State} (h : execReset s = .next t) : EnvKept s t := by
  rw [eq_of_next h]
  exact ⟨rfl, rfl, rfl⟩

theorem exec_keeps_env {i : Instr} {s t : State} (h : exec i s = .next t) : EnvKept s t := by
  cases i with
  | init k n mtu => exact execInit_keeps_env h
  | submit blk len bytes => exact execSubmit_keeps_env h
  | stop => exact execStop_keeps_env h
  | status => exact execStatus_keeps_env h
  | reservedOp0 p | reservedOp5 p | reservedOp6 p | reservedOp7 p | reservedOp8 p | reservedOp9 p | reservedOp10 p
  | reservedOp11 p | reservedOp12 p | reservedOp13 p | reservedOp14 p | reservedOp15 p
  | illegalWrongPort p => exact illegalWord_keeps_env h
  | illegalSubmitReservedBits => exact illegalWord_keeps_env (p := .data) h
  | illegalStopStatusBits => exact illegalWord_keeps_env (p := .control) h
  | pktMalformedIndex hd => exact classInstr_keeps_env (c := .malformedIndex) h
  | pktMalformedSize hd => exact classInstr_keeps_env (c := .malformedSize) h
  | pktStale hd => exact classInstr_keeps_env (c := .stale) h
  | pktSupersede hd => exact classInstr_keeps_env (c := .supersede) h
  | pktDupData hd => exact classInstr_keeps_env (c := .dupData) h
  | pktData hd => exact classInstr_keeps_env (c := .data) h
  | pktDupRed hd => exact classInstr_keeps_env (c := .dupRed) h
  | pktRed hd => exact classInstr_keeps_env (c := .red) h
  | fHdrByte => exact execFHdrByte_keeps_env h
  | fPayByte pick => exact execFPayByte_keeps_env h
  | fPoolFail => exact execFPoolFail_keeps_env h
  | fEnq => exact execFEnq_keeps_env h
  | fFifoFail => exact execFFifoFail_keeps_env h
  | submitDone => exact execSubmitDone_keeps_env h
  | accept => exact execAccept_keeps_env h
  | emit => exact execEmit_keeps_env h
  | emitDone => exact execEmitDone_keeps_env h
  | acq pick => exact execAcq_keeps_env h
  | decode reply => exact execDecode_keeps_env h
  | finish => exact execFinish_keeps_env h
  | fatal c => exact execFatal_keeps_env h
  | reset => exact execReset_keeps_env h

/-- Settles O45: instruction by instruction, from what each leaves where it completes. -/
theorem environmentNeverWritten : Obligations.EnvironmentNeverWritten := by
  unfold Obligations.EnvironmentNeverWritten
  intro i s t h
  exact exec_keeps_env h

end Sys2Proof.Machine
end

section
/-! What any instruction can do where it completes, as one relation, and what that makes of a step. An invariant of the
machine is then a case for each constructor and no walk through the instructions. -/

namespace Sys2Proof.Machine

/-- A Release of the step meets a slot that is free already; FREE stands at `free` before it (R55, R185, log 9). The
Releases are the framer's in F_FIFO_FAIL, a discard's, and those of Purge and FINISH. -/
def DoubleFree (s : State) (free : List Slot) : Prop :=
  (∃ x, s.frPhase = .enq ∧ s.frSlot = some x ∧ x ∈ s.free ∧ free = s.free)
    ∨ (∃ d rest, s.fifo = d :: rest ∧ d.slot ∈ s.free ∧ free = s.free)
    ∨ releaseAll (heldSlots s) s.free = .error free

/-- `Effect i s t`: the instruction `i` may complete in `s` with the next state `t`. One constructor for each way a meaning
completes, with the guards that it needs; holding and answering are the same for every instruction that does so. -/
inductive Effect (i : Instr) (s : State) : State → Prop
  | held : Effect i s s
  | answered (os : List Output) (hos : ∀ len bytes, Output.ready len bytes ∉ os) :
      Effect i s { s with outs := s.outs ++ os }
  | started {k n : BitVec 6} {mtu : BitVec 16} (hi : i = .init k n mtu) (hr : s.run = .stopped)
      (hv : configValid s.par.mtuMax k.toNat n.toNat mtu.toNat = true) :
      Effect i s (respondControl .ok (startBlock k.toNat n.toNat mtu s))
  | stoppedAgain (os : List Output) (hi : i = .stop) (hr : s.run = .stopped)
      (hos : ∀ len bytes, Output.ready len bytes ∉ os) :
      Effect i s { s with subActive := false, outs := s.outs ++ os }
  | stopped (os : List Output) (hi : i = .stop) (hr : s.run ≠ .stopped)
      (hos : ∀ len bytes, Output.ready len bytes ∉ os) :
      Effect i s { teardown s with subActive := false, outs := s.outs ++ os }
  | submitted {blk : Bool} {len : BitVec 16} {bytes : List Byte} (hi : i = .submit blk len bytes)
      (ha : s.subActive = false) (hr : s.run = .running) :
      Effect i s { s with subActive := true, subBlk := blk, subLen := len, subPos := 0#16, subData := bytes }
  | headerByte {b : Byte} (hi : i = .fHdrByte) (hr : s.run = .running) (ha : s.subActive = true)
      (hpos : s.subPos < s.subLen) (hph : s.frPhase = .hdr) (hc : s.frHcnt ≠ 6) (hb : submitByte s = some b) :
      Effect i s (takeHeaderByte b s)
  | payloadByte {pick : Nat} {b : Byte} {x : Slot} {free : List Slot} (hi : i = .fPayByte pick)
      (hr : s.run = .running) (ha : s.subActive = true) (hpos : s.subPos < s.subLen) (hph : s.frPhase = .pay)
      (hb : submitByte s = some b) (hin : inRange s x s.frPcnt.toNat 1 = true)
      (hx : (s.frSlot = some x ∧ free = s.free) ∨ (s.frSlot = none ∧ acquire pick s.free = some (x, free))) :
      Effect i s (takePayloadByte b x { s with free := free })
  | poolFailed (hi : i = .fPoolFail) (hr : s.run = .running) (ha : s.subActive = true) (hblk : s.subBlk = false)
      (hpos : s.subPos < s.subLen) (hph : s.frPhase = .pay) (hslot : s.frSlot = none) (hfree : s.free = []) :
      Effect i s (completeSubmit .failPoolEmpty s.subPos s)
  | enqueued {x : Slot} (hi : i = .fEnq) (hr : s.run = .running) (ha : s.subActive = true) (hph : s.frPhase = .enq)
      (hlen : s.fifo.length < s.qEff.val) (hx : s.frSlot = some x) :
      Effect i s (framerReset { s with fifo := s.fifo ++ [⟨x, frHeader s⟩] })
  | fifoFailed {x : Slot} (hi : i = .fFifoFail) (hr : s.run = .running) (ha : s.subActive = true)
      (hblk : s.subBlk = false) (hph : s.frPhase = .enq) (hlen : s.fifo.length = s.qEff.val)
      (hx : s.frSlot = some x) (hm : x ∉ s.free) :
      Effect i s (completeSubmit .failFifoFull s.subPos (framerReset { s with free := insertSlot x s.free }))
  | submitDone (hi : i = .submitDone) (hr : s.run = .running) (ha : s.subActive = true) (hpos : s.subPos = s.subLen)
      (hph : s.frPhase ≠ .enq) : Effect i s (completeSubmit .ok s.subLen s)
  | discarded {v : Verdict} {d : Desc} {rest : List Desc} (hf : s.fifo = d :: rest) (hr : s.run = .running)
      (hw : s.wph = .idle) (hm : d.slot ∉ s.free) :
      Effect i s (label v { s with fifo := rest, free := insertSlot d.slot s.free })
  | dataInserted {d : Desc} {rest : List Desc} (hf : s.fifo = d :: rest) (hr : s.run = .running) (hw : s.wph = .idle)
      (hc : packetClass s d.hdr = .data) : Effect i s (afterInsert (insertData d { s with fifo := rest }))
  | redInserted {d : Desc} {rest : List Desc} (hf : s.fifo = d :: rest) (hr : s.run = .running) (hw : s.wph = .idle)
      (hc : packetClass s d.hdr = .red) : Effect i s (afterInsert (insertRed d { s with fifo := rest }))
  | purged {d : Desc} {rest : List Desc} {free : List Slot} (hi : i = .accept ∨ ∃ h, i = .pktSupersede h)
      (hf : s.fifo = d :: rest) (hr : s.run = .running) (hw : s.wph = .idle)
      (hc : packetClass s d.hdr = .supersede) (hrel : releaseAll (heldSlots s) s.free = .ok free) :
      Effect i s (afterInsert (if d.hdr.pi.toNat < s.cfgK.val then insertData d (superseded d.hdr.bi rest free s)
        else insertRed d (superseded d.hdr.bi rest free s)))
  | emitted {o : Output} (hi : i = .emit) (ho : offer s = some o) (hp : (dataAt s s.next.val).present = true)
      (hin : inRange s (dataAt s s.next.val).slot 0 (offerLen s (dataAt s s.next.val)).toNat = true) :
      Effect i s (send o (markDispatched s))
  | emitDone (hi : i = .emitDone) (hr : s.run = .running) (hw : s.wph = .emit) (hn : s.next = s.limit) :
      Effect i s { s with wph := emitDonePhase s }
  | destination {pick j : Nat} {x : Slot} {free : List Slot} (hi : i = .acq pick) (hr : s.run = .running)
      (hw : s.wph = .acq) (hacq : acquire pick s.free = some (x, free)) (hj : firstMissing s = some j) :
      Effect i s { acquired j x free s with
        wph := if firstMissing (acquired j x free s) = none then .decode else .acq }
  | decoded {b : Shares} {dst : List (List Byte)} (hi : i = .decode (.ok dst)) (hr : s.run = .running)
      (hw : s.wph = .decode) (hb : buildShares s = .ok b)
      (hin : (b.src ++ b.dst).all (fun x => inRange s x 0 s.cfgMtu.toNat) = true)
      (hfit : replyFits b.dst.length s.cfgMtu.toNat dst = true) :
      Effect i s { memWriteShares s b.dst dst with decoded := true, limit := s.cfgK, wph := .emit }
  | finished {free : List Slot} (hi : i = .finish) (hr : s.run = .running) (hw : s.wph = .finish)
      (hrel : releaseAll (heldSlots s) s.free = .ok free) :
      Effect i s { clearBlock s with free := free, cbi := s.cbi + 1, wph := .idle }
  | raised {c : Cause} (hi : i = .fatal c ∨ (i = .decode .fail ∧ s.wph = .decode ∧ c = .codec))
      (hr : s.run = .running) : Effect i s (raiseFatal c s)
  | doubleFreed {free : List Slot} (hr : s.run = .running) (hd : DoubleFree s free) : Effect i s (raisePool free s)
  | reset (hi : i = .reset) :
      Effect i s { State.reset with
        par := s.par, sched := s.sched, tick := s.tick, bufEpoch := s.tick, outs := s.outs, verdicts := s.verdicts }

/-! ## Each meaning's effects -/

section
variable {i : Instr} {s t : State}

theorem respondControl_effect (c : ResultCode) : Effect i s (respondControl c s) := .answered [_] (by simp)

theorem respondData_effect (c : ResultCode) (consumed : BitVec 16) : Effect i s (respondData c consumed s) :=
  .answered [_] (by simp)

theorem illegalWord_effect {p : Port} (h : illegalWord p s = .next t) : Effect i s t := by
  obtain rfl | rfl | rfl := illegalWord_next h
  · exact .held
  · exact respondControl_effect _
  · exact respondData_effect _ _

theorem execInit_effect {k n : BitVec 6} {mtu : BitVec 16} (h : execInit k n mtu s = .next t) :
    Effect (.init k n mtu) s t := by
  obtain ⟨-, rfl⟩ | ⟨-, -, rfl⟩ | ⟨hr, hv, rfl⟩ := execInit_next h
  · exact respondControl_effect _
  · exact respondControl_effect _
  · exact .started rfl hr hv

theorem execStatus_effect (h : execStatus s = .next t) : Effect i s t := by
  have ht : t = { s with outs := s.outs ++ [.ctrl (resp32 .ok 0#16), .status (st0 s) (st1 s) (st2 s) (st3 s)] } := by
    rw [execStatus_next h]
    simp [respondControl, send]
  exact ht ▸ .answered _ (by simp)

/-- STOP first answers an active SUBMIT (R102). -/
theorem stopAnswer_eq (s : State) :
    (if s.subActive then completeSubmit .failStopped s.subPos s else s)
      = { s with
          subActive := false
          outs := s.outs ++ if s.subActive then [.data (resp32 .failStopped s.subPos)] else [] } := by
  cases s with
  | mk => split <;> simp_all [completeSubmit, respondData, send]

theorem execStop_effect (h : execStop s = .next t) : Effect .stop s t := by
  obtain ⟨s1, hs1, rfl⟩ := execStop_next h
  rw [stopAnswer_eq] at hs1
  subst hs1
  split
  case isTrue hr =>
    have he := Effect.stoppedAgain (i := .stop) (s := s)
      ((if s.subActive then [.data (resp32 .failStopped s.subPos)] else []) ++ [.ctrl (resp32 .ok 0#16)]) rfl hr
      (by split <;> simp)
    simpa [respondControl, send] using he
  case isFalse hr =>
    have he := Effect.stopped (i := .stop) (s := s)
      ((if s.subActive then [.data (resp32 .failStopped s.subPos)] else []) ++ [.ctrl (resp32 .ok 0#16)]) rfl hr
      (by split <;> simp)
    simpa [respondControl, send, teardown, clearSequencing, clearCollections, framerReset] using he

theorem execSubmit_effect {blk : Bool} {len : BitVec 16} {bytes : List Byte} (h : execSubmit blk len bytes s = .next t) :
    Effect (.submit blk len bytes) s t := by
  obtain ⟨-, rfl⟩ | ⟨-, -, rfl⟩ | ⟨-, -, rfl⟩ | ⟨ha, hr, rfl⟩ := execSubmit_next h
  · exact .held
  · exact respondData_effect _ _
  · exact respondData_effect _ _
  · exact .submitted rfl ha hr

theorem execFHdrByte_effect (h : execFHdrByte s = .next t) : Effect .fHdrByte s t := by
  obtain rfl | ⟨b, hr, ha, hpos, hph, hc, hb, rfl⟩ := execFHdrByte_next h
  · exact .held
  · exact .headerByte rfl hr ha hpos hph hc hb

theorem execFPayByte_effect {pick : Nat} (h : execFPayByte pick s = .next t) : Effect (.fPayByte pick) s t := by
  obtain rfl | ⟨b, x, hr, ha, hpos, hph, hb, hin, ⟨hx, rfl⟩ | ⟨free, hx, hacq, rfl⟩⟩ := execFPayByte_next h
  · exact .held
  · exact .payloadByte rfl hr ha hpos hph hb hin (.inl ⟨hx, rfl⟩)
  · exact .payloadByte rfl hr ha hpos hph hb hin (.inr ⟨hx, hacq⟩)

theorem execFPoolFail_effect (h : execFPoolFail s = .next t) : Effect .fPoolFail s t := by
  obtain rfl | ⟨hr, ha, hblk, hpos, hph, hslot, hfree, rfl⟩ := execFPoolFail_next h
  · exact .held
  · exact .poolFailed rfl hr ha hblk hpos hph hslot hfree

theorem execFEnq_effect (h : execFEnq s = .next t) : Effect .fEnq s t := by
  obtain rfl | ⟨x, hr, ha, hph, hlen, hx, rfl⟩ := execFEnq_next h
  · exact .held
  · exact .enqueued rfl hr ha hph hlen hx

theorem execFFifoFail_effect (h : execFFifoFail s = .next t) : Effect .fFifoFail s t := by
  obtain rfl | ⟨x, hr, ha, hblk, hph, hlen, hx, ⟨hm, rfl⟩ | ⟨hm, rfl⟩⟩ := execFFifoFail_next h
  · exact .held
  · exact .doubleFreed hr (.inl ⟨x, hph, hx, hm, rfl⟩)
  · exact .fifoFailed rfl hr ha hblk hph hlen hx hm

theorem execSubmitDone_effect (h : execSubmitDone s = .next t) : Effect .submitDone s t := by
  obtain rfl | ⟨hr, ha, hpos, hph, rfl⟩ := execSubmitDone_next h
  · exact .held
  · exact .submitDone rfl hr ha hpos hph

theorem acceptAs_discard_effect {c : PacketClass} {hd : Header} {v : Verdict}
    (h : acceptAs c hd s (discard v s) = .next t) : Effect i s t := by
  obtain rfl | ⟨d, rest, hf, hr, hw, -, -, ha⟩ := acceptAs_next h
  · exact .held
  obtain ⟨hm, rfl⟩ | ⟨hm, rfl⟩ := discard_next ha
  · exact .doubleFreed hr (.inr (.inl ⟨d, rest, hf, hm, rfl⟩))
  · exact .discarded hf hr hw hm

theorem execPktData_effect {hd : Header} (h : execPktData hd s = .next t) : Effect i s t := by
  obtain rfl | ⟨d, rest, hf, hr, hw, rfl, hc, ha⟩ := acceptAs_next h
  · exact .held
  · exact eq_of_next ha ▸ .dataInserted hf hr hw hc

theorem execPktRed_effect {hd : Header} (h : execPktRed hd s = .next t) : Effect i s t := by
  obtain rfl | ⟨d, rest, hf, hr, hw, rfl, hc, ha⟩ := acceptAs_next h
  · exact .held
  · exact eq_of_next ha ▸ .redInserted hf hr hw hc

theorem execPktSupersede_effect {hd : Header} (hi : i = .accept ∨ ∃ h, i = .pktSupersede h)
    (h : execPktSupersede hd s = .next t) : Effect i s t := by
  obtain rfl | ⟨d, rest, hf, hr, hw, rfl, hc, ⟨free, hrel, rfl⟩ | ⟨free, hrel, rfl⟩⟩ := execPktSupersede_next h
  · exact .held
  · exact .doubleFreed hr (.inr (.inr hrel))
  · exact .purged hi hf hr hw hc hrel

/-- A packet row, run on its own or by ACCEPT (log 14). -/
theorem classInstr_effect {c : PacketClass} {hd : Header} (hi : i = .accept ∨ i = classInstr c hd)
    (h : exec (classInstr c hd) s = .next t) : Effect i s t := by
  cases c with
  | malformedIndex | malformedSize | stale | dupData | dupRed => exact acceptAs_discard_effect h
  | supersede => exact execPktSupersede_effect (hi.imp_right fun he => ⟨hd, he⟩) h
  | data => exact execPktData_effect h
  | red => exact execPktRed_effect h

theorem execAccept_effect (h : execAccept s = .next t) : Effect .accept s t := by
  obtain rfl | ⟨d, rest, -, hc⟩ := execAccept_next h
  · exact .held
  · exact classInstr_effect (.inl rfl) hc

theorem execEmit_effect (h : execEmit s = .next t) : Effect .emit s t := by
  obtain rfl | ⟨o, ho, hp, hin, rfl⟩ := execEmit_next h
  · exact .held
  · exact .emitted rfl ho hp hin

theorem execEmitDone_effect (h : execEmitDone s = .next t) : Effect .emitDone s t := by
  obtain rfl | ⟨hr, hw, hn, rfl⟩ := execEmitDone_next h
  · exact .held
  · exact .emitDone rfl hr hw hn

theorem execAcq_effect {pick : Nat} (h : execAcq pick s = .next t) : Effect (.acq pick) s t := by
  obtain rfl | ⟨x, free, j, hr, hw, hacq, hj, hcase⟩ := execAcq_next h
  · exact .held
  have he := Effect.destination rfl hr hw hacq hj
  obtain ⟨hm, rfl⟩ | ⟨hm, rfl⟩ := hcase
  · simpa only [if_pos hm] using he
  · have hph : (acquired j x free s).wph = .acq := hw
    simpa only [if_neg hm, ← hph] using he

theorem execDecode_effect {reply : CodecReply} (h : execDecode reply s = .next t) : Effect (.decode reply) s t := by
  obtain rfl | ⟨b, hr, hw, hb, hin, ⟨rfl, rfl⟩ | ⟨dst, rfl, hfit, rfl⟩⟩ := execDecode_next h
  · exact .held
  · exact .raised (.inr ⟨rfl, hw, rfl⟩) hr
  · exact .decoded rfl hr hw hb hin hfit

theorem execFinish_effect (h : execFinish s = .next t) : Effect .finish s t := by
  obtain rfl | ⟨hr, hw, ⟨free, hrel, rfl⟩ | ⟨free, hrel, rfl⟩⟩ := execFinish_next h
  · exact .held
  · exact .doubleFreed hr (.inr (.inr hrel))
  · exact .finished rfl hr hw hrel

theorem execFatal_effect {c : Cause} (h : execFatal c s = .next t) : Effect (.fatal c) s t := by
  obtain rfl | ⟨hr, rfl⟩ := execFatal_next h
  · exact .held
  · exact .raised (.inl rfl) hr

/-- The relation says everything an instruction can do where it completes. -/
theorem exec_effect (h : exec i s = .next t) : Effect i s t := by
  cases i with
  | init k n mtu => exact execInit_effect h
  | submit blk len bytes => exact execSubmit_effect h
  | stop => exact execStop_effect h
  | status => exact execStatus_effect h
  | reservedOp0 p | reservedOp5 p | reservedOp6 p | reservedOp7 p | reservedOp8 p | reservedOp9 p | reservedOp10 p
  | reservedOp11 p | reservedOp12 p | reservedOp13 p | reservedOp14 p | reservedOp15 p
  | illegalWrongPort p => exact illegalWord_effect h
  | illegalSubmitReservedBits => exact illegalWord_effect (p := .data) h
  | illegalStopStatusBits => exact illegalWord_effect (p := .control) h
  | pktMalformedIndex hd => exact classInstr_effect (c := .malformedIndex) (.inr rfl) h
  | pktMalformedSize hd => exact classInstr_effect (c := .malformedSize) (.inr rfl) h
  | pktStale hd => exact classInstr_effect (c := .stale) (.inr rfl) h
  | pktSupersede hd => exact classInstr_effect (c := .supersede) (.inr rfl) h
  | pktDupData hd => exact classInstr_effect (c := .dupData) (.inr rfl) h
  | pktData hd => exact classInstr_effect (c := .data) (.inr rfl) h
  | pktDupRed hd => exact classInstr_effect (c := .dupRed) (.inr rfl) h
  | pktRed hd => exact classInstr_effect (c := .red) (.inr rfl) h
  | fHdrByte => exact execFHdrByte_effect h
  | fPayByte pick => exact execFPayByte_effect h
  | fPoolFail => exact execFPoolFail_effect h
  | fEnq => exact execFEnq_effect h
  | fFifoFail => exact execFFifoFail_effect h
  | submitDone => exact execSubmitDone_effect h
  | accept => exact execAccept_effect h
  | emit => exact execEmit_effect h
  | emitDone => exact execEmitDone_effect h
  | acq pick => exact execAcq_effect h
  | decode reply => exact execDecode_effect h
  | finish => exact execFinish_effect h
  | fatal c => exact execFatal_effect h
  | reset => exact eq_of_next h ▸ .reset rfl

end

/-! ## What a step runs is well formed -/

theorem reservedInstr_wf (op : BitVec 4) (p : Port) (hi : BitVec 28) : (reservedInstr op p hi).wf = true := by
  unfold reservedInstr
  split <;> rfl

theorem decodeControl_wf (w : Word) : (decodeControl w).wf = true := by
  simp only [decodeControl]
  split_ifs with h1 h2 h3 h3' h4 h4'
  · rfl
  · simp [Instr.wf, wrongPort, opOf, h2]
  · rfl
  · simp [Instr.wf, stopStatusBitsSet, opOf, h3, h3']
  · rfl
  · simp [Instr.wf, stopStatusBitsSet, opOf, h4, h4']
  · exact reservedInstr_wf _ _ _

/-- A SUBMIT takes exactly its LEN bytes from the port (R76). -/
theorem decodeData_wf {w : Word} {stream rest : List Byte} {i : Instr} (h : decodeData w stream = .ok (i, rest)) :
    i.wf = true := by
  simp only [decodeData] at h
  split_ifs at h with h2 hb hlen ho <;> cases h
  · simpa [Instr.wf] using hlen
  · simp [Instr.wf, submitBitsSet, opOf, h2, hb]
  · obtain h1 | h3 | h4 := ho <;> simp [Instr.wf, wrongPort, opOf, *]
  · exact reservedInstr_wf _ _ _

theorem framerStep_wf (pick : Nat) (s : State) : (framerStep pick s).wf = true := by
  unfold framerStep
  split <;> split_ifs <;> rfl

theorem workerStep_wf {env : WorkerEnv} {s : State} {i : Instr} (h : workerStep env s = some i) : i.wf = true := by
  cases hw : s.wph <;> simp only [workerStep, hw] at h
  case emit => split_ifs at h <;> cases h <;> rfl
  all_goals cases h <;> rfl

theorem fetchTurn_wf {tn : Turn} {s : State} {i : Instr} (h : fetchTurn tn s = .run i) : i.wf = true := by
  cases tn with
  | ctrl w => cases h; exact decodeControl_wf w
  | data w stream =>
    simp only [fetchTurn] at h
    split at h
    · cases h
    · split at h
      case h_1 hd => cases h; exact decodeData_wf hd
      case h_2 => cases h
  | framer pick => cases h; exact framerStep_wf pick s
  | worker env =>
    simp only [fetchTurn] at h
    split at h
    case h_1 hw => cases h; exact workerStep_wf hw
    case h_2 => cases h
  | reset => cases h; rfl

/-! ## A step's effect -/

/-- A step that answers a next state passes its turn or has the effect of one well-formed instruction. -/
theorem step_next {s t : State} (h : step s = .next t) :
    t = (nextTurn s).2 ∨ ∃ i, i.wf = true ∧ Effect i (nextTurn s).2 t := by
  obtain ⟨i, hf, he⟩ | ⟨-, he⟩ | ⟨-, he⟩ := step_cases s <;> rw [he] at h
  · exact .inr ⟨i, fetchTurn_wf hf, exec_effect h⟩
  · exact .inl (eq_of_next h)
  · cases h

/-- What every effect of a well-formed instruction keeps, and does not depend on the turns to come, every step keeps. -/
theorem step_keeps {P : State → Prop} (hturn : ∀ s ts n, P s → P { s with sched := ts, tick := n })
    (heff : ∀ i s t, i.wf = true → Effect i s t → P s → P t) {s t : State} (hs : P s) (h : step s = .next t) : P t := by
  have hs1 : P (nextTurn s).2 := nextTurn_state s ▸ hturn s _ _ hs
  obtain rfl | ⟨i, hwf, he⟩ := step_next h
  · exact hs1
  · exact heff i _ t hwf he hs1

end Sys2Proof.Machine
end

section
/-! The `disp` flags and NEXT (R30): what is dispatched is exactly the indices below NEXT, and it is present. -/

namespace Sys2Proof.Machine

/-! ## What the guards of an insert, a purge and an offer give -/

/-- A packet of the class DATA has a data index whose entry is absent (R74, R138). -/
theorem packetClass_data {s : State} {h : Header} (hc : packetClass s h = .data) :
    h.pi.toNat < s.cfgK.val ∧ (dataAt s h.pi.toNat).present = false := by
  simp only [packetClass, classify] at hc
  split_ifs at hc with _ _ _ _ hk hp
  exact ⟨hk, Bool.eq_false_iff.mpr hp⟩

/-- A superseding packet is of a later block (R74, R136). -/
theorem packetClass_supersede {s : State} {h : Header} (hc : packetClass s h = .supersede) : s.cbi < h.bi := by
  simp only [packetClass, classify] at hc
  split_ifs at hc with _ _ _ hb
  exact hb

/-- An offer is of an entry below LIMIT (R38). -/
theorem next_lt_limit_of_offer {s : State} {o : Output} (h : offer s = some o) : s.next < s.limit := by
  rw [offer_eq] at h
  split at h
  case isTrue hg => exact hg.2.2
  case isFalse => cases h

/-! ## What keeps the flags -/

/-- The flags depend on CFG_K, DATA and NEXT alone. -/
theorem dispatchInv_congr {s t : State} (hk : t.cfgK = s.cfgK) (hd : t.data = s.data) (hn : t.next = s.next)
    (h : DispatchInv s) : DispatchInv t := by
  have hat : ∀ i, dataAt t i = dataAt s i := fun i => by simp only [dataAt, hd]
  intro i hi
  rw [hat, hn]
  exact h i (hk ▸ hi)

/-- Nothing is dispatched where NEXT = 0 and the block's flags are clear. -/
theorem dispatchInv_of_undispatched {s : State} (hn : s.next = 0)
    (hd : ∀ i, i < s.cfgK.val → (dataAt s i).disp = false) : DispatchInv s := by
  intro i hi
  simp [hn, hd i.val hi]

/-- INIT and STOP leave nothing dispatched (R100, R102), whatever CFG_K they leave. -/
theorem dispatchInv_clearCollections {s t : State} (hn : t.next = 0) (hd : t.data = (clearCollections s).data) :
    DispatchInv t :=
  dispatchInv_of_undispatched hn fun i _ => by
    have hat : dataAt t i = dataAt (clearCollections s) i := by simp only [dataAt, hd]
    rw [hat, dataAt_clearCollections, DataEntry.cleared]

/-- Purge and FINISH leave nothing dispatched (R135, R163). -/
theorem dispatchInv_clearBlock (s : State) : DispatchInv (clearBlock s) :=
  dispatchInv_of_undispatched rfl fun i hi => by
    rw [clearBlock_cfgK] at hi
    rw [dataAt_clearBlock, if_pos hi, DataEntry.cleared]

/-- An absent entry of the block is not below NEXT. -/
theorem next_le_of_absent {s : State} {j : Nat} (hj : j < s.cfgK.val) (hp : (dataAt s j).present = false)
    (h : DispatchInv s) : s.next.val ≤ j := by
  by_contra hlt
  have hpres := (h ⟨j, by omega⟩ hj).2 (Nat.lt_of_not_le hlt)
  exact Bool.false_ne_true (hp.symm.trans hpres)

/-- An entry from NEXT up may be replaced by one that is not dispatched. -/
theorem dispatchInv_setData {s : State} {j : Nat} {e : DataEntry} (hj : j < s.cfgK.val) (hn : s.next.val ≤ j)
    (he : e.disp = false) (h : DispatchInv s) : DispatchInv (setData s j e) := by
  intro i hi
  rw [dataAt_setData s j i.val e (by omega), setData_next]
  by_cases hij : i.val = j
  · simp [hij, he, Nat.not_lt.mpr hn]
  · simpa only [if_neg hij] using h i hi

/-- EMIT dispatches the entry at NEXT and moves NEXT past it (R150). -/
theorem dispatchInv_markDispatched {s : State} (hn : s.next < s.limit) (hp : (dataAt s s.next.val).present = true)
    (h : DispatchInv s) : DispatchInv (markDispatched s) := by
  have hn31 : s.next.val < 31 := by have := s.limit.isLt; omega
  have hsucc : (s.next + 1).val = s.next.val + 1 := Fin.val_add_one_of_lt' (by omega)
  have hat : ∀ i, dataAt (markDispatched s) i
      = if i = s.next.val then { dataAt s s.next.val with disp := true } else dataAt s i :=
    fun i => dataAt_setData s _ i _ hn31
  intro i hi
  rw [hat, markDispatched_next, hsucc]
  by_cases hin : i.val = s.next.val
  · simp [hin, hp]
  · obtain ⟨hdisp, hpres⟩ := h i hi
    have hlt : i.val < s.next.val + 1 ↔ i.val < s.next.val := by omega
    simpa only [if_neg hin, hlt] using ⟨hdisp, hpres⟩

/-- The packet that supersedes a block is inserted into the purged one, undispatched (R136). -/
theorem dispatchInv_insert_superseded {bi : BitVec 24} {rest : List Desc} {free : List Slot} {s : State} (d : Desc) :
    DispatchInv (if d.hdr.pi.toNat < s.cfgK.val then insertData d (superseded bi rest free s)
      else insertRed d (superseded bi rest free s)) := by
  have hpurged : DispatchInv (superseded bi rest free s) := dispatchInv_congr rfl rfl rfl (dispatchInv_clearBlock s)
  split
  case isTrue hk =>
    have hset := dispatchInv_setData (s := superseded bi rest free s) (e := ⟨true, d.slot, d.hdr.ps, false, false⟩)
      hk (Nat.zero_le _) rfl hpurged
    exact dispatchInv_congr rfl rfl rfl hset
  case isFalse => exact dispatchInv_congr rfl rfl rfl hpurged

theorem effect_keeps_dispatchInv {i : Instr} {s t : State} (he : Effect i s t) (h : DispatchInv s) : DispatchInv t := by
  cases he with
  | held => exact h
  | started | stopped => exact dispatchInv_clearCollections (s := s) rfl rfl
  | reset => exact dispatchInv_of_undispatched rfl fun i hi => absurd hi (Nat.not_lt_zero i)
  | dataInserted _ _ _ hc =>
    obtain ⟨hk, hp⟩ := packetClass_data hc
    exact dispatchInv_congr rfl rfl rfl (dispatchInv_setData hk (next_le_of_absent hk hp h) rfl h)
  | purged => exact dispatchInv_congr rfl rfl rfl (dispatchInv_insert_superseded _)
  | emitted _ ho hp =>
    exact dispatchInv_congr rfl rfl rfl (dispatchInv_markDispatched (next_lt_limit_of_offer ho) hp h)
  | destination _ _ _ _ hj =>
    obtain ⟨hk, hp, -⟩ := (firstMissing_spec s _).1 hj
    exact dispatchInv_congr rfl rfl rfl (dispatchInv_setData hk (next_le_of_absent hk hp h) rfl h)
  | finished => exact dispatchInv_congr rfl rfl rfl (dispatchInv_clearBlock s)
  | answered | stoppedAgain | submitted | headerByte | payloadByte | poolFailed | enqueued | fifoFailed | submitDone
  | discarded | redInserted | emitDone | decoded | raised | doubleFreed =>
    exact dispatchInv_congr (by simp) (by simp) (by simp) h

/-- Settles O51: EMIT alone moves NEXT within a block, past the one entry it marks; an insert or a destination replaces an
absent entry, which is not below NEXT; what else writes a flag or NEXT clears them all. -/
theorem dispatchFlagsKept : Obligations.DispatchFlagsKept := by
  unfold Obligations.DispatchFlagsKept
  intro s t
  exact step_keeps (P := DispatchInv) (fun s ts n => dispatchInv_congr rfl rfl rfl)
    (fun i s t _ he h => effect_keeps_dispatchInv he h)

end Sys2Proof.Machine
end

section
/-! The framer's and the SUBMIT registers (R34, R37): their legal combinations are kept by every step. -/

namespace Sys2Proof.Machine

/-- `t` has every register FramerInv speaks of as `s` has it. -/
def FramerKept (s t : State) : Prop :=
  t.run = s.run ∧ t.cfgMtu = s.cfgMtu ∧ t.frPhase = s.frPhase ∧ t.frHcnt = s.frHcnt ∧ t.frSlot = s.frSlot
    ∧ t.frPcnt = s.frPcnt ∧ t.subActive = s.subActive ∧ t.subLen = s.subLen ∧ t.subPos = s.subPos
    ∧ t.subData = s.subData

theorem framerInv_congr {s t : State} (hk : FramerKept s t) (h : FramerInv s) : FramerInv t := by
  obtain ⟨hrun, hmtu, hph, hcnt, hslot, hpcnt, hact, hlen, hpos, hdata⟩ := hk
  exact
    { active := by simpa only [hact, hrun] using h.active
      stopped := by simpa only [hrun, hph, hcnt] using h.stopped
      mtu := by simpa only [hrun, hmtu] using h.mtu
      hdr := by simpa only [hph, hcnt, hslot] using h.hdr
      pay := by simpa only [hph, hpcnt, hmtu, hslot] using h.pay
      enq := by simpa only [hph, hslot] using h.enq
      bytes := by simpa only [hact, hdata, hlen, hpos] using h.bytes }

/-! ## The combinations between packets and between SUBMITs -/

/-- At a packet boundary with no active SUBMIT only the configuration matters. -/
theorem framerInv_of_idle {s : State} (hact : s.subActive = false) (hph : s.frPhase = .hdr) (hcnt : s.frHcnt = 0)
    (hslot : s.frSlot = none) (hmtu : s.run ≠ .stopped → 1 ≤ s.cfgMtu.toNat) : FramerInv s :=
  { active := by simp [hact], stopped := fun _ => ⟨hph, hcnt⟩, mtu := hmtu, hdr := by simp [hcnt, hslot]
    pay := by simp [hph], enq := by simp [hph], bytes := by simp [hact] }

/-- With no active SUBMIT less is asked of the registers. -/
theorem framerInv_inactive {s : State} (h : FramerInv s) : FramerInv { s with subActive := false } :=
  { active := nofun, stopped := h.stopped, mtu := h.mtu, hdr := h.hdr, pay := h.pay, enq := h.enq, bytes := nofun }

theorem framerInv_completeSubmit {s : State} (c : ResultCode) (consumed : BitVec 16) (h : FramerInv s) :
    FramerInv (completeSubmit c consumed s) :=
  framerInv_congr (by simp [FramerKept]) (framerInv_inactive h)

theorem framerInv_framerReset {s : State} (h : FramerInv s) : FramerInv (framerReset s) :=
  { active := h.active, stopped := fun _ => ⟨rfl, rfl⟩, mtu := h.mtu, hdr := fun _ => ⟨Nat.zero_lt_succ 5, rfl⟩
    pay := nofun, enq := nofun, bytes := h.bytes }

/-- The fatal entry leaves the framer where it stands and answers the active SUBMIT (R186). -/
theorem framerInv_raiseFatal {s : State} (c : Cause) (hr : s.run = .running) (h : FramerInv s) :
    FramerInv (raiseFatal c s) :=
  { active := by simp
    stopped := by simp
    mtu := fun _ => by simpa using h.mtu (by simp [hr])
    hdr := by simpa using h.hdr
    pay := by simpa using h.pay
    enq := by simpa using h.enq
    bytes := by simp }

/-! ## A SUBMIT starts and its bytes are taken -/

/-- A SUBMIT starts with its LEN bytes there and none taken (R104). -/
theorem framerInv_submitted {s : State} {len : BitVec 16} {bytes : List Byte} (blk : Bool) (hr : s.run = .running)
    (hlen : bytes.length = len.toNat) (h : FramerInv s) :
    FramerInv { s with subActive := true, subBlk := blk, subLen := len, subPos := 0#16, subData := bytes } :=
  { active := fun _ => hr, stopped := h.stopped, mtu := h.mtu, hdr := h.hdr, pay := h.pay, enq := h.enq
    bytes := fun _ => ⟨hlen, Nat.zero_le _⟩ }

/-- A number below another of 16 bits can be counted up. -/
theorem toNat_succ_of_lt {a b : BitVec 16} (h : a < b) : (a + 1).toNat = a.toNat + 1 := by
  bv_omega

/-- The next byte taken, the position stays within LEN (R37). -/
theorem bytes_after_take {s : State} (hpos : s.subPos < s.subLen) (ha : s.subActive = true) (h : FramerInv s) :
    s.subData.length = s.subLen.toNat ∧ (s.subPos + 1).toNat ≤ s.subLen.toNat := by
  have hlt := BitVec.lt_def.1 hpos
  rw [toNat_succ_of_lt hpos]
  exact ⟨(h.bytes ha).1, hlt⟩

/-- The sixth header byte begins the payload (R106). -/
theorem takeHeaderByte_frPhase (b : Byte) (s : State) :
    (takeHeaderByte b s).frPhase = if s.frHcnt.val + 1 = 6 then .pay else s.frPhase := by
  simp only [takeHeaderByte]
  split <;> rfl

theorem takeHeaderByte_frPcnt (b : Byte) (s : State) :
    (takeHeaderByte b s).frPcnt = if s.frHcnt.val + 1 = 6 then 0#16 else s.frPcnt := by
  simp only [takeHeaderByte]
  split <;> rfl

/-- The payload begins with no slot and no byte stored; before that the header lacks a byte. -/
theorem framerInv_takeHeaderByte {s : State} (b : Byte) (hr : s.run = .running) (ha : s.subActive = true)
    (hpos : s.subPos < s.subLen) (hph : s.frPhase = .hdr) (h : FramerInv s) : FramerInv (takeHeaderByte b s) := by
  obtain ⟨hcnt, hslot⟩ := h.hdr hph
  have hmtu : 1 ≤ s.cfgMtu.toNat := h.mtu (by simp [hr])
  have hcnt' : (takeHeaderByte b s).frHcnt.val = s.frHcnt.val + 1 := by
    rw [takeHeaderByte_frHcnt, Fin.val_ofNat]
    omega
  have hbytes := bytes_after_take hpos ha h
  have hph' := takeHeaderByte_frPhase b s
  have hpcnt' := takeHeaderByte_frPcnt b s
  by_cases hlast : s.frHcnt.val + 1 = 6
  · rw [if_pos hlast] at hph' hpcnt'
    exact
      { active := by simp [hr], stopped := by simp [hr], mtu := by simpa using fun _ => hmtu, hdr := by simp [hph']
        pay := by simpa [hpcnt', hslot] using fun _ => Nat.lt_of_succ_le hmtu, enq := by simp [hph']
        bytes := fun _ => by simpa using hbytes }
  · rw [if_neg hlast, hph] at hph'
    exact
      { active := by simp [hr], stopped := by simp [hr], mtu := by simpa using fun _ => hmtu
        hdr := fun _ => ⟨by omega, by simpa using hslot⟩, pay := by simp [hph'], enq := by simp [hph']
        bytes := fun _ => by simpa using hbytes }

/-- The last byte of the packet leads to ENQ, an earlier one stays below the mtu; either way the slot is held (R107). -/
theorem framerInv_takePayloadByte {s : State} (b : Byte) (x : Slot) (hr : s.run = .running) (ha : s.subActive = true)
    (hpos : s.subPos < s.subLen) (hph : s.frPhase = .pay) (h : FramerInv s) : FramerInv (takePayloadByte b x s) := by
  obtain ⟨hlt, -⟩ := h.pay hph
  have hsucc : (s.frPcnt + 1).toNat = s.frPcnt.toNat + 1 := toNat_succ_of_lt (BitVec.lt_def.2 hlt)
  have hbytes := bytes_after_take hpos ha h
  by_cases hlast : s.frPcnt + 1 = s.cfgMtu
  · have hph' : (takePayloadByte b x s).frPhase = .enq := if_pos hlast
    exact
      { active := fun _ => hr, stopped := by simp [hr], mtu := h.mtu, hdr := by rw [hph']; nofun
        pay := by rw [hph']; nofun, enq := by simp, bytes := fun _ => hbytes }
  · have hph' : (takePayloadByte b x s).frPhase = .pay := (if_neg hlast).trans hph
    have hbelow : (s.frPcnt + 1).toNat < s.cfgMtu.toNat := by
      have hne : (s.frPcnt + 1).toNat ≠ s.cfgMtu.toNat := fun he => hlast (BitVec.eq_of_toNat_eq he)
      omega
    have hstored : s.frPcnt + 1 ≠ 0#16 := fun h0 => by
      rw [h0] at hsucc
      cases hsucc
    exact
      { active := fun _ => hr, stopped := by simp [hr], mtu := h.mtu, hdr := by rw [hph']; nofun
        pay := fun _ => ⟨hbelow, fun hs => by simp at hs, fun h0 => absurd h0 hstored⟩, enq := by simp
        bytes := fun _ => hbytes }

/-- INIT starts only from STOPPED, where no SUBMIT is active, with an mtu of at least one (R100, R101). -/
theorem framerInv_startBlock {s : State} {k n : Nat} {mtu : BitVec 16} (hr : s.run = .stopped)
    (hv : configValid s.par.mtuMax k n mtu.toNat = true) (h : FramerInv s) :
    FramerInv (respondControl .ok (startBlock k n mtu s)) := by
  have hact : s.subActive = false := by
    rw [← Bool.not_eq_true]
    intro ha
    simpa [hr] using h.active ha
  have hmtu : 1 ≤ mtu.toNat := by
    simp only [configValid, Bool.and_eq_true, decide_eq_true_eq] at hv
    omega
  exact framerInv_of_idle hact rfl rfl rfl fun _ => hmtu

theorem effect_keeps_framerInv {i : Instr} {s t : State} (hwf : i.wf = true) (he : Effect i s t) (h : FramerInv s) :
    FramerInv t := by
  cases he with
  | started _ hr hv => exact framerInv_startBlock hr hv h
  | stopped => exact framerInv_of_idle rfl rfl rfl rfl (fun hr => absurd rfl hr)
  | reset => exact framerInv_of_idle rfl rfl rfl rfl (fun hr => absurd rfl hr)
  | submitted hi _ hr =>
    subst hi
    exact framerInv_submitted _ hr (by simpa [Instr.wf] using hwf) h
  | headerByte _ hr ha hpos hph => exact framerInv_takeHeaderByte _ hr ha hpos hph h
  | payloadByte _ hr ha hpos hph =>
    exact framerInv_takePayloadByte _ _ hr ha hpos hph (framerInv_congr (by simp [FramerKept]) h)
  | enqueued => exact framerInv_framerReset (framerInv_congr (by simp [FramerKept]) h)
  | fifoFailed =>
    exact framerInv_completeSubmit _ _ (framerInv_framerReset (framerInv_congr (by simp [FramerKept]) h))
  | poolFailed | submitDone => exact framerInv_completeSubmit _ _ h
  | stoppedAgain => exact framerInv_congr (by simp [FramerKept]) (framerInv_inactive h)
  | raised _ hr => exact framerInv_raiseFatal _ hr h
  | doubleFreed hr => exact framerInv_raiseFatal _ hr (framerInv_congr (by simp [FramerKept]) h)
  | purged => split <;> exact framerInv_congr (by simp [FramerKept, superseded]) h
  | held | answered | discarded | dataInserted | redInserted | emitted | emitDone | destination | decoded | finished =>
    exact framerInv_congr (by simp [FramerKept, acquired]) h

/-- Settles O52: effect by effect; that a SUBMIT brings its LEN bytes is the decoder's. -/
theorem framerRegistersKept : Obligations.FramerRegistersKept := by
  unfold Obligations.FramerRegistersKept
  intro s t
  exact step_keeps (P := FramerInv) (fun s ts n => framerInv_congr (by simp [FramerKept]))
    (fun i s t hwf he h => effect_keeps_framerInv hwf he h)

end Sys2Proof.Machine
end

section
/-! Who writes CBI (R27). -/

namespace Sys2Proof.Machine

/-- Settles O43: of the effects only INIT, RESET, FINISH and the purge of a superseded block change CBI. -/
theorem blockIndexWriters : Obligations.BlockIndexWriters := by
  unfold Obligations.BlockIndexWriters
  intro i s t h hne
  cases exec_effect h with
  | started hi => exact .inl ⟨⟨_, _, _, hi⟩, rfl⟩
  | reset hi => exact .inr (.inl ⟨hi, rfl⟩)
  | finished hi => exact .inr (.inr (.inl ⟨hi, rfl⟩))
  | purged hi hf _ _ hc =>
    refine .inr (.inr (.inr ⟨hi, _, _, hf, packetClass_supersede hc, ?_⟩))
    split <;> rfl
  | held | answered | stoppedAgain | stopped | submitted | headerByte | payloadByte | poolFailed | enqueued | fifoFailed
  | submitDone | discarded | dataInserted | redInserted | emitted | emitDone | destination | decoded | raised
  | doubleFreed => exact absurd (by simp [acquired]) hne

end Sys2Proof.Machine
end

section
/-! The bound of the FIFO (R31, R57) is kept by every step. -/

namespace Sys2Proof.Machine

/-- The bound survives where the FIFO and Q_EFF stay and the block does not become STOPPED. -/
theorem fifoInv_congr {s t : State} (hf : t.fifo = s.fifo) (hq : t.qEff = s.qEff)
    (hr : t.run = .stopped → s.run = .stopped) (h : FifoInv s) : FifoInv t := by
  obtain ⟨hlen, hstop⟩ := h
  rw [FifoInv, hf, hq]
  exact ⟨hlen, fun hst => hstop (hr hst)⟩

theorem fifoInv_of_empty {s : State} (hf : s.fifo = []) : FifoInv s :=
  ⟨by simp [hf], fun _ => hf⟩

/-- Dropping the head keeps the bound (R130). -/
theorem fifoInv_pop {s t : State} {d : Desc} {rest : List Desc} (hs : s.fifo = d :: rest) (hr : t.run = .running)
    (hf : t.fifo = rest) (hq : t.qEff = s.qEff) (h : FifoInv s) : FifoInv t := by
  obtain ⟨hlen, -⟩ := h
  rw [hs, List.length_cons] at hlen
  refine ⟨?_, by simp [hr]⟩
  rw [hf, hq]
  omega

theorem effect_keeps_fifoInv {i : Instr} {s t : State} (he : Effect i s t) (h : FifoInv s) : FifoInv t := by
  cases he with
  | started | stopped | reset => exact fifoInv_of_empty rfl
  | enqueued _ hr _ _ hlen => exact ⟨by simpa using hlen, by simp [hr]⟩
  | discarded hf hr | dataInserted hf hr | redInserted hf hr =>
    exact fifoInv_pop hf (by simp [hr]) (by simp) (by simp) h
  | purged _ hf hr => refine fifoInv_pop hf ?_ ?_ ?_ h <;> split <;> simp [superseded, hr]
  | held | answered | stoppedAgain | submitted | headerByte | payloadByte | poolFailed | fifoFailed | submitDone | emitted
  | emitDone | destination | decoded | finished | raised | doubleFreed =>
    exact fifoInv_congr (by simp [acquired]) (by simp [acquired]) (by simp [acquired]) h

/-- Settles O53: F_ENQ adds a descriptor only below Q_EFF; INIT and RESET, which empty the FIFO, alone write Q_EFF. -/
theorem fifoBoundKept : Obligations.FifoBoundKept := by
  unfold Obligations.FifoBoundKept
  intro s t
  exact step_keeps (P := FifoInv) (fun s ts n => fifoInv_congr rfl rfl id)
    (fun i s t _ he h => effect_keeps_fifoInv he h)

end Sys2Proof.Machine
end

section
/-! The state right after reset (R41, R210): its collections are empty, so every invariant holds of it. -/

namespace Sys2Proof.Machine

@[simp] theorem dataAt_reset (i : Nat) : dataAt State.reset i = DataEntry.empty := by
  simp only [dataAt, State.reset, Vector.getElem?_replicate]
  split <;> rfl

@[simp] theorem redAt_reset (q : Nat) : redAt State.reset q = RedEntry.empty := by
  simp only [redAt, State.reset, Vector.getElem?_replicate]
  split <;> rfl

/-- No byte of BUF is written at reset, so each reads as the free value of log 4. -/
theorem byteAt_reset (x : Slot) (o : Nat) :
    byteAt State.reset x o = Config.freeByte State.reset.bufEpoch (bufKey x o) := rfl

theorem poolInv_reset : PoolInv State.reset :=
  { config := fun hr => absurd rfl hr, rising := List.Pairwise.nil
    unused := ⟨fun i _ => congrArg DataEntry.present (dataAt_reset i), fun q _ => congrArg RedEntry.present (redAt_reset q)⟩
    owner := fun hr => absurd rfl hr }

theorem workerInv_reset : WorkerInv State.reset :=
  { config := fun hr => absurd rfl hr
    unused := poolInv_reset.unused
    dispatch := fun i hi => absurd hi (Nat.not_lt_zero _)
    bounds := ⟨le_rfl, le_rfl⟩
    sizes := fun i hp => by simp [DataEntry.empty] at hp
    halted := by decide
    stopped := fun _ => rfl
    phase := ⟨rfl, rfl, fun i _ => congrArg DataEntry.recon (dataAt_reset i), rfl, rfl, fun hr => absurd rfl hr⟩ }

theorem inv_reset : Inv State.reset :=
  { memory := reset_memory_wf
    pool := poolInv_reset
    fifo := fifoInv_of_empty rfl
    framer := framerInv_of_idle rfl rfl rfl rfl (fun hr => absurd rfl hr)
    worker := workerInv_reset }

/-- Nothing is held at reset, so nothing has to be written. -/
theorem writtenInv_reset : WrittenInv State.reset :=
  { framer := nofun
    full := nofun
    fifo := nofun
    data := fun i hp => by simp [DataEntry.empty] at hp
    red := fun q hp => by simp [RedEntry.empty] at hp }

/-- Settles O39: the values are those State.reset names, and the invariants hold of empty collections while STOPPED. -/
theorem resetStateIsGood : Obligations.ResetStateIsGood := by
  unfold Obligations.ResetStateIsGood
  exact ⟨rfl, rfl, rfl, rfl, rfl, rfl, rfl, fun i _ => by simp [DataEntry.empty], fun q _ => by simp [RedEntry.empty],
    rfl, rfl, rfl, rfl, rfl, rfl, rfl, byteAt_reset, rfl, rfl, rfl, rfl, rfl, inv_reset, writtenInv_reset⟩

end Sys2Proof.Machine
end

section
/-! The named stops (log 13, log 6): where an element does not exist or has no meaning. -/

namespace Sys2Proof.Machine

/-- R52's range, of a run of bytes that begins at offset 0. -/
theorem inRange_zero_iff (s : State) (x : Slot) (len : BitVec 16) :
    inRange s x 0 len.toNat = true ↔ len ≤ s.cfgMtu ∧ x.val < 2 * s.cfgN.val := by
  simp [inRange, BitVec.le_def]

/-- R52's range, of one byte. -/
theorem inRange_byte_iff (s : State) (x : Slot) (off : BitVec 16) :
    inRange s x off.toNat 1 = true ↔ off < s.cfgMtu ∧ x.val < 2 * s.cfgN.val := by
  simp [inRange, BitVec.lt_def]

section
variable {s : State}

/-! ## Framer steps -/

section Framer
variable (hon : framerOn s = true)
include hon

theorem execFHdrByte_headerFull (hpos : s.subPos < s.subLen) (hph : s.frPhase = .hdr) (hc : s.frHcnt = 6) :
    execFHdrByte s = .fault .headerFull := by
  simp only [execFHdrByte, if_pos (And.intro hon (And.intro hpos hph)), if_pos hc]

theorem execFHdrByte_byteMissing (hpos : s.subPos < s.subLen) (hph : s.frPhase = .hdr) (hc : s.frHcnt ≠ 6)
    (hb : submitByte s = none) : execFHdrByte s = .fault .submitByteMissing := by
  simp only [execFHdrByte, if_pos (And.intro hon (And.intro hpos hph)), if_neg hc, hb]

theorem execFPayByte_byteMissing (pick : Nat) (hpos : s.subPos < s.subLen) (hph : s.frPhase = .pay)
    (hb : submitByte s = none) : execFPayByte pick s = .fault .submitByteMissing := by
  simp only [execFPayByte, if_pos (And.intro hon (And.intro hpos hph)), hb]

theorem execFPayByte_heldOutOfRange (pick : Nat) {b : Byte} {x : Slot} (hpos : s.subPos < s.subLen)
    (hph : s.frPhase = .pay) (hb : submitByte s = some b) (hx : s.frSlot = some x)
    (hr : ¬ inRange s x s.frPcnt.toNat 1 = true) : execFPayByte pick s = .fault .bufRange := by
  simp only [execFPayByte, if_pos (And.intro hon (And.intro hpos hph)), hb, hx, if_neg hr]

theorem execFPayByte_acquiredOutOfRange {pick : Nat} {b : Byte} {x : Slot} {free : List Slot}
    (hpos : s.subPos < s.subLen) (hph : s.frPhase = .pay) (hb : submitByte s = some b) (hx : s.frSlot = none)
    (hacq : acquire pick s.free = some (x, free)) (hr : ¬ inRange s x s.frPcnt.toNat 1 = true) :
    execFPayByte pick s = .fault .bufRange := by
  simp only [execFPayByte, if_pos (And.intro hon (And.intro hpos hph)), hb, hx, hacq, if_neg hr]

theorem execFEnq_noSlot (hph : s.frPhase = .enq) (hlen : s.fifo.length < s.qEff.val) (hx : s.frSlot = none) :
    execFEnq s = .fault .noPayloadSlot := by
  simp only [execFEnq, if_pos (And.intro hon (And.intro hph hlen)), hx]

theorem execFFifoFail_noSlot (hblk : s.subBlk = false) (hph : s.frPhase = .enq) (hlen : s.fifo.length = s.qEff.val)
    (hx : s.frSlot = none) : execFFifoFail s = .fault .noPayloadSlot := by
  simp only [execFFifoFail, if_pos (And.intro hon (And.intro hblk (And.intro hph hlen))), hx]

end Framer

/-! ## Worker steps -/

/-- In a running EMIT phase below LIMIT there is an offer (R38). -/
theorem offer_of_emit (hr : s.run = .running) (hw : s.wph = .emit) (hn : s.next < s.limit) : ∃ o, offer s = some o :=
  ⟨_, (offer_eq s).trans (if_pos ⟨hr, hw, hn⟩)⟩

theorem execEmit_absent {o : Output} (ho : offer s = some o) (hp : (dataAt s s.next.val).present = false) :
    execEmit s = .fault .absentShare := by
  simp only [execEmit, ho, if_pos hp]

theorem execEmit_outOfRange {o : Output} (ho : offer s = some o) (hp : (dataAt s s.next.val).present = true)
    (hr : ¬ inRange s (dataAt s s.next.val).slot 0 (offerLen s (dataAt s s.next.val)).toNat = true) :
    execEmit s = .fault .bufRange := by
  simp [execEmit, ho, hp, hr]

theorem execAcq_noneMissing (pick : Nat) (hw : workerIn .acq s = true) (hfree : s.free ≠ [])
    (hm : firstMissing s = none) : execAcq pick s = .fault .noMissingShare := by
  cases hacq : acquire pick s.free with
  | none => exact absurd ((acquire_eq_none_iff pick s.free).1 hacq) hfree
  | some p => simp only [execAcq, if_pos hw, hacq, hm]

theorem execDecode_buildError (reply : CodecReply) {f : Fault} (hw : workerIn .decode s = true)
    (hb : buildShares s = .error f) : execDecode reply s = .fault f := by
  simp only [execDecode, if_pos hw, hb]

/-- DECODE's accesses are whole shares, so their range is the slot's (R52, R159). -/
theorem decode_inRange_iff (s : State) (xs : List Slot) :
    xs.all (fun x => inRange s x 0 s.cfgMtu.toNat) = true ↔ ∀ x ∈ xs, x.val < 2 * s.cfgN.val := by
  simp [inRange_zero_iff]

theorem execDecode_outOfRange (reply : CodecReply) {b : Shares} (hw : workerIn .decode s = true)
    (hb : buildShares s = .ok b) (hr : ∃ x ∈ b.src ++ b.dst, 2 * s.cfgN.val ≤ x.val) :
    execDecode reply s = .fault .bufRange := by
  have hall : (b.src ++ b.dst).all (fun x => inRange s x 0 s.cfgMtu.toNat) = false := by
    rw [← Bool.not_eq_true, decode_inRange_iff]
    simpa only [not_forall, not_lt, exists_prop] using hr
  simp only [execDecode, if_pos hw, hb, if_pos hall]

theorem execDecode_replyShape {b : Shares} {dst : List (List Byte)} (hw : workerIn .decode s = true)
    (hb : buildShares s = .ok b) (hr : ∀ x ∈ b.src ++ b.dst, x.val < 2 * s.cfgN.val)
    (hfit : ¬ replyFits b.dst.length s.cfgMtu.toNat dst = true) :
    execDecode (.ok dst) s = .refused .codecReplyShape := by
  have hall := (decode_inRange_iff s _).2 hr
  simp only [execDecode, if_pos hw, hb, hall, Bool.true_eq_false, if_false, if_neg hfit]

end

/-- Settles O46: each stop is the meaning's own branch, with the range and the shape said in numbers. -/
theorem namedStops : Obligations.NamedStops := by
  unfold Obligations.NamedStops
  intro s hrun
  have hon : s.subActive = true → framerOn s = true := fun ha => (framerOn_iff s).2 ⟨hrun, ha⟩
  have hin : ∀ p, s.wph = p → workerIn p s = true := fun p hw => (workerIn_iff p s).2 ⟨hrun, hw⟩
  refine ⟨fun ha hpos => ⟨?hdrFull, ?hdrMissing, ?payMissing, ?payHeld, ?payAcquired⟩, ?noSlot, fun hw hn => ?emit, ?acq,
    fun hw => ⟨?build, ?range, ?shape⟩⟩
  case hdrFull => exact fun hph hc => execFHdrByte_headerFull (hon ha) hpos hph hc
  case hdrMissing => exact fun hph hc hb => execFHdrByte_byteMissing (hon ha) hpos hph hc hb
  case payMissing => exact fun hph hb pick => execFPayByte_byteMissing (hon ha) pick hpos hph hb
  case payHeld =>
    intro b x hph hb hx hr pick
    exact execFPayByte_heldOutOfRange (hon ha) pick hpos hph hb hx (mt (inRange_byte_iff s x _).1 hr)
  case payAcquired =>
    intro b x free pick hph hb hx hacq hr
    exact execFPayByte_acquiredOutOfRange (hon ha) hpos hph hb hx hacq (mt (inRange_byte_iff s x _).1 hr)
  case noSlot =>
    exact fun ha hph hx => ⟨fun hlen => execFEnq_noSlot (hon ha) hph hlen hx,
      fun hblk hlen => execFFifoFail_noSlot (hon ha) hblk hph hlen hx⟩
  case emit =>
    obtain ⟨o, ho⟩ := offer_of_emit hrun hw hn
    exact ⟨execEmit_absent ho, fun hp hr => execEmit_outOfRange ho hp (mt (inRange_zero_iff s _ _).1 hr)⟩
  case acq =>
    exact fun hw hfree hall pick => execAcq_noneMissing pick (hin _ hw) hfree ((firstMissing_none s).2 hall)
  case build => exact fun f reply hb => execDecode_buildError reply (hin _ hw) hb
  case range => exact fun b reply hb hr => execDecode_outOfRange reply (hin _ hw) hb hr
  case shape =>
    exact fun b dst hb hr hfit => execDecode_replyShape (hin _ hw) hb hr (mt (replyFits_iff _ _ dst).1 hfit)

end Sys2Proof.Machine
end

section
/-! The buffer store keeps its canonical form (R50, R52, log 18): F_PAY_BYTE and DECODE alone write it, each inside a
slot. -/

namespace Sys2Proof.Machine

/-- F_PAY_BYTE's byte lies inside its slot, so the store stays canonical (R107, R52). -/
theorem takePayloadByte_wf {s : State} (b : Byte) (x : Slot) (h : Memory.wf s.buf) :
    Memory.wf (takePayloadByte b x s).buf :=
  memWrite_wf (bs := [b]) h s.frPcnt.isLt

theorem effect_keeps_memory_wf {i : Instr} {s t : State} (he : Effect i s t) (h : Memory.wf s.buf) :
    Memory.wf t.buf := by
  cases he with
  | payloadByte => exact takePayloadByte_wf _ _ h
  | decoded _ _ _ _ _ hfit =>
    obtain ⟨-, hlen⟩ := (replyFits_iff _ _ _).1 hfit
    exact memWriteShares_wf h fun d hd => by have := s.cfgMtu.isLt; have := hlen d hd; omega
  | reset => exact reset_memory_wf
  | purged => split <;> simpa [superseded] using h
  | held | answered | started | stoppedAgain | stopped | submitted | headerByte | poolFailed | enqueued | fifoFailed
  | submitDone | discarded | dataInserted | redInserted | emitted | emitDone | destination | finished | raised
  | doubleFreed => simpa [acquired] using h

/-- Settles O48: a payload byte and the codec's destinations, each no longer than CFG_MTU, are all that is written. -/
theorem memoryStaysCanonical : Obligations.MemoryStaysCanonical := by
  unfold Obligations.MemoryStaysCanonical
  intro s t
  exact step_keeps (P := fun s => Memory.wf s.buf) (fun s ts n h => h) (fun i s t _ he h => effect_keeps_memory_wf he h)

end Sys2Proof.Machine
end

section
/-! Who writes the descriptor's registers (R65). -/

namespace Sys2Proof.Machine

/-- Settles O42: INIT, which starts a block from STOPPED only, and RESET are the effects that write them. -/
theorem descriptorImmutableOnceActive : Obligations.DescriptorImmutableOnceActive := by
  unfold Obligations.DescriptorImmutableOnceActive
  intro i s t hrun hi h
  cases exec_effect h with
  | started _ hr => exact absurd hr hrun
  | reset hreset => exact absurd hreset hi
  | purged => split <;> simp [superseded]
  | held | answered | stoppedAgain | stopped | submitted | headerByte | payloadByte | poolFailed | enqueued | fifoFailed
  | submitDone | discarded | dataInserted | redInserted | emitted | emitDone | destination | decoded | finished | raised
  | doubleFreed => simp [acquired]

end Sys2Proof.Machine
end

section
/-! FATAL with cause POOL (R184, R185, R186): what each Release that meets a free slot leaves. -/

namespace Sys2Proof.Machine

/-- The answer FAIL_FATAL, as one word (R81, R82). -/
theorem resp32_failFatal (pos : BitVec 16) : resp32 .failFatal pos = pos ++ 0x0004#16 :=
  BitVec.append_assoc (x₁ := pos) (x₂ := 0#8) (x₃ := 4#8)

/-- The writes of a double free: FREE as the Releases before it left it, and R186's (log 9). -/
theorem raisePool_eq (free : List Slot) (s : State) :
    raisePool free s = { s with
      free := free, run := .fatal, fatalCause := some .pool, wph := .halted, subActive := false
      outs := s.outs ++ (if s.subActive = true then [.data (s.subPos ++ 0x0004#16)] else []) } := by
  rw [raisePool, raiseFatal_eq, resp32_failFatal]

/-! ## The discards -/

/-- The conditions of the five discards are rows of the map in its order; each row discards with its verdict (R74). -/
theorem class_of_discardRow {s : State} {h : Header} {i : Instr} {v : Verdict} (hd : DiscardRow s h i v) :
    ∃ c, packetClass s h = c ∧ i = classInstr c h ∧ exec i s = acceptAs c h s (discard v s) := by
  simp only [packetClass, classify]
  obtain ⟨rfl, rfl, hn⟩ | ⟨hn, hrow⟩ := hd
  · exact ⟨.malformedIndex, if_pos hn, rfl, rfl⟩
  rw [if_neg (Nat.not_le.2 hn)]
  obtain ⟨rfl, rfl, hsize⟩ | ⟨hsize, hrow⟩ := hrow
  · exact ⟨.malformedSize, if_pos hsize, rfl, rfl⟩
  rw [if_neg hsize]
  obtain ⟨rfl, rfl, hbi⟩ | ⟨hbi, hrow⟩ := hrow
  · exact ⟨.stale, if_pos hbi, rfl, rfl⟩
  rw [hbi, if_neg (BitVec.lt_irrefl _), if_neg (BitVec.lt_irrefl _)]
  obtain ⟨rfl, rfl, hk, hp⟩ | ⟨rfl, rfl, hk, hp⟩ := hrow
  · exact ⟨.dupData, by rw [if_pos hk, if_pos hp], rfl, rfl⟩
  · exact ⟨.dupRed, by rw [if_neg (Nat.not_lt.2 hk), if_pos hp], rfl, rfl⟩

/-- Settles O24: ACCEPT is the row of the head's class, and its Release raises before anything is written. -/
theorem doubleFreeIsFatal : Obligations.DoubleFreeIsFatal := by
  unfold Obligations.DoubleFreeIsFatal
  intro s d rest i v hrun hwph hf hm hd
  obtain ⟨c, hc, hi, hexec⟩ := class_of_discardRow hd
  have haccept : exec .accept s = exec i s := by
    rw [hi, ← hc]
    exact execAccept_eq hf
  refine ⟨haccept.symm, ?_⟩
  calc exec .accept s
      _ = acceptAs c d.hdr s (discard v s) := haccept.trans hexec
      _ = discard v s d rest := acceptAs_run hf hrun hwph rfl hc
      _ = .next (raisePool s.free s) := by rw [discard, (release_eq_none_iff _ _).2 hm]
      _ = _ := by rw [raisePool_eq]

/-! ## F_FIFO_FAIL, Purge and FINISH -/

/-- F_FIFO_FAIL whose slot is free already (R110, R55). -/
theorem execFFifoFail_doubleFree {s : State} {x : Slot} (hrun : s.run = .running) (ha : s.subActive = true)
    (hblk : s.subBlk = false) (hph : s.frPhase = .enq) (hlen : s.fifo.length = s.qEff.val) (hx : s.frSlot = some x)
    (hm : x ∈ s.free) : execFFifoFail s = .next (raisePool s.free s) := by
  have hon := (framerOn_iff s).2 ⟨hrun, ha⟩
  have hnone := (release_eq_none_iff _ _).2 hm
  simp only [execFFifoFail, hon, hblk, hph, hlen, hx, hnone, and_self, if_true]

/-- FINISH whose Releases meet a double free (R163, R185). -/
theorem execFinish_doubleFree {s : State} {free : List Slot} (hrun : s.run = .running) (hwph : s.wph = .finish)
    (hrel : releaseAll (heldSlots s) s.free = .error free) : execFinish s = .next (raisePool free s) := by
  simp only [execFinish, if_pos ((workerIn_iff .finish s).2 ⟨hrun, hwph⟩), hrel]

/-- PKT_SUPERSEDE whose Purge meets a double free (R135, R136, R185). -/
theorem execPktSupersede_doubleFree {s : State} {d : Desc} {rest : List Desc} {free : List Slot}
    (hrun : s.run = .running) (hwph : s.wph = .idle) (hf : s.fifo = d :: rest)
    (hc : packetClass s d.hdr = .supersede) (hrel : releaseAll (heldSlots s) s.free = .error free) :
    execPktSupersede d.hdr s = .next (raisePool free s) := by
  rw [execPktSupersede, acceptAs_run hf hrun hwph rfl hc]
  simp only [hrel]

/-- A well-formed header of a later block supersedes (R74, R136). -/
theorem packetClass_eq_supersede {s : State} {h : Header} (hn : h.pi.toNat < s.cfgN.val)
    (hsize : h.pi.toNat < s.cfgK.val → h.ps ≤ s.cfgMtu) (hbi : s.cbi < h.bi) : packetClass s h = .supersede := by
  have hfits : ¬ (h.pi.toNat < s.cfgK.val ∧ s.cfgMtu < h.ps) := fun hbad => BitVec.not_le.2 hbad.2 (hsize hbad.1)
  have hlater : ¬ h.bi < s.cbi := BitVec.not_lt.2 (BitVec.le_of_lt hbi)
  simp only [packetClass, classify, if_neg (Nat.not_le.2 hn), if_neg hfits, if_neg hlater, if_pos hbi]

/-- Settles O59: each of the three raises at the failing Release, with FREE as those before it left it (log 9). -/
theorem poolFatalElsewhere : Obligations.PoolFatalElsewhere := by
  unfold Obligations.PoolFatalElsewhere
  refine ⟨fun s x hrun ha hblk hph hlen hx hm => ?framer, fun s i pre post x hrun hheld hnodup hpre hx hi => ?releases⟩
  case framer =>
    exact (execFFifoFail_doubleFree hrun ha hblk hph hlen hx hm).trans (by rw [raisePool_eq, if_pos ha])
  case releases =>
    obtain ⟨free, hrel, hmem⟩ := releaseAll_double (post := post) hnodup hpre hx
    rw [← hheld] at hrel
    refine ⟨raisePool free s, ?_, by simpa using hmem, by simp [raisePool_eq]⟩
    obtain ⟨rfl, hwph⟩ | ⟨d, rest, hrow, hwph, hf, hn, hsize, hbi⟩ := hi
    · exact execFinish_doubleFree hrun hwph hrel
    · have hc := packetClass_eq_supersede hn hsize hbi
      have hpurge := execPktSupersede_doubleFree hrun hwph hf hc hrel
      obtain rfl | rfl := hrow
      · exact hpurge
      · have haccept := execAccept_eq hf
        rw [hc] at haccept
        exact haccept.trans hpurge

end Sys2Proof.Machine
end

section
/-! One holder for each slot of the pool (R56): every step hands slots over from one holder to another, so the list of
all holders is permuted and no Release meets a free slot. -/

namespace Sys2Proof.Machine
open scoped List

/-! ## The slots a collection holds -/

/-- The slots of the entries below `n` that `p` selects, in index order. -/
def slotsOf (n : Nat) (p : Nat → Bool) (slot : Nat → Slot) : List Slot := ((List.range n).filter p).map slot

theorem dataSlots_eq (s : State) :
    dataSlots s = slotsOf 31 (fun i => (dataAt s i).present) (fun i => (dataAt s i).slot) := rfl

theorem redSlots_eq (s : State) :
    redSlots s = slotsOf 32 (fun q => (redAt s q).present) (fun q => (redAt s q).slot) := rfl

theorem heldSlots_eq (s : State) :
    heldSlots s = slotsOf s.cfgK.val (fun i => (dataAt s i).present) (fun i => (dataAt s i).slot)
      ++ slotsOf s.cfgN.val (fun q => decide (s.cfgK.val ≤ q) && (redAt s q).present) (fun q => (redAt s q).slot) := rfl

section
variable {n : Nat} {p p' : Nat → Bool} {slot slot' : Nat → Slot}

theorem slotsOf_succ (n : Nat) (p : Nat → Bool) (slot : Nat → Slot) :
    slotsOf (n + 1) p slot = slotsOf n p slot ++ if p n then [slot n] else [] := by
  cases hp : p n <;> simp [slotsOf, List.range_succ, List.filter_append, hp]

theorem mem_slotsOf {x : Slot} : x ∈ slotsOf n p slot ↔ ∃ i, i < n ∧ p i = true ∧ slot i = x := by
  simp [slotsOf, and_assoc]

theorem slotsOf_congr (h : ∀ i, i < n → p i = p' i ∧ slot i = slot' i) : slotsOf n p slot = slotsOf n p' slot' := by
  induction n with
  | zero => rfl
  | succ n ih =>
    obtain ⟨hp, hs⟩ := h n (Nat.lt_succ_self n)
    rw [slotsOf_succ, slotsOf_succ, ih fun i hi => h i (by omega), hp, hs]

theorem slotsOf_eq_nil (h : ∀ i, i < n → p i = false) : slotsOf n p slot = [] := by
  simpa [slotsOf] using h

/-- Entries that are not selected add no slot. -/
theorem slotsOf_extend {m : Nat} (hnm : n ≤ m) (h : ∀ i, n ≤ i → i < m → p i = false) :
    slotsOf m p slot = slotsOf n p slot := by
  induction m, hnm using Nat.le_induction with
  | base => rfl
  | succ m hnm ih =>
    rw [slotsOf_succ, ih fun i hi hm => h i hi (by omega), h m hnm (Nat.lt_succ_self m)]
    simp

/-- One more selected entry adds its slot. -/
theorem slotsOf_insert {j : Nat} (hj : j < n) (hp : p j = false) (hp' : p' j = true)
    (h : ∀ i, i ≠ j → p' i = p i ∧ slot' i = slot i) : (slotsOf n p' slot').Perm (slot' j :: slotsOf n p slot) := by
  induction n with
  | zero => omega
  | succ n ih =>
    rw [slotsOf_succ, slotsOf_succ]
    by_cases hjn : n = j
    · subst hjn
      rw [slotsOf_congr fun i hi => h i (by omega), hp, hp']
      simp
    · obtain ⟨hpn, hsn⟩ := h n hjn
      rw [hpn, hsn]
      exact (ih (by omega)).append_right _

end

/-! ## What a change of holder does to the list of all holders -/

/-- The slots outside the accumulator: free, the framer's, and those of the FIFO. -/
def uncollected (s : State) : List Slot := s.free ++ s.frSlot.toList ++ s.fifo.map Desc.slot

/-- The accumulator's slots. -/
def collected (s : State) : List Slot := dataSlots s ++ redSlots s

theorem holders_eq (s : State) : holders s = uncollected s ++ collected s := List.append_assoc _ _ _

theorem acquire_perm {pick : Nat} {free f : List Slot} {x : Slot} (h : acquire pick free = some (x, f)) :
    free.Perm (x :: f) := by
  obtain ⟨hx, rfl⟩ := acquire_some h
  exact List.perm_cons_erase hx

theorem acquire_rising {pick : Nat} {free f : List Slot} {x : Slot} (h : acquire pick free = some (x, f))
    (hr : free.Pairwise (· < ·)) : f.Pairwise (· < ·) := by
  obtain ⟨-, rfl⟩ := acquire_some h
  exact hr.sublist List.erase_sublist

theorem insertSlot_perm {x : Slot} {free : List Slot} (h : x ∉ free) : (insertSlot x free).Perm (x :: free) := by
  induction free with
  | nil => rfl
  | cons y ys ih =>
    rw [List.mem_cons, not_or] at h
    rw [insertSlot, if_neg h.1]
    split
    · rfl
    · exact ((ih h.2).cons y).trans (List.Perm.swap x y ys)

theorem releaseAll_perm {xs free f : List Slot} (h : releaseAll xs free = .ok f) : f.Perm (xs ++ free) := by
  induction xs generalizing free with
  | nil => cases h; rfl
  | cons x xs ih =>
    by_cases hx : x ∈ free
    · simp [releaseAll, (release_eq_none_iff x free).2 hx] at h
    · rw [releaseAll, release_of_not_mem hx] at h
      calc f
          _ ~ xs ++ insertSlot x free := ih h
          _ ~ xs ++ x :: free := (insertSlot_perm hx).append_left _
          _ ~ x :: xs ++ free := List.perm_middle

/-! ## What the single-owner invariant gives -/

section
variable {s : State} (h : PoolInv s) (hr : s.run ≠ .stopped)
include h hr

theorem holders_nodup : (holders s).Nodup := by
  rw [List.nodup_iff_count_le_one]
  intro x
  rw [h.owner hr x]
  split <;> omega

theorem mem_holders_iff (x : Slot) : x ∈ holders s ↔ x.val < 2 * s.cfgN.val := by
  rw [← List.count_pos_iff, h.owner hr x]
  split <;> simp [*]

/-- A slot that the framer, the FIFO or the accumulator holds is not free. -/
theorem not_mem_free_of_held {x : Slot} (hx : x ∈ s.frSlot.toList ++ s.fifo.map Desc.slot ++ collected s) :
    x ∉ s.free := by
  have hnodup := holders_nodup h hr
  rw [holders_eq, uncollected, List.append_assoc, List.append_assoc, List.nodup_append'] at hnodup
  intro hfree
  exact hnodup.2.2 hfree (by simpa using hx)

theorem collected_nodup : (collected s).Nodup := by
  have hnodup := holders_nodup h hr
  rw [holders_eq, List.nodup_append'] at hnodup
  exact hnodup.2.1

omit hr in
/-- Purge and FINISH release exactly what the accumulator holds (R135, R163). -/
theorem heldSlots_eq_collected : heldSlots s = collected s := by
  obtain ⟨hdata, hred⟩ := h.unused
  have hk : dataSlots s = slotsOf s.cfgK.val (fun i => (dataAt s i).present) (fun i => (dataAt s i).slot) :=
    slotsOf_extend (by omega) fun i hi hlt => hdata ⟨i, hlt⟩ hi
  have hn : redSlots s = slotsOf s.cfgN.val (fun q => (redAt s q).present) (fun q => (redAt s q).slot) :=
    slotsOf_extend (by omega) fun q hq hlt => hred ⟨q, hlt⟩ (.inr hq)
  rw [heldSlots_eq, collected, hk, hn]
  congr 1
  refine slotsOf_congr fun q hq => ⟨?_, rfl⟩
  by_cases hkq : s.cfgK.val ≤ q
  · simp [hkq]
  · simp [hkq, hred ⟨q, by omega⟩ (.inl (Nat.lt_of_not_le hkq))]

/-- Where every slot has one holder no Release meets a free slot (R55, R56). -/
theorem not_doubleFree (free : List Slot) : ¬ DoubleFree s free := by
  rintro (⟨x, -, hx, hm, -⟩ | ⟨d, rest, hf, hm, -⟩ | hrel)
  · exact not_mem_free_of_held h hr (by simp [hx]) hm
  · exact not_mem_free_of_held h hr (by simp [hf]) hm
  · rw [heldSlots_eq_collected h] at hrel
    obtain ⟨f, hok⟩ := releaseAll_completes (collected_nodup h hr)
      fun x hx => not_mem_free_of_held h hr (List.mem_append_right _ hx)
    rw [hrel] at hok
    cases hok

end

/-- Settles O50: the holders and the pool's 2·CFG_N slots are the same slots, each once. -/
theorem poolCountsAddUp : Obligations.PoolCountsAddUp := by
  unfold Obligations.PoolCountsAddUp
  intro s h hr
  have hperm : (holders s).Perm (poolSlots s.cfgN.val) :=
    (List.perm_ext_iff_of_nodup (holders_nodup h hr) (poolSlots_rising _).nodup).2 fun x => by
      rw [mem_holders_iff h hr, mem_poolSlots]
  have hsize : ∀ n : Fin 33, (poolSlots n.val).length = 2 * n.val := by decide
  have hslot : s.frSlot.toList.length = if s.frSlot = none then 0 else 1 := by cases s.frSlot <;> rfl
  have hlen := hperm.length_eq.trans (hsize s.cfgN)
  simpa [holders, dataSlots, redSlots, hslot, Nat.add_assoc] using hlen

/-! ## What keeps the invariant: slots are taken in hand and put down -/

/-- Pool conservation in the middle of a step that has the slots `xs` in hand. -/
structure PoolInvWith (xs : List Slot) (s : State) : Prop where
  config : ConfigLatched s
  rising : FreeRising s
  unused : UnusedAbsent s
  owner : s.run ≠ .stopped → ∀ x : Slot, (xs ++ holders s).count x = if x.val < 2 * s.cfgN.val then 1 else 0

theorem poolInvWith_nil {s : State} : PoolInvWith [] s ↔ PoolInv s :=
  ⟨fun h => ⟨h.config, h.rising, h.unused, h.owner⟩, fun h => ⟨h.config, h.rising, h.unused, h.owner⟩⟩

/-- `t` has the configuration of `s`, and where it is not STOPPED neither was `s`. -/
def ConfigKept (s t : State) : Prop :=
  t.par = s.par ∧ t.cfgK = s.cfgK ∧ t.cfgN = s.cfgN ∧ t.cfgMtu = s.cfgMtu ∧ t.qEff = s.qEff
    ∧ (t.run ≠ .stopped → s.run ≠ .stopped)

theorem poolInvWith_of_perm {xs ys : List Slot} {s t : State} (h : PoolInvWith xs s) (hcfg : ConfigKept s t)
    (hrise : FreeRising t) (hun : UnusedAbsent t) (hperm : (ys ++ holders t) ~ (xs ++ holders s)) :
    PoolInvWith ys t := by
  obtain ⟨hpar, hk, hn, hmtu, hq, hrun⟩ := hcfg
  exact
    { config := fun hr => by simpa only [hpar, hk, hn, hmtu, hq] using h.config (hrun hr)
      rising := hrise
      unused := hun
      owner := fun hr x => by rw [hperm.count_eq, hn, h.owner (hrun hr) x] }

/-- Which entries have to be absent depends on CFG_K, CFG_N and the present flags alone. -/
theorem unusedAbsent_congr {s t : State} (hk : t.cfgK = s.cfgK) (hn : t.cfgN = s.cfgN)
    (hd : ∀ i, (dataAt t i).present = (dataAt s i).present) (hr : ∀ q, (redAt t q).present = (redAt s q).present)
    (h : UnusedAbsent s) : UnusedAbsent t := by
  simpa only [UnusedAbsent, hk, hn, hd, hr] using h

/-! ### Outside the accumulator -/

theorem poolInvWith_of_uncollected {xs ys : List Slot} {s t : State} (h : PoolInvWith xs s) (hcfg : ConfigKept s t)
    (hd : t.data = s.data) (hr : t.red = s.red) (hrise : FreeRising t)
    (hu : (ys ++ uncollected t) ~ (xs ++ uncollected s)) : PoolInvWith ys t := by
  have hdata : ∀ i, dataAt t i = dataAt s i := fun i => by simp only [dataAt, hd]
  have hred : ∀ q, redAt t q = redAt s q := fun q => by simp only [redAt, hr]
  have hcol : collected t = collected s := by simp only [collected, dataSlots, redSlots, hdata, hred]
  have ⟨_, hk, hn, _⟩ := hcfg
  have hun := unusedAbsent_congr hk hn (fun i => by rw [hdata]) (fun q => by rw [hred]) h.unused
  refine poolInvWith_of_perm h hcfg hrise hun ?_
  rw [holders_eq, holders_eq, hcol, ← List.append_assoc, ← List.append_assoc]
  exact hu.append_right _

/-- `t` has every register PoolInv speaks of as `s` has it. -/
def PoolKept (s t : State) : Prop :=
  ConfigKept s t ∧ t.free = s.free ∧ t.frSlot = s.frSlot ∧ t.fifo = s.fifo ∧ t.data = s.data ∧ t.red = s.red

theorem poolInv_congr {s t : State} (h : PoolInv s) (hk : PoolKept s t) : PoolInv t := by
  obtain ⟨hcfg, hfree, hslot, hfifo, hd, hr⟩ := hk
  have hu : uncollected t = uncollected s := by simp only [uncollected, hfree, hslot, hfifo]
  exact poolInvWith_nil.1 <| poolInvWith_of_uncollected (poolInvWith_nil.2 h) hcfg hd hr
    (by simpa only [FreeRising, hfree] using h.rising) (by rw [hu])

section
variable {s : State} {x : Slot}

/-- The head of the FIFO is taken (R130). -/
theorem poolInvWith_popped {d : Desc} {rest : List Desc} (h : PoolInv s) (hf : s.fifo = d :: rest) :
    PoolInvWith [d.slot] { s with fifo := rest } :=
  poolInvWith_of_uncollected (poolInvWith_nil.2 h) (by simp [ConfigKept]) rfl rfl h.rising
    (by simpa [uncollected, hf, ← List.append_assoc] using List.perm_middle.symm)

/-- A slot is taken from FREE (R54). -/
theorem poolInvWith_acquired {pick : Nat} {f : List Slot} (h : PoolInv s) (hacq : acquire pick s.free = some (x, f)) :
    PoolInvWith [x] { s with free := f } :=
  poolInvWith_of_uncollected (poolInvWith_nil.2 h) (by simp [ConfigKept]) rfl rfl (acquire_rising hacq h.rising)
    (((acquire_perm hacq).symm.append_right _).append_right _)

/-- FramerReset takes the framer's slot out of its hands (R112). -/
theorem poolInvWith_framerReset (h : PoolInv s) (hx : s.frSlot = some x) : PoolInvWith [x] (framerReset s) :=
  poolInvWith_of_uncollected (poolInvWith_nil.2 h) (by simp [ConfigKept]) rfl rfl h.rising
    (by simpa [uncollected, hx] using List.perm_middle.symm)

/-- The slot in hand is released (R55). -/
theorem poolInv_released (h : PoolInvWith [x] s) (hm : x ∉ s.free) : PoolInv { s with free := insertSlot x s.free } :=
  poolInvWith_nil.1 <| poolInvWith_of_uncollected h (by simp [ConfigKept]) rfl rfl (insertSlot_rising h.rising)
    (((insertSlot_perm hm).append_right _).append_right _)

/-- The slot in hand becomes the framer's (R107). -/
theorem poolInv_framed (h : PoolInvWith [x] s) (hn : s.frSlot = none) : PoolInv { s with frSlot := some x } :=
  poolInvWith_nil.1 <| poolInvWith_of_uncollected h (by simp [ConfigKept]) rfl rfl h.rising
    (by simp [uncollected, hn])

/-- The slot in hand goes into the FIFO (R109). -/
theorem poolInv_enqueued (h : PoolInvWith [x] s) (hdr : Header) : PoolInv { s with fifo := s.fifo ++ [⟨x, hdr⟩] } :=
  poolInvWith_nil.1 <| poolInvWith_of_uncollected h (by simp [ConfigKept]) rfl rfl h.rising
    (by simp [uncollected, ← List.append_assoc])

/-! ### Into and out of the accumulator -/

theorem poolInv_of_collected {t : State} (h : PoolInvWith [x] s) (hcfg : ConfigKept s t)
    (hu : uncollected t = uncollected s) (hfree : t.free = s.free) (hun : UnusedAbsent t)
    (hcol : collected t ~ x :: collected s) : PoolInv t := by
  refine poolInvWith_nil.1 <| poolInvWith_of_perm h hcfg (by simpa only [FreeRising, hfree] using h.rising) hun ?_
  rw [holders_eq, holders_eq, hu]
  exact (hcol.append_left _).trans List.perm_middle

/-- The slot in hand becomes an absent data entry's (R138, R157). -/
theorem poolInv_setData {j : Nat} {e : DataEntry} (h : PoolInvWith [e.slot] s) (hj : j < s.cfgK.val)
    (ha : (dataAt s j).present = false) (hp : e.present = true) : PoolInv (setData s j e) := by
  have hj31 : j < 31 := by omega
  have hat : ∀ i, dataAt (setData s j e) i = if i = j then e else dataAt s i := fun i => dataAt_setData s j i e hj31
  have hdata : dataSlots (setData s j e) ~ e.slot :: dataSlots s := by
    have hslot : (dataAt (setData s j e) j).slot = e.slot := by rw [hat, if_pos rfl]
    rw [dataSlots_eq, dataSlots_eq, ← hslot]
    exact slotsOf_insert hj31 ha (by rw [hat, if_pos rfl, hp]) fun i hij => by rw [hat, if_neg hij]; exact ⟨rfl, rfl⟩
  obtain ⟨hund, hunr⟩ := h.unused
  have hun : UnusedAbsent (setData s j e) := by
    refine ⟨fun i hi => ?_, hunr⟩
    rw [hat, if_neg fun hij => by simp at hi; omega]
    exact hund i hi
  exact poolInv_of_collected h (by simp [ConfigKept]) rfl rfl hun (hdata.append_right _)

/-- The slot in hand becomes an absent redundancy entry's (R139). -/
theorem poolInv_setRed {j : Nat} {e : RedEntry} (h : PoolInvWith [e.slot] s) (hk : s.cfgK.val ≤ j)
    (hn : j < s.cfgN.val) (ha : (redAt s j).present = false) (hp : e.present = true) : PoolInv (setRed s j e) := by
  have hj32 : j < 32 := by omega
  have hat : ∀ q, redAt (setRed s j e) q = if q = j then e else redAt s q := fun q => redAt_setRed s j q e hj32
  have hred : redSlots (setRed s j e) ~ e.slot :: redSlots s := by
    have hslot : (redAt (setRed s j e) j).slot = e.slot := by rw [hat, if_pos rfl]
    rw [redSlots_eq, redSlots_eq, ← hslot]
    exact slotsOf_insert hj32 ha (by rw [hat, if_pos rfl, hp]) fun q hqj => by rw [hat, if_neg hqj]; exact ⟨rfl, rfl⟩
  obtain ⟨hund, hunr⟩ := h.unused
  have hun : UnusedAbsent (setRed s j e) := by
    refine ⟨hund, fun q hq => ?_⟩
    rw [hat, if_neg fun hqj => by simp at hq; omega]
    exact hunr q hq
  exact poolInv_of_collected h (by simp [ConfigKept]) rfl rfl hun ((hred.append_left _).trans List.perm_middle)

end

/-- An accumulator with no entry present holds no slot. -/
theorem collected_eq_nil {s : State} (hd : ∀ i, i < 31 → (dataAt s i).present = false)
    (hr : ∀ q, q < 32 → (redAt s q).present = false) : collected s = [] := by
  rw [collected, dataSlots_eq, redSlots_eq, slotsOf_eq_nil hd, slotsOf_eq_nil hr]
  rfl

/-- After Purge's or FINISH's clearing no entry is present, since the others are unused (R28, R29). -/
theorem absent_clearBlock {s : State} (h : UnusedAbsent s) :
    (∀ i, i < 31 → (dataAt (clearBlock s) i).present = false)
      ∧ ∀ q, q < 32 → (redAt (clearBlock s) q).present = false := by
  obtain ⟨hd, hr⟩ := h
  refine ⟨fun i hi => ?_, fun q hq => ?_⟩
  · rw [dataAt_clearBlock]
    split
    case isTrue => rfl
    case isFalse hk => exact hd ⟨i, hi⟩ (Nat.le_of_not_lt hk)
  · rw [redAt_clearBlock]
    split
    case isTrue => rfl
    case isFalse hkn => exact hr ⟨q, hq⟩ (by simp; omega)

/-- The slots of the block go back to FREE and its entries are cleared (R135, R163). -/
theorem poolInv_purged {s : State} {free : List Slot} (h : PoolInv s)
    (hrel : releaseAll (heldSlots s) s.free = .ok free) : PoolInv { clearBlock s with free := free } := by
  obtain ⟨hd, hr⟩ := absent_clearBlock h.unused
  rw [heldSlots_eq_collected h] at hrel
  have hcol : collected { clearBlock s with free := free } = [] := collected_eq_nil hd hr
  refine poolInvWith_nil.1 <| poolInvWith_of_perm (poolInvWith_nil.2 h) (by simp [ConfigKept])
    (releaseAll_rising hrel h.rising) ⟨fun i _ => hd i i.isLt, fun q _ => hr q q.isLt⟩ ?_
  rw [holders_eq, holders_eq, hcol, List.append_nil]
  calc uncollected { clearBlock s with free := free }
      _ ~ (collected s ++ s.free) ++ s.frSlot.toList ++ s.fifo.map Desc.slot :=
        ((releaseAll_perm hrel).append_right _).append_right _
      _ ~ collected s ++ uncollected s := by simp only [uncollected, List.append_assoc]; rfl
      _ ~ uncollected s ++ collected s := List.perm_append_comm

/-! ## Each effect keeps the invariant -/

/-- Of a STOPPED block only FREE's order and the unused entries are asked. -/
theorem poolInv_of_stopped {s : State} (hr : s.run = .stopped) (hrise : FreeRising s) (hun : UnusedAbsent s) :
    PoolInv s :=
  { config := fun hne => absurd hr hne, rising := hrise, unused := hun, owner := fun hne => absurd hr hne }

theorem qEffOf_lt (depth k : Nat) {n : Nat} (hn : n ≤ 32) : qEffOf depth k n < 64 := by
  simp only [qEffOf, qBound]
  omega

/-- INIT puts every slot of the new pool into FREE and clears the accumulator (R100). -/
theorem poolInv_startBlock {s : State} {k n : Nat} {mtu : BitVec 16}
    (hv : configValid s.par.mtuMax k n mtu.toNat = true) : PoolInv (startBlock k n mtu s) := by
  have hkn : k < n ∧ n ≤ 32 := by
    simp only [configValid, Bool.and_eq_true, decide_eq_true_eq] at hv
    obtain ⟨⟨⟨⟨-, hkn⟩, hn⟩, -⟩, -⟩ := hv
    exact ⟨hkn, hn⟩
  obtain ⟨hkn, hn⟩ := hkn
  have hk' : (startBlock k n mtu s).cfgK.val = k := Nat.mod_eq_of_lt (by omega)
  have hn' : (startBlock k n mtu s).cfgN.val = n := Nat.mod_eq_of_lt (by omega)
  have hq' : (startBlock k n mtu s).qEff.val = qEffOf s.par.fifoDepth k n := Nat.mod_eq_of_lt (qEffOf_lt _ _ hn)
  have hd : ∀ i, (dataAt (startBlock k n mtu s) i).present = false := fun i =>
    congrArg DataEntry.present (dataAt_clearCollections s i)
  have hr : ∀ q, (redAt (startBlock k n mtu s) q).present = false := fun q =>
    congrArg RedEntry.present (redAt_clearCollections s q)
  have hholders : holders (startBlock k n mtu s) = poolSlots n := by
    rw [holders_eq, collected_eq_nil (fun i _ => hd i) (fun q _ => hr q)]
    simp [uncollected]
  exact
    { config := fun _ => by rw [hk', hn', hq']; exact ⟨hv, rfl⟩
      rising := poolSlots_rising n
      unused := ⟨fun i _ => hd i, fun q _ => hr q⟩
      owner := fun _ x => by
        rw [hholders, hn', (poolSlots_rising n).nodup.count]
        simp only [mem_poolSlots] }

/-- STOP leaves a full FREE and an empty accumulator (R102). -/
theorem poolInv_teardown (s : State) : PoolInv (teardown s) :=
  poolInv_of_stopped rfl (poolSlots_rising _)
    ⟨fun i _ => congrArg DataEntry.present (dataAt_clearCollections s i),
      fun q _ => congrArg RedEntry.present (redAt_clearCollections s q)⟩

/-- NEXT below LIMIT is an index of DATA. -/
theorem next_lt_of_lt_limit {s : State} (hn : s.next < s.limit) : s.next.val < 31 := by
  have := s.limit.isLt
  omega

/-- EMIT changes no entry's slot (R150). -/
theorem poolInv_markDispatched {s : State} (h : PoolInv s) (hn : s.next < s.limit) : PoolInv (markDispatched s) := by
  have hat : ∀ i, dataAt (markDispatched s) i
      = if i = s.next.val then { dataAt s s.next.val with disp := true } else dataAt s i :=
    fun i => dataAt_setData s _ i _ (next_lt_of_lt_limit hn)
  have hentry : ∀ i, (dataAt (markDispatched s) i).present = (dataAt s i).present
      ∧ (dataAt (markDispatched s) i).slot = (dataAt s i).slot := by
    intro i
    rw [hat]
    split
    case isTrue hi => rw [hi]; exact ⟨rfl, rfl⟩
    case isFalse => exact ⟨rfl, rfl⟩
  have hslots : dataSlots (markDispatched s) = dataSlots s := slotsOf_congr fun i _ => hentry i
  have hholders : holders (markDispatched s) = holders s := by simp only [holders, hslots]; rfl
  exact poolInvWith_nil.1 <| poolInvWith_of_perm (poolInvWith_nil.2 h) (by simp [ConfigKept]) h.rising
    (unusedAbsent_congr (s := s) rfl rfl (fun i => (hentry i).1) (fun _ => rfl) h.unused) (by rw [hholders])

/-- The framer's next byte, the first one with the slot it acquires (R107). -/
theorem poolInv_takePayloadByte {s : State} {pick : Nat} {x : Slot} {free : List Slot} (b : Byte) (h : PoolInv s)
    (hx : (s.frSlot = some x ∧ free = s.free) ∨ (s.frSlot = none ∧ acquire pick s.free = some (x, free))) :
    PoolInv (takePayloadByte b x { s with free := free }) := by
  obtain ⟨hx, rfl⟩ | ⟨hx, hacq⟩ := hx
  · exact poolInv_congr h (by simp [PoolKept, ConfigKept, hx])
  · exact poolInv_congr (poolInv_framed (poolInvWith_acquired h hacq) hx) (by simp [PoolKept, ConfigKept])

/-- A header that is not malformed has an index below CFG_N (R74, R132). -/
theorem lt_cfgN_of_packetClass {s : State} {h : Header} (hc : packetClass s h ≠ .malformedIndex) :
    h.pi.toNat < s.cfgN.val := by
  by_contra hn
  exact hc (if_pos (Nat.le_of_not_lt hn))

/-- A packet of the class RED has a redundancy index whose entry is absent (R74, R139). -/
theorem packetClass_red {s : State} {h : Header} (hc : packetClass s h = .red) :
    s.cfgK.val ≤ h.pi.toNat ∧ h.pi.toNat < s.cfgN.val ∧ (redAt s h.pi.toNat).present = false := by
  have hn : h.pi.toNat < s.cfgN.val := lt_cfgN_of_packetClass (by simp [hc])
  simp only [packetClass, classify] at hc
  split_ifs at hc with _ _ _ _ hk _ hp
  exact ⟨Nat.le_of_not_lt hk, hn, Bool.eq_false_iff.mpr hp⟩

section
variable {s : State} {d : Desc} {rest : List Desc}

/-- The head of the FIFO becomes a data share (R138). -/
theorem poolInv_insertData (h : PoolInv s) (hf : s.fifo = d :: rest) (hk : d.hdr.pi.toNat < s.cfgK.val)
    (ha : (dataAt s d.hdr.pi.toNat).present = false) :
    PoolInv (afterInsert (insertData d { s with fifo := rest })) :=
  poolInv_congr (poolInv_setData (e := ⟨true, d.slot, d.hdr.ps, false, false⟩) (poolInvWith_popped h hf) hk ha rfl)
    (by simp [PoolKept, ConfigKept])

/-- The head of the FIFO becomes a redundancy share (R139). -/
theorem poolInv_insertRed (h : PoolInv s) (hf : s.fifo = d :: rest) (hk : s.cfgK.val ≤ d.hdr.pi.toNat)
    (hn : d.hdr.pi.toNat < s.cfgN.val) (ha : (redAt s d.hdr.pi.toNat).present = false) :
    PoolInv (afterInsert (insertRed d { s with fifo := rest })) :=
  poolInv_congr (poolInv_setRed (e := ⟨true, d.slot⟩) (poolInvWith_popped h hf) hk hn ha rfl)
    (by simp [PoolKept, ConfigKept])

/-- The block is purged, and the head of the FIFO becomes the first share of the next (R136). -/
theorem poolInv_insert_superseded {free : List Slot} (h : PoolInv s) (hf : s.fifo = d :: rest)
    (hn : d.hdr.pi.toNat < s.cfgN.val) (hrel : releaseAll (heldSlots s) s.free = .ok free) :
    PoolInv (afterInsert (if d.hdr.pi.toNat < s.cfgK.val then insertData d (superseded d.hdr.bi rest free s)
      else insertRed d (superseded d.hdr.bi rest free s))) := by
  have hpurged : PoolInv { clearBlock s with free := free, cbi := d.hdr.bi } :=
    poolInv_congr (poolInv_purged h hrel) (by simp [PoolKept, ConfigKept])
  obtain ⟨hd, hr⟩ := absent_clearBlock h.unused
  split
  case isTrue hk => exact poolInv_insertData hpurged hf hk (hd _ (by omega))
  case isFalse hk => exact poolInv_insertRed hpurged hf (Nat.le_of_not_lt hk) hn (hr _ (by omega))

end

theorem effect_keeps_poolInv {i : Instr} {s t : State} (he : Effect i s t) (h : PoolInv s) : PoolInv t := by
  cases he with
  | held => exact h
  | started _ _ hv => exact poolInv_congr (poolInv_startBlock hv) (by simp [PoolKept, ConfigKept])
  | stopped => exact poolInv_congr (poolInv_teardown s) (by simp [PoolKept, ConfigKept])
  | reset => exact poolInv_of_stopped rfl poolInv_reset.rising poolInv_reset.unused
  | payloadByte _ _ _ _ _ _ _ hx => exact poolInv_takePayloadByte _ h hx
  | enqueued _ _ _ _ _ hx => exact poolInv_enqueued (poolInvWith_framerReset h hx) (frHeader s)
  | fifoFailed _ _ _ _ _ _ hx hm =>
    exact poolInv_congr (poolInv_released (poolInvWith_framerReset h hx) hm) (by simp [PoolKept, ConfigKept])
  | discarded hf _ _ hm =>
    exact poolInv_congr (poolInv_released (poolInvWith_popped h hf) hm) (by simp [PoolKept, ConfigKept])
  | dataInserted hf _ _ hc =>
    obtain ⟨hk, ha⟩ := packetClass_data hc
    exact poolInv_insertData h hf hk ha
  | redInserted hf _ _ hc =>
    obtain ⟨hk, hn, ha⟩ := packetClass_red hc
    exact poolInv_insertRed h hf hk hn ha
  | purged _ hf _ _ hc hrel =>
    exact poolInv_insert_superseded h hf (lt_cfgN_of_packetClass (by simp [hc])) hrel
  | emitted _ ho =>
    exact poolInv_congr (poolInv_markDispatched h (next_lt_limit_of_offer ho)) (by simp [PoolKept, ConfigKept])
  | destination _ _ _ hacq hj =>
    obtain ⟨hk, ha, -⟩ := (firstMissing_spec s _).1 hj
    exact poolInv_congr
      (poolInv_setData (e := ⟨true, _, s.cfgMtu, true, false⟩) (poolInvWith_acquired h hacq) hk ha rfl)
      (by simp [PoolKept, ConfigKept, acquired])
  | finished _ _ _ hrel => exact poolInv_congr (poolInv_purged h hrel) (by simp [PoolKept, ConfigKept])
  | doubleFreed hr hd => exact absurd hd (not_doubleFree h (by simp [hr]) _)
  | raised _ hr => exact poolInv_congr h (by simp [PoolKept, ConfigKept, hr])
  | answered | stoppedAgain | submitted | headerByte | poolFailed | submitDone | emitDone | decoded =>
    exact poolInv_congr h (by simp [PoolKept, ConfigKept])

/-- The invariant does not depend on the turns to come. -/
theorem poolInv_turn (s : State) (ts : List Turn) (n : Nat) (h : PoolInv s) :
    PoolInv { s with sched := ts, tick := n } :=
  poolInv_congr h (by simp [PoolKept, ConfigKept])

/-- Settles O49: effect by effect; a slot that one holder gives up goes to exactly one other. -/
theorem poolConservationKept : Obligations.PoolConservationKept := by
  unfold Obligations.PoolConservationKept
  intro s t
  exact step_keeps (P := PoolInv) poolInv_turn (fun i s t _ he h => effect_keeps_poolInv he h)

/-! ## FATAL with cause POOL is never raised -/

theorem effect_fatalCause_pool {i : Instr} {s t : State} (he : Effect i s t) (hi : i ≠ .fatal .pool) (h : PoolInv s)
    (hp : t.fatalCause = some .pool) : s.fatalCause = some .pool := by
  cases he with
  | started | stopped | reset => cases hp
  | doubleFreed hr hd => exact absurd hd (not_doubleFree h (by simp [hr]) _)
  | raised hraise =>
    rw [raiseFatal_fatalCause, Option.some.injEq] at hp
    subst hp
    obtain rfl | ⟨-, -, hc⟩ := hraise
    · exact absurd rfl hi
    · cases hc
  | purged => split at hp <;> simpa [superseded] using hp
  | held | answered | stoppedAgain | submitted | headerByte | payloadByte | poolFailed | enqueued | fifoFailed
  | submitDone | discarded | dataInserted | redInserted | emitted | emitDone | destination | decoded | finished =>
    simpa [acquired] using hp

theorem reservedInstr_ne_fatal (op : BitVec 4) (p : Port) (hi : BitVec 28) (c : Cause) :
    reservedInstr op p hi ≠ .fatal c := by
  unfold reservedInstr
  split <;> simp

/-- No turn runs the FATAL row (log 15). -/
theorem fetchTurn_ne_fatal {tn : Turn} {s : State} {i : Instr} (h : fetchTurn tn s = .run i) (c : Cause) :
    i ≠ .fatal c := by
  rintro rfl
  cases tn with
  | ctrl w =>
    simp only [fetchTurn, decodeControl, Fetched.run.injEq] at h
    split_ifs at h
    exact reservedInstr_ne_fatal _ _ _ c h
  | data w stream =>
    simp only [fetchTurn, decodeData] at h
    split_ifs at h <;> simp at h
    exact reservedInstr_ne_fatal _ _ _ c h
  | framer pick =>
    simp only [fetchTurn, framerStep, Fetched.run.injEq] at h
    split at h <;> split_ifs at h
  | worker env =>
    cases hw : s.wph <;> simp only [fetchTurn, workerStep, hw] at h
    case emit =>
      split at h
      case h_1 hs => split_ifs at hs <;> cases hs <;> cases h
      case h_2 => cases h
    all_goals cases h
  | reset => cases h

/-- Settles O60: a double free is excluded, and what else raises FATAL names another cause. -/
theorem poolFatalNeverRaised : Obligations.PoolFatalNeverRaised := by
  unfold Obligations.PoolFatalNeverRaised
  refine ⟨fun s t h hstep hp => ?step, fun i s t h hi hexec hp => effect_fatalCause_pool (exec_effect hexec) hi h hp⟩
  case step =>
    have hcause : (nextTurn s).2.fatalCause = s.fatalCause := by rw [nextTurn_state]
    have hturn : PoolInv (nextTurn s).2 := nextTurn_state s ▸ poolInv_turn s _ _ h
    rw [← hcause]
    obtain ⟨i, hf, he⟩ | ⟨-, he⟩ | ⟨-, he⟩ := step_cases s <;> rw [he] at hstep
    · exact effect_fatalCause_pool (exec_effect hstep) (fetchTurn_ne_fatal hf _) hturn hp
    · exact eq_of_next hstep ▸ hp
    · cases hstep

end Sys2Proof.Machine
end

section
/-! What the accumulator holds in the worker's phases (R39, R141, R156), and what BuildShares makes of it (R158). -/

namespace Sys2Proof.Machine

/-! ## Presence -/

theorem dataCount_eq_cfgK_iff (s : State) :
    dataCount s = s.cfgK.val ↔ ∀ i, i < s.cfgK.val → (dataAt s i).present = true := by
  simpa [dataCount] using List.countP_eq_length (p := fun i => (dataAt s i).present) (l := List.range s.cfgK.val)

/-- Below the first gap every data share is there (R141). -/
theorem present_of_lt_firstGap {s : State} {i : Nat} (hi : i < firstGap s) : (dataAt s i).present = true := by
  unfold firstGap at hi
  cases hm : firstMissing s with
  | none => exact (firstMissing_none s).1 hm i (by simpa [hm] using hi)
  | some j => exact ((firstMissing_spec s j).1 hm).2.2 i (by simpa [hm] using hi)

/-- While EMIT dispatches, either no share is rebuilt and LIMIT is the first gap, or DECODE is done and the block is
complete (R141, R159). -/
theorem phaseInv_emit {s : State} (hw : s.wph = .emit) (h : PhaseInv s) :
    (NoneRebuilt s ∧ s.limit.val = firstGap s)
      ∨ (s.decoded = true ∧ s.limit = s.cfgK ∧ dataCount s = s.cfgK.val) := by
  simp only [PhaseInv, hw] at h
  split at h
  case h_1 | h_2 | h_3 => exact .inl ⟨h.1, h.2.1⟩
  case h_4 _ hd => exact .inr ⟨hd, h.1, h.2.1⟩
  case h_5 => exact h.elim

/-- While ACQ still has work, an index is missing and DECODE is to come (R156). -/
theorem phaseInv_acq {s : State} (hw : s.wph = .acq) (h : PhaseInv s) :
    s.decoded = false ∧ dataCount s < s.cfgK.val := by
  simp only [PhaseInv, hw] at h
  exact ⟨h.2.1, h.2.2.1⟩

/-- In the DECODE phase every data index has an entry, and the shares that came are k (R156). -/
theorem phaseInv_decode {s : State} (hw : s.wph = .decode) (h : PhaseInv s) :
    dataCount s = s.cfgK.val ∧ receivedCount s + redCount s = s.cfgK.val := by
  simp only [PhaseInv, hw] at h
  exact h.2.2

/-- An offer is made in the EMIT phase, of the entry at NEXT (R38). -/
theorem offer_eq_some {s : State} {o : Output} (ho : offer s = some o) :
    s.run = .running ∧ s.wph = .emit ∧ s.next < s.limit
      ∧ o = .ready (offerLen s (dataAt s s.next.val))
          (memRead s (dataAt s s.next.val).slot 0 (offerLen s (dataAt s s.next.val)).toNat) := by
  rw [offer_eq] at ho
  split at ho
  case isTrue hg => exact ⟨hg.1, hg.2.1, hg.2.2, (Option.some.inj ho).symm⟩
  case isFalse => cases ho

/-- The entry that EMIT offers is present, and its bytes were received or DECODE has filled them (R150). -/
theorem offered_entry {s : State} (h : WorkerInv s) (hw : s.wph = .emit) (hn : s.next < s.limit) :
    (dataAt s s.next.val).present = true ∧ ((dataAt s s.next.val).recon = false ∨ s.decoded = true) := by
  obtain ⟨hnone, hlimit⟩ | ⟨hdec, hlimit, hall⟩ := phaseInv_emit hw h.phase
  · have hp := present_of_lt_firstGap (s := s) (i := s.next.val) (by omega)
    exact ⟨hp, .inl (hnone ⟨s.next.val, next_lt_of_lt_limit hn⟩ hp)⟩
  · exact ⟨(dataCount_eq_cfgK_iff s).1 hall _ (by omega), .inr hdec⟩

/-- An offer is no longer than the buffer (R133, R150). -/
theorem offerLen_le {s : State} (h : WorkerInv s) {i : Nat} (hi : i < 31) (hp : (dataAt s i).present = true) :
    offerLen s (dataAt s i) ≤ s.cfgMtu := by
  unfold offerLen
  split
  · exact BitVec.le_refl _
  · exact h.sizes ⟨i, hi⟩ hp

/-! ## BuildShares -/

/-- BuildShares takes each index's own slot, or the next redundancy share in place of a rebuilt one (R158). -/
theorem buildFrom_cons {s : State} {i : Nat} {is r : List Nat} {b : Shares} :
    buildFrom s (i :: is) r = .ok b ↔
      (dataAt s i).present = true
        ∧ (((dataAt s i).recon = false ∧ ∃ c, buildFrom s is r = .ok c
              ∧ b = ⟨i :: c.idx, (dataAt s i).slot :: c.src, c.dst⟩)
            ∨ ((dataAt s i).recon = true ∧ ∃ q r' c, r = q :: r' ∧ buildFrom s is r' = .ok c
              ∧ b = ⟨q :: c.idx, (redAt s q).slot :: c.src, (dataAt s i).slot :: c.dst⟩)) := by
  cases hp : (dataAt s i).present with
  | false => simp [buildFrom, hp]
  | true =>
    cases hrec : (dataAt s i).recon with
    | false => cases hb : buildFrom s is r <;> simp [buildFrom, hp, hrec, hb, eq_comm]
    | true =>
      cases r with
      | nil => simp [buildFrom, hp, hrec]
      | cons q r' => cases hb : buildFrom s is r' <;> simp [buildFrom, hp, hrec, hb, eq_comm]

/-- BuildShares completes where every index is present and the redundancy shares suffice for the rebuilt ones. -/
theorem buildFrom_completes {s : State} {is r : List Nat} (hp : ∀ i ∈ is, (dataAt s i).present = true)
    (hr : is.countP (fun i => (dataAt s i).recon) ≤ r.length) : ∃ b, buildFrom s is r = .ok b := by
  induction is generalizing r with
  | nil => exact ⟨_, rfl⟩
  | cons i is ih =>
    obtain ⟨hpi, hps⟩ := List.forall_mem_cons.1 hp
    cases hrec : (dataAt s i).recon with
    | false =>
      obtain ⟨c, hc⟩ := ih (r := r) hps (by simpa [List.countP_cons, hrec] using hr)
      exact ⟨_, buildFrom_cons.2 ⟨hpi, .inl ⟨hrec, c, hc, rfl⟩⟩⟩
    | true =>
      rw [List.countP_cons_of_pos (p := fun i => (dataAt s i).recon) hrec] at hr
      cases r with
      | nil => simp at hr
      | cons q r' =>
        obtain ⟨c, hc⟩ := ih (r := r') hps (by simpa using hr)
        exact ⟨_, buildFrom_cons.2 ⟨hpi, .inr ⟨hrec, q, r', c, rfl, hc, rfl⟩⟩⟩

/-- Every source is a received data share or a redundancy share. -/
theorem mem_src_of_buildFrom {s : State} {is r : List Nat} {b : Shares} {x : Slot} (hb : buildFrom s is r = .ok b)
    (hx : x ∈ b.src) :
    (∃ i ∈ is, (dataAt s i).present = true ∧ (dataAt s i).recon = false ∧ (dataAt s i).slot = x)
      ∨ ∃ q ∈ r, (redAt s q).slot = x := by
  induction is generalizing r b with
  | nil => cases hb; cases hx
  | cons i is ih =>
    obtain ⟨hp, ⟨hrec, c, hc, rfl⟩ | ⟨-, q, r', c, rfl, hc, rfl⟩⟩ := buildFrom_cons.1 hb
    · obtain rfl | hx := List.mem_cons.1 hx
      · exact .inl ⟨i, List.mem_cons_self, hp, hrec, rfl⟩
      · exact (ih hc hx).imp_left fun ⟨j, hj, he⟩ => ⟨j, List.mem_cons_of_mem _ hj, he⟩
    · obtain rfl | hx := List.mem_cons.1 hx
      · exact .inr ⟨q, List.mem_cons_self, rfl⟩
      · exact (ih hc hx).imp (fun ⟨j, hj, he⟩ => ⟨j, List.mem_cons_of_mem _ hj, he⟩)
          fun ⟨p, hp, he⟩ => ⟨p, List.mem_cons_of_mem _ hp, he⟩

/-- The destinations are the slots of the rebuilt entries. -/
theorem mem_dst_iff_of_buildFrom {s : State} {is r : List Nat} {b : Shares} (hb : buildFrom s is r = .ok b) (x : Slot) :
    x ∈ b.dst ↔ ∃ i ∈ is, (dataAt s i).present = true ∧ (dataAt s i).recon = true ∧ (dataAt s i).slot = x := by
  induction is generalizing r b with
  | nil => cases hb; simp
  | cons i is ih =>
    obtain ⟨hp, ⟨hrec, c, hc, rfl⟩ | ⟨hrec, q, r', c, rfl, hc, rfl⟩⟩ := buildFrom_cons.1 hb
    · simp [ih hc, hrec]
    · simp [ih hc, hp, hrec, eq_comm (a := x)]

theorem mem_redPresent {s : State} {q : Nat} :
    q ∈ redPresent s ↔ q < s.cfgN.val ∧ s.cfgK.val ≤ q ∧ (redAt s q).present = true := by
  simp [redPresent]

/-- In the DECODE phase BuildShares completes: as many redundancy shares came as entries are rebuilt (R156, R158). -/
theorem buildShares_completes {s : State} (hw : s.wph = .decode) (h : PhaseInv s) : ∃ b, buildShares s = .ok b := by
  obtain ⟨hall, hsum⟩ := phaseInv_decode hw h
  have hp := (dataCount_eq_cfgK_iff s).1 hall
  have hreceived : receivedCount s = (List.range s.cfgK.val).countP fun i => !(dataAt s i).recon :=
    List.countP_congr fun i hi => by simp [hp i (List.mem_range.1 hi)]
  have hsplit := List.length_eq_countP_add_countP (fun i => (dataAt s i).recon) (l := List.range s.cfgK.val)
  simp only [List.length_range] at hsplit
  have hrebuilt : (List.range s.cfgK.val).countP (fun i => (dataAt s i).recon) = redCount s := by
    simp only [Bool.not_eq_true, Bool.decide_eq_false] at hsplit
    omega
  exact buildFrom_completes (fun i hi => hp i (List.mem_range.1 hi)) hrebuilt.le

/-- BuildShares names slots of the accumulator only. -/
theorem mem_collected_of_buildShares {s : State} {b : Shares} (hb : buildShares s = .ok b) {x : Slot}
    (hx : x ∈ b.src ++ b.dst) : x ∈ collected s := by
  have hdata : ∀ i, i < s.cfgK.val → (dataAt s i).present = true → (dataAt s i).slot ∈ collected s := fun i hi hp =>
    List.mem_append_left _ (mem_slotsOf.2 ⟨i, by omega, hp, rfl⟩)
  obtain hx | hx := List.mem_append.1 hx
  · obtain ⟨i, hi, hp, -, rfl⟩ | ⟨q, hq, rfl⟩ := mem_src_of_buildFrom hb hx
    · exact hdata i (List.mem_range.1 hi) hp
    · obtain ⟨hn, -, hp⟩ := mem_redPresent.1 hq
      exact List.mem_append_right _ (mem_slotsOf.2 ⟨q, by omega, hp, rfl⟩)
  · obtain ⟨i, hi, hp, -, rfl⟩ := (mem_dst_iff_of_buildFrom hb x).1 hx
    exact hdata i (List.mem_range.1 hi) hp

end Sys2Proof.Machine
end

section
/-! Where the invariant holds no instruction faults (log 13). -/

namespace Sys2Proof.Machine

/-- The invariant does not depend on the turns to come. -/
theorem inv_turn (s : State) (ts : List Turn) (n : Nat) (h : Inv s) : Inv { s with sched := ts, tick := n } :=
  { memory := h.memory
    pool := poolInv_turn s ts n h.pool
    fifo := h.fifo
    framer := framerInv_congr (by simp [FramerKept]) h.framer
    worker :=
      { config := h.worker.config, unused := h.worker.unused, dispatch := h.worker.dispatch, bounds := h.worker.bounds
        sizes := h.worker.sizes, halted := h.worker.halted, stopped := h.worker.stopped, phase := h.worker.phase } }

theorem inv_nextTurn {s : State} (h : Inv s) : Inv (nextTurn s).2 :=
  nextTurn_state s ▸ inv_turn s _ _ h

/-! ## Instructions that fault in no state -/

section
variable {s : State} {f : Fault}

theorem illegalWord_ne_fault (p : Port) : illegalWord p s ≠ .fault f := by
  obtain ⟨-, h⟩ | ⟨-, -, h⟩ | ⟨-, -, h⟩ := illegalWord_cases p s <;> simp [h]

theorem execInit_ne_fault (k n : BitVec 6) (mtu : BitVec 16) : execInit k n mtu s ≠ .fault f := by
  unfold execInit
  split_ifs <;> simp

theorem execSubmit_ne_fault (blk : Bool) (len : BitVec 16) (bytes : List Byte) :
    execSubmit blk len bytes s ≠ .fault f := by
  unfold execSubmit
  split
  · simp
  · split <;> simp

theorem execFPoolFail_ne_fault : execFPoolFail s ≠ .fault f := by
  unfold execFPoolFail
  split_ifs <;> simp

theorem execSubmitDone_ne_fault : execSubmitDone s ≠ .fault f := by
  unfold execSubmitDone
  split_ifs <;> simp

theorem execEmitDone_ne_fault : execEmitDone s ≠ .fault f := by
  unfold execEmitDone
  split_ifs <;> simp

theorem execFinish_ne_fault : execFinish s ≠ .fault f := by
  unfold execFinish
  split
  · split <;> simp
  · simp

theorem execFatal_ne_fault (c : Cause) : execFatal c s ≠ .fault f := by
  unfold execFatal
  split_ifs <;> simp

theorem discard_ne_fault (v : Verdict) (d : Desc) (rest : List Desc) : discard v s d rest ≠ .fault f := by
  obtain ⟨-, h⟩ | ⟨-, h⟩ := discard_cases v s d rest <;> simp [h]

theorem acceptAs_ne_fault {c : PacketClass} {h : Header} {act : Desc → List Desc → Result}
    (hact : ∀ d rest, act d rest ≠ .fault f) : acceptAs c h s act ≠ .fault f := by
  obtain ⟨d, rest, -, -, -, -, -, ha⟩ | ha := acceptAs_cases c h s act
  · exact ha ▸ hact d rest
  · simp [ha]

theorem execPktSupersede_ne_fault (h : Header) : execPktSupersede h s ≠ .fault f :=
  acceptAs_ne_fault fun d rest => by
    dsimp only
    split <;> simp

theorem classInstr_ne_fault (c : PacketClass) (h : Header) : exec (classInstr c h) s ≠ .fault f := by
  cases c with
  | malformedIndex | malformedSize | stale | dupData | dupRed => exact acceptAs_ne_fault (discard_ne_fault _)
  | supersede => exact execPktSupersede_ne_fault h
  | data | red => exact acceptAs_ne_fault fun d rest => by simp

theorem execAccept_ne_fault : execAccept s ≠ .fault f := by
  cases hf : s.fifo with
  | nil => simp [execAccept_empty hf]
  | cons d rest => exact execAccept_eq hf ▸ classInstr_ne_fault _ _

end

/-! ## Instructions whose faults the invariant excludes -/

section
variable {s : State} {f : Fault} (h : Inv s)
include h

/-- An active SUBMIT holds every byte below LEN (R37). -/
theorem submitByte_of_lt (ha : s.subActive = true) (hpos : s.subPos < s.subLen) : ∃ b, submitByte s = some b := by
  obtain ⟨hlen, -⟩ := h.framer.bytes ha
  have hlt : s.subPos.toNat < s.subData.length := by rw [hlen]; exact BitVec.lt_def.1 hpos
  exact ⟨_, List.getElem?_eq_getElem hlt⟩

/-- A slot that anyone holds is in the pool (R56, R52). -/
theorem lt_pool_of_holder (hr : s.run = .running) {x : Slot} (hx : x ∈ holders s) : x.val < 2 * s.cfgN.val :=
  (mem_holders_iff h.pool (by simp [hr]) x).1 hx

theorem execFHdrByte_ne_fault : execFHdrByte s ≠ .fault f := by
  unfold execFHdrByte
  split
  case isFalse => simp
  case isTrue hg =>
    obtain ⟨hon, hpos, hph⟩ := hg
    obtain ⟨-, ha⟩ := (framerOn_iff s).1 hon
    obtain ⟨hcnt, -⟩ := h.framer.hdr hph
    obtain ⟨b, hb⟩ := submitByte_of_lt h ha hpos
    have hne : s.frHcnt ≠ 6 := fun he => by simp [he] at hcnt
    simp [hne, hb]

theorem execFPayByte_ne_fault (pick : Nat) : execFPayByte pick s ≠ .fault f := by
  unfold execFPayByte
  split
  case isFalse => simp
  case isTrue hg =>
    obtain ⟨hon, hpos, hph⟩ := hg
    obtain ⟨hr, ha⟩ := (framerOn_iff s).1 hon
    obtain ⟨hlt, -⟩ := h.framer.pay hph
    obtain ⟨b, hb⟩ := submitByte_of_lt h ha hpos
    have hin : ∀ x, x ∈ holders s → inRange s x s.frPcnt.toNat 1 = true := fun x hx =>
      (inRange_byte_iff s x _).2 ⟨BitVec.lt_def.2 hlt, lt_pool_of_holder h hr hx⟩
    simp only [hb]
    split
    case h_1 x hx => simp [hin x (by simp [holders, hx])]
    case h_2 =>
      split
      case h_1 => simp
      case h_2 x free hacq => simp [hin x (by simp [holders, (acquire_some hacq).1])]

theorem execFEnq_ne_fault : execFEnq s ≠ .fault f := by
  unfold execFEnq
  split
  case isFalse => simp
  case isTrue hg =>
    obtain ⟨x, hx⟩ := Option.ne_none_iff_exists'.1 (h.framer.enq hg.2.1)
    simp [hx]

theorem execFFifoFail_ne_fault : execFFifoFail s ≠ .fault f := by
  unfold execFFifoFail
  split
  case isFalse => simp
  case isTrue hg =>
    obtain ⟨x, hx⟩ := Option.ne_none_iff_exists'.1 (h.framer.enq hg.2.2.1)
    simp only [hx]
    split <;> simp

theorem execEmit_ne_fault : execEmit s ≠ .fault f := by
  unfold execEmit
  split
  case h_1 => simp
  case h_2 o ho =>
    obtain ⟨hr, hw, hn, -⟩ := offer_eq_some ho
    have hn31 := next_lt_of_lt_limit hn
    obtain ⟨hp, -⟩ := offered_entry h.worker hw hn
    have hx : (dataAt s s.next.val).slot ∈ holders s := by
      rw [holders_eq]
      exact List.mem_append_right _ (List.mem_append_left _ (mem_slotsOf.2 ⟨s.next.val, hn31, hp, rfl⟩))
    have hin := (inRange_zero_iff s _ _).2 ⟨offerLen_le h.worker hn31 hp, lt_pool_of_holder h hr hx⟩
    simp [hp, hin]

theorem execAcq_ne_fault (pick : Nat) : execAcq pick s ≠ .fault f := by
  unfold execAcq
  split
  case isFalse => simp
  case isTrue hg =>
    obtain ⟨-, hw⟩ := (workerIn_iff .acq s).1 hg
    obtain ⟨-, hlt⟩ := phaseInv_acq hw h.worker.phase
    have hmiss : firstMissing s ≠ none := fun hm =>
      hlt.ne ((dataCount_eq_cfgK_iff s).2 ((firstMissing_none s).1 hm))
    obtain ⟨j, hj⟩ := Option.ne_none_iff_exists'.1 hmiss
    split
    · simp
    · simp [hj]

theorem execDecode_ne_fault (reply : CodecReply) : execDecode reply s ≠ .fault f := by
  unfold execDecode
  split
  case isFalse => simp
  case isTrue hg =>
    obtain ⟨hr, hw⟩ := (workerIn_iff .decode s).1 hg
    obtain ⟨b, hb⟩ := buildShares_completes hw h.worker.phase
    have hin : (b.src ++ b.dst).all (fun x => inRange s x 0 s.cfgMtu.toNat) = true :=
      (decode_inRange_iff s _).2 fun x hx =>
        lt_pool_of_holder h hr (holders_eq s ▸ List.mem_append_right _ (mem_collected_of_buildShares hb hx))
    simp only [hb, hin, Bool.true_eq_false, if_false]
    cases reply with
    | fail => exact nofun
    | ok dst => dsimp only; split <;> simp

theorem exec_ne_fault (i : Instr) : exec i s ≠ .fault f := by
  cases i with
  | init k n mtu => exact execInit_ne_fault k n mtu
  | submit blk len bytes => exact execSubmit_ne_fault blk len bytes
  | stop | status | reset => exact nofun
  | reservedOp0 p | reservedOp5 p | reservedOp6 p | reservedOp7 p | reservedOp8 p | reservedOp9 p | reservedOp10 p
  | reservedOp11 p | reservedOp12 p | reservedOp13 p | reservedOp14 p | reservedOp15 p
  | illegalWrongPort p => exact illegalWord_ne_fault p
  | illegalSubmitReservedBits => exact illegalWord_ne_fault .data
  | illegalStopStatusBits => exact illegalWord_ne_fault .control
  | pktMalformedIndex hd => exact classInstr_ne_fault .malformedIndex hd
  | pktMalformedSize hd => exact classInstr_ne_fault .malformedSize hd
  | pktStale hd => exact classInstr_ne_fault .stale hd
  | pktSupersede hd => exact classInstr_ne_fault .supersede hd
  | pktDupData hd => exact classInstr_ne_fault .dupData hd
  | pktData hd => exact classInstr_ne_fault .data hd
  | pktDupRed hd => exact classInstr_ne_fault .dupRed hd
  | pktRed hd => exact classInstr_ne_fault .red hd
  | fHdrByte => exact execFHdrByte_ne_fault h
  | fPayByte pick => exact execFPayByte_ne_fault h pick
  | fPoolFail => exact execFPoolFail_ne_fault
  | fEnq => exact execFEnq_ne_fault h
  | fFifoFail => exact execFFifoFail_ne_fault h
  | submitDone => exact execSubmitDone_ne_fault
  | accept => exact execAccept_ne_fault
  | emit => exact execEmit_ne_fault h
  | emitDone => exact execEmitDone_ne_fault
  | acq pick => exact execAcq_ne_fault h pick
  | decode reply => exact execDecode_ne_fault h reply
  | finish => exact execFinish_ne_fault
  | fatal c => exact execFatal_ne_fault c

end

/-- Settles O56: a step runs one instruction on the state its turn leaves, which meets the invariant as well. -/
theorem goodStatesNeverFault : Obligations.GoodStatesNeverFault := by
  unfold Obligations.GoodStatesNeverFault
  intro s f h
  obtain ⟨i, -, he⟩ | ⟨-, he⟩ | ⟨-, he⟩ := step_cases s <;> rw [he]
  · exact exec_ne_fault (inv_nextTurn h) i
  · exact nofun
  · exact nofun

end Sys2Proof.Machine
end

section
/-! What can still be read has been written (R52): the framer's slot up to FR_PCNT, and every slot that is handed on. -/

namespace Sys2Proof.Machine

/-! ## A write makes no byte unwritten -/

theorem Memory.set_keeps_written {m : Memory} {key k' : Nat} (b : Byte) (h : (Memory.lookup m k').isSome = true) :
    (Memory.lookup (Memory.set m key b) k').isSome = true := by
  by_cases hk : k' = key
  · rw [hk, Memory.lookup_set_same]
    rfl
  · rwa [Memory.lookup_set_other m b hk]

theorem Memory.setBytes_keeps_written {m : Memory} {key k' : Nat} (bs : List Byte)
    (h : (Memory.lookup m k').isSome = true) : (Memory.lookup (Memory.setBytes m key bs) k').isSome = true := by
  induction bs generalizing m key with
  | nil => exact h
  | cons b bs ih => exact ih (Memory.set_keeps_written b h)

theorem memWriteShares_keeps_written {s : State} {key : Nat} (xs : List Slot) (bs : List (List Byte))
    (h : (Memory.lookup s.buf key).isSome = true) :
    (Memory.lookup (memWriteShares s xs bs).buf key).isSome = true := by
  induction xs generalizing s bs with
  | nil => exact h
  | cons x xs ih =>
    cases bs with
    | nil => exact h
    | cons b bs => exact ih bs (Memory.setBytes_keeps_written (m := s.buf) b h)

/-- MemWrite of whole shares writes every slot up to the mtu (R159). -/
theorem slotWritten_memWriteShares {s : State} {xs : List Slot} {bs : List (List Byte)} {x : Slot} (hx : x ∈ xs)
    (hlen : bs.length = xs.length) (hb : ∀ b ∈ bs, b.length = s.cfgMtu.toNat) :
    slotWritten (memWriteShares s xs bs) x := by
  induction xs generalizing s bs with
  | nil => cases hx
  | cons y ys ih =>
    cases bs with
    | nil => cases hlen
    | cons b bs =>
      obtain ⟨hb0, hbs⟩ := List.forall_mem_cons.1 hb
      obtain rfl | hx := List.mem_cons.1 hx
      · intro o ho
        rw [memWriteShares_cfgMtu] at ho
        have hkey : bufKey x o = bufKey x 0 + o := by simp [bufKey]
        refine memWriteShares_keeps_written (s := memWrite s x 0 b) ys bs ?_
        rw [hkey, memWrite_buf, Memory.lookup_setBytes_same (hb0 ▸ ho)]
        rfl
      · exact ih (s := memWrite s y 0 b) hx (Nat.succ.inj hlen) hbs

/-! ## What keeps WrittenInv -/

/-- `t` has every register WrittenInv speaks of as `s` has it. -/
def WrittenKept (s t : State) : Prop :=
  t.buf = s.buf ∧ t.cfgMtu = s.cfgMtu ∧ t.frPhase = s.frPhase ∧ t.frSlot = s.frSlot ∧ t.frPcnt = s.frPcnt
    ∧ t.fifo = s.fifo ∧ t.data = s.data ∧ t.red = s.red ∧ t.decoded = s.decoded

theorem writtenInv_congr {s t : State} (h : WrittenInv s) (hk : WrittenKept s t) : WrittenInv t := by
  obtain ⟨hbuf, hmtu, hph, hslot, hpcnt, hfifo, hd, hr, hdec⟩ := hk
  have hdata : ∀ i, dataAt t i = dataAt s i := fun i => by simp only [dataAt, hd]
  have hred : ∀ q, redAt t q = redAt s q := fun q => by simp only [redAt, hr]
  exact
    { framer := by simpa only [hslot, hpcnt, hbuf] using h.framer
      full := by simpa only [hph, hpcnt, hmtu] using h.full
      fifo := by simpa only [slotWritten, hfifo, hmtu, hbuf] using h.fifo
      data := by simpa only [slotWritten, hdata, hdec, hmtu, hbuf] using h.data
      red := by simpa only [slotWritten, hred, hmtu, hbuf] using h.red }

/-- Where nobody but FREE holds a slot nothing has to be written. -/
theorem writtenInv_of_empty {s : State} (hslot : s.frSlot = none) (hph : s.frPhase = .hdr) (hfifo : s.fifo = [])
    (hd : ∀ i, (dataAt s i).present = false) (hr : ∀ q, (redAt s q).present = false) : WrittenInv s :=
  { framer := by simp [hslot], full := by simp [hph], fifo := by simp [hfifo], data := by simp [hd]
    red := by simp [hr] }

/-- INIT and STOP leave every slot to FREE (R100, R102). -/
theorem writtenInv_cleared {s t : State} (hslot : t.frSlot = none) (hph : t.frPhase = .hdr) (hfifo : t.fifo = [])
    (hd : t.data = (clearCollections s).data) (hr : t.red = (clearCollections s).red) : WrittenInv t := by
  refine writtenInv_of_empty hslot hph hfifo (fun i => ?_) (fun q => ?_)
  · have hat : dataAt t i = dataAt (clearCollections s) i := by simp only [dataAt, hd]
    rw [hat, dataAt_clearCollections, DataEntry.cleared]
  · have hat : redAt t q = redAt (clearCollections s) q := by simp only [redAt, hr]
    rw [hat, redAt_clearCollections, RedEntry.cleared]

/-- FramerReset leaves no slot with the framer (R112). -/
theorem writtenInv_framerReset {s : State} (h : WrittenInv s) : WrittenInv (framerReset s) :=
  { framer := nofun, full := nofun, fifo := h.fifo, data := h.data, red := h.red }

/-- A slot that is full may go into the FIFO (R109). -/
theorem writtenInv_enqueued {s : State} {x : Slot} (hdr : Header) (h : WrittenInv s) (hx : s.frSlot = some x)
    (hph : s.frPhase = .enq) : WrittenInv { s with fifo := s.fifo ++ [⟨x, hdr⟩] } :=
  { framer := h.framer
    full := h.full
    fifo := List.forall_mem_append.2 ⟨h.fifo, List.forall_mem_singleton.2 fun o ho => h.framer x hx o (h.full hph ▸ ho)⟩
    data := h.data
    red := h.red }

/-- While header bytes come the framer holds no slot (R34, R106). -/
theorem writtenInv_takeHeaderByte {s : State} (b : Byte) (h : WrittenInv s) (hph : s.frPhase = .hdr)
    (hslot : s.frSlot = none) : WrittenInv (takeHeaderByte b s) := by
  have hnot : (takeHeaderByte b s).frPhase ≠ .enq := by
    rw [takeHeaderByte_frPhase, hph]
    split <;> simp
  have hdata : ∀ i, dataAt (takeHeaderByte b s) i = dataAt s i := fun i => by simp only [dataAt, takeHeaderByte_data]
  have hred : ∀ q, redAt (takeHeaderByte b s) q = redAt s q := fun q => by simp only [redAt, takeHeaderByte_red]
  exact
    { framer := by simp [hslot]
      full := fun he => absurd he hnot
      fifo := by simpa [slotWritten] using h.fifo
      data := by simpa [slotWritten, hdata] using h.data
      red := by simpa [slotWritten, hred] using h.red }

/-- The framer's next byte is written at FR_PCNT; the first one goes to offset 0 of the slot it acquires (R107). -/
theorem writtenInv_takePayloadByte {s : State} (b : Byte) (x : Slot) (free : List Slot) (h : WrittenInv s)
    (hlt : s.frPcnt < s.cfgMtu) (hph : s.frPhase = .pay) (hx : s.frSlot = some x ∨ s.frPcnt = 0#16) :
    WrittenInv (takePayloadByte b x { s with free := free }) := by
  have hgrows : ∀ {key}, (Memory.lookup s.buf key).isSome = true →
      (Memory.lookup (takePayloadByte b x { s with free := free }).buf key).isSome = true :=
    fun hkey => Memory.setBytes_keeps_written [b] hkey
  have hsucc : (s.frPcnt + 1).toNat = s.frPcnt.toNat + 1 := toNat_succ_of_lt hlt
  exact
    { framer := fun y hy o ho => by
        cases hy
        change o < (s.frPcnt + 1).toNat at ho
        obtain ho | rfl := Nat.lt_succ_iff_lt_or_eq.1 (hsucc ▸ ho)
        · obtain hx | hx := hx
          · exact hgrows (h.framer x hx o ho)
          · simp [hx] at ho
        · exact congrArg Option.isSome (Memory.lookup_set_same _ _ _)
      full := fun he => by
        by_contra hne
        have hph' : (takePayloadByte b x { s with free := free }).frPhase = .pay := (if_neg hne).trans hph
        rw [hph'] at he
        cases he
      fifo := fun d hd o ho => hgrows (h.fifo d hd o ho)
      data := fun i hp hrec o ho => hgrows (h.data i hp hrec o ho)
      red := fun q hp o ho => hgrows (h.red q hp o ho) }

section
variable {s : State} {d : Desc} {rest : List Desc}

theorem writtenInv_popped (h : WrittenInv s) (hf : s.fifo = d :: rest) : WrittenInv { s with fifo := rest } :=
  { framer := h.framer, full := h.full, fifo := fun e he => h.fifo e (hf ▸ List.mem_cons_of_mem d he), data := h.data
    red := h.red }

/-- A data entry may be replaced by one whose slot is written, or waits for DECODE. -/
theorem writtenInv_setData {j : Nat} {e : DataEntry} (h : WrittenInv s) (hj : j < 31)
    (he : e.present = true → e.recon = false ∨ s.decoded = true → slotWritten s e.slot) : WrittenInv (setData s j e) :=
  { framer := h.framer
    full := h.full
    fifo := h.fifo
    data := fun i => by
      rw [dataAt_setData s j i.val e hj]
      split
      · exact he
      · exact h.data i
    red := h.red }

theorem writtenInv_setRed {j : Nat} {e : RedEntry} (h : WrittenInv s) (hj : j < 32)
    (he : e.present = true → slotWritten s e.slot) : WrittenInv (setRed s j e) :=
  { framer := h.framer
    full := h.full
    fifo := h.fifo
    data := h.data
    red := fun q => by
      rw [redAt_setRed s j q.val e hj]
      split
      · exact he
      · exact h.red q }

/-- The head's slot, full since F_ENQ, becomes a data share (R138). -/
theorem writtenInv_insertData (h : WrittenInv s) (hf : s.fifo = d :: rest) (hj : d.hdr.pi.toNat < 31) :
    WrittenInv (afterInsert (insertData d { s with fifo := rest })) := by
  have hslot : slotWritten s d.slot := h.fifo d (hf ▸ List.mem_cons_self)
  exact writtenInv_congr
    (writtenInv_setData (e := ⟨true, d.slot, d.hdr.ps, false, false⟩) (writtenInv_popped h hf) hj fun _ _ => hslot)
    (by simp [WrittenKept])

/-- The head's slot becomes a redundancy share (R139). -/
theorem writtenInv_insertRed (h : WrittenInv s) (hf : s.fifo = d :: rest) (hj : d.hdr.pi.toNat < 32) :
    WrittenInv (afterInsert (insertRed d { s with fifo := rest })) := by
  have hslot : slotWritten s d.slot := h.fifo d (hf ▸ List.mem_cons_self)
  exact writtenInv_congr (writtenInv_setRed (e := ⟨true, d.slot⟩) (writtenInv_popped h hf) hj fun _ => hslot)
    (by simp [WrittenKept])

/-- Purge and FINISH clear entries and hand out no slot (R135, R163). -/
theorem writtenInv_clearBlock (h : WrittenInv s) : WrittenInv (clearBlock s) :=
  { framer := h.framer
    full := h.full
    fifo := h.fifo
    data := fun i => by
      rw [dataAt_clearBlock]
      split
      · exact nofun
      · exact fun hp hrec => h.data i hp (hrec.imp_right nofun)
    red := fun q => by
      rw [redAt_clearBlock]
      split
      · exact nofun
      · exact h.red q }

/-- The block is purged, and the head of the FIFO becomes the first share of the next (R136). -/
theorem writtenInv_insert_superseded {free : List Slot} (h : WrittenInv s) (hf : s.fifo = d :: rest)
    (hn : d.hdr.pi.toNat < s.cfgN.val) :
    WrittenInv (afterInsert (if d.hdr.pi.toNat < s.cfgK.val then insertData d (superseded d.hdr.bi rest free s)
      else insertRed d (superseded d.hdr.bi rest free s))) := by
  have hpurged : WrittenInv { clearBlock s with free := free, cbi := d.hdr.bi } :=
    writtenInv_congr (writtenInv_clearBlock h) (by simp [WrittenKept])
  split
  · exact writtenInv_insertData hpurged hf (by omega)
  · exact writtenInv_insertRed hpurged hf (by omega)

end

/-- EMIT changes a flag only (R150). -/
theorem writtenInv_markDispatched {s : State} (h : WrittenInv s) (hn : s.next < s.limit) :
    WrittenInv (markDispatched s) := by
  have hn31 := next_lt_of_lt_limit hn
  exact writtenInv_congr (writtenInv_setData (e := { dataAt s s.next.val with disp := true }) h hn31 (h.data ⟨_, hn31⟩))
    (by simp [WrittenKept])

/-- A destination waits for DECODE, which is still to come in the ACQ phase (R157). -/
theorem writtenInv_acquired {s : State} {j : Nat} (x : Slot) (free : List Slot) (h : WrittenInv s)
    (hj : j < s.cfgK.val) (hdec : s.decoded = false) : WrittenInv (acquired j x free s) :=
  writtenInv_setData (s := { s with free := free }) (writtenInv_congr h (by simp [WrittenKept])) (by omega)
    fun _ hrec => by simp [hdec] at hrec

/-- DECODE fills the slot of every rebuilt entry up to the mtu (R159). -/
theorem writtenInv_decoded {s : State} {b : Shares} {dst : List (List Byte)} (h : WrittenInv s) (hun : UnusedAbsent s)
    (hb : buildShares s = .ok b) (hfit : replyFits b.dst.length s.cfgMtu.toNat dst = true) :
    WrittenInv { memWriteShares s b.dst dst with decoded := true, limit := s.cfgK, wph := .emit } := by
  obtain ⟨hlen, hsize⟩ := (replyFits_iff _ _ _).1 hfit
  have hgrows : ∀ {x}, slotWritten s x → slotWritten (memWriteShares s b.dst dst) x := fun hx o ho =>
    memWriteShares_keeps_written _ _ (hx o (by simpa using ho))
  have hdata : ∀ i, dataAt (memWriteShares s b.dst dst) i = dataAt s i := fun i => by simp [dataAt]
  have hred : ∀ q, redAt (memWriteShares s b.dst dst) q = redAt s q := fun q => by simp [redAt]
  have hdecoded : WrittenInv { memWriteShares s b.dst dst with decoded := true } :=
    { framer := fun x hx o ho => memWriteShares_keeps_written _ _ (h.framer x (by simpa using hx) o (by simpa using ho))
      full := by simpa using h.full
      fifo := fun d hd => hgrows (h.fifo d (by simpa using hd))
      data := fun i hp _ => by
        change (dataAt (memWriteShares s b.dst dst) i).present = true at hp
        change slotWritten (memWriteShares s b.dst dst) (dataAt (memWriteShares s b.dst dst) i).slot
        rw [hdata] at hp ⊢
        cases hrec : (dataAt s i).recon with
        | false => exact hgrows (h.data i hp (.inl hrec))
        | true =>
          have hk : i.val < s.cfgK.val := by
            by_contra hk
            simp [hun.1 i (Nat.le_of_not_lt hk)] at hp
          have hmem := (mem_dst_iff_of_buildFrom hb _).2 ⟨i.val, List.mem_range.2 hk, hp, hrec, rfl⟩
          exact slotWritten_memWriteShares hmem hlen hsize
      red := fun q hp => by
        change (redAt (memWriteShares s b.dst dst) q).present = true at hp
        change slotWritten (memWriteShares s b.dst dst) (redAt (memWriteShares s b.dst dst) q).slot
        rw [hred] at hp ⊢
        exact hgrows (h.red q hp) }
  exact writtenInv_congr hdecoded (by simp [WrittenKept])

theorem effect_keeps_writtenInv {i : Instr} {s t : State} (he : Effect i s t) (hinv : Inv s) (h : WrittenInv s) :
    WrittenInv t := by
  cases he with
  | held => exact h
  | started | stopped => exact writtenInv_cleared (s := s) rfl rfl rfl rfl rfl
  | reset => exact writtenInv_congr writtenInv_reset (by simp [WrittenKept])
  | headerByte _ _ _ _ hph => exact writtenInv_takeHeaderByte _ h hph (hinv.framer.hdr hph).2
  | payloadByte _ _ _ _ hph _ _ hx =>
    obtain ⟨hlt, hzero⟩ := hinv.framer.pay hph
    exact writtenInv_takePayloadByte _ _ _ h (BitVec.lt_def.2 hlt) hph
      (hx.imp And.left fun hx => hzero.1 hx.1)
  | enqueued _ _ _ hph _ hx => exact writtenInv_framerReset (writtenInv_enqueued (frHeader s) h hx hph)
  | fifoFailed => exact writtenInv_congr (writtenInv_framerReset h) (by simp [WrittenKept])
  | discarded hf => exact writtenInv_congr (writtenInv_popped h hf) (by simp [WrittenKept])
  | dataInserted hf _ _ hc =>
    obtain ⟨hk, -⟩ := packetClass_data hc
    exact writtenInv_insertData h hf (by omega)
  | redInserted hf _ _ hc =>
    obtain ⟨-, hn, -⟩ := packetClass_red hc
    exact writtenInv_insertRed h hf (by omega)
  | purged _ hf _ _ hc => exact writtenInv_insert_superseded h hf (lt_cfgN_of_packetClass (by simp [hc]))
  | emitted _ ho =>
    exact writtenInv_congr (writtenInv_markDispatched h (next_lt_limit_of_offer ho)) (by simp [WrittenKept])
  | @destination _ j x free _ _ hw _ hj =>
    obtain ⟨hk, -, -⟩ := (firstMissing_spec s _).1 hj
    obtain ⟨hdec, -⟩ := phaseInv_acq hw hinv.worker.phase
    exact writtenInv_congr (writtenInv_acquired x free h hk hdec) (by simp [WrittenKept])
  | decoded _ _ _ hb _ hfit => exact writtenInv_decoded h hinv.pool.unused hb hfit
  | finished => exact writtenInv_congr (writtenInv_clearBlock h) (by simp [WrittenKept])
  | answered | stoppedAgain | submitted | poolFailed | submitDone | emitDone | raised | doubleFreed =>
    exact writtenInv_congr h (by simp [WrittenKept])

/-- Settles O57: a slot is handed on by F_ENQ, when it is full, and by ACQ, for DECODE to fill; no byte becomes
unwritten before a reset. -/
theorem writtenBytesKept : Obligations.WrittenBytesKept := by
  unfold Obligations.WrittenBytesKept
  intro s t hinv h hstep
  have hturn : WrittenInv (nextTurn s).2 := nextTurn_state s ▸ writtenInv_congr h (by simp [WrittenKept])
  obtain rfl | ⟨i, -, he⟩ := step_next hstep
  · exact hturn
  · exact effect_keeps_writtenInv he (inv_nextTurn hinv) hturn

/-- Settles O58: an offer is of a received entry or one that DECODE has filled, and the sources are received shares. -/
theorem readsAreWritten : Obligations.ReadsAreWritten := by
  unfold Obligations.ReadsAreWritten
  intro s hinv h
  refine ⟨fun len bytes ho o hlt => ?offer, fun b hb x hx => ?sources⟩
  case offer =>
    obtain ⟨-, hw, hn, hready⟩ := offer_eq_some ho
    have hn31 := next_lt_of_lt_limit hn
    cases hready
    obtain ⟨hp, hfilled⟩ := offered_entry hinv.worker hw hn
    have hle := BitVec.le_def.1 (offerLen_le hinv.worker hn31 hp)
    exact h.data ⟨s.next.val, hn31⟩ hp hfilled o (Nat.lt_of_lt_of_le hlt hle)
  case sources =>
    obtain ⟨i, hi, hp, hrec, rfl⟩ | ⟨q, hq, rfl⟩ := mem_src_of_buildFrom hb hx
    · have hk := List.mem_range.1 hi
      exact h.data ⟨i, by omega⟩ hp (.inl hrec)
    · obtain ⟨hn, -, hp⟩ := mem_redPresent.1 hq
      exact h.red ⟨q, by omega⟩ hp

end Sys2Proof.Machine
end

section
/-! The wire header (R71, R72): ParseHeader's fields in numbers, and that Seal and ParseHeader undo each other. -/

namespace Sys2Proof.Machine

/-- Joining words, in numbers: the upper word counts in multiples of the lower word's range. -/
theorem toNat_append_eq {n m : Nat} (x : BitVec n) (y : BitVec m) :
    (x ++ y).toNat = y.toNat + x.toNat * 2 ^ m := by
  rw [BitVec.toNat_append, ← Nat.shiftLeft_add_eq_or_of_lt y.isLt, Nat.shiftLeft_eq, Nat.add_comm]

theorem parseHeader_bi_toNat (b : Vector Byte 6) :
    (parseHeader b).bi.toNat = b[0].toNat + b[1].toNat * 2 ^ 8 + b[2].toNat * 2 ^ 16 := by
  simp only [parseHeader, toNat_append_eq]
  omega

theorem parseHeader_ps_toNat (b : Vector Byte 6) :
    (parseHeader b).ps.toNat = b[4].toNat + b[5].toNat * 2 ^ 8 :=
  toNat_append_eq _ _

/-- Each sealed byte is a digit, to the base 256, of the field it was parsed into. -/
theorem sealHeader_parseHeader (b : Vector Byte 6) : sealHeader (parseHeader b) = b := by
  have hbi := parseHeader_bi_toNat b
  have hpi : (parseHeader b).pi = b[3] := rfl
  have hps := parseHeader_ps_toNat b
  refine Vector.ext fun i hi => BitVec.eq_of_toNat_eq ?_
  interval_cases i <;> simp [sealHeader, hbi, hpi, hps] <;> omega

theorem parseHeader_sealHeader (h : Header) : parseHeader (sealHeader h) = h := by
  have hbi : (parseHeader (sealHeader h)).bi = h.bi :=
    BitVec.eq_of_toNat_eq (by simp [parseHeader_bi_toNat, sealHeader]; omega)
  have hps : (parseHeader (sealHeader h)).ps = h.ps :=
    BitVec.eq_of_toNat_eq (by simp [parseHeader_ps_toNat, sealHeader]; omega)
  exact (Header.mk.injEq ..).mpr ⟨hbi, rfl, hps⟩

/-- Settles O1: the two joined fields in numbers; packet_index is the fourth byte itself. -/
theorem headerFieldLayout : Obligations.HeaderFieldLayout := by
  unfold Obligations.HeaderFieldLayout
  exact fun b => ⟨parseHeader_bi_toNat b, rfl, parseHeader_ps_toNat b⟩

/-- Settles O2: the rule's list of bytes is Seal's definition; the two laws are the lemmas above. -/
theorem sealParseAgree : Obligations.SealParseAgree := by
  unfold Obligations.SealParseAgree
  exact ⟨fun _ => rfl, sealHeader_parseHeader, parseHeader_sealHeader⟩

end Sys2Proof.Machine
end

section
/-! Command words (R76 to R80): which words the encoder makes, what a port decodes each word to, and that the two
directions agree. -/

namespace Sys2Proof.Machine

/-! ## A word is what its fields say -/

theorem field_toNat (w : Word) (lo len : Nat) : (field w lo len).toNat = w.toNat / 2 ^ lo % 2 ^ len := by
  rw [BitVec.extractLsb'_toNat, Nat.shiftRight_eq_div_pow]

theorem eq_cmdWord_iff {w : Word} {hi : BitVec 28} {op : BitVec 4} :
    w = cmdWord hi op ↔ field w 0 4 = op ∧ field w 4 28 = hi := by
  have hval : (cmdWord hi op).toNat = op.toNat + hi.toNat * 2 ^ 4 := toNat_append_eq hi op
  simp only [← BitVec.toNat_inj, field_toNat, hval]
  omega

/-- INIT's word is the one with OP = 1 and its operands in the fields of R77. -/
theorem eq_initWord_iff {w : Word} {k n : BitVec 6} {mtu : BitVec 16} :
    w = mtu ++ n ++ k ++ 1#4
      ↔ field w 0 4 = 1#4 ∧ field w 4 6 = k ∧ field w 10 6 = n ∧ field w 16 16 = mtu := by
  have hval : (mtu ++ n ++ k ++ 1#4 : Word).toNat = 1 + (k.toNat + (n.toNat + mtu.toNat * 2 ^ 6) * 2 ^ 6) * 2 ^ 4 := by
    simp only [toNat_append_eq, BitVec.toNat_ofNat]
  simp only [← BitVec.toNat_inj, field_toNat, hval, BitVec.toNat_ofNat]
  omega

/-- SUBMIT's word is the one with OP = 2, no reserved bit, and BLK and LEN in the fields of R78. -/
theorem eq_submitWord_iff {w : Word} {blk : Bool} {len : BitVec 16} :
    w = len ++ 0#11 ++ BitVec.ofBool blk ++ 2#4
      ↔ field w 0 4 = 2#4 ∧ w.getLsbD 4 = blk ∧ field w 5 11 = 0#11 ∧ field w 16 16 = len := by
  have hval : (len ++ 0#11 ++ BitVec.ofBool blk ++ 2#4 : Word).toNat
      = 2 + (blk.toNat + (0 + len.toNat * 2 ^ 11) * 2 ^ 1) * 2 ^ 4 := by
    simp only [toNat_append_eq, BitVec.toNat_ofNat, BitVec.toNat_ofBool]
  have hbit : w.getLsbD 4 = blk ↔ w.toNat / 2 ^ 4 % 2 = blk.toNat := by
    rw [BitVec.getLsbD, Nat.testBit_eq_decide_div_mod_eq]
    cases blk <;> simp
  have hblk : blk.toNat < 2 := blk.toNat_lt
  simp only [← BitVec.toNat_inj, field_toNat, hval, hbit, BitVec.toNat_ofNat]
  omega

/-! ## The reserved words (R80) -/

/-- The OPs of the four commands (R76). -/
def commandOps : List (BitVec 4) := [1#4, 2#4, 3#4, 4#4]

theorem not_mem_commandOps {op : BitVec 4} :
    op ∉ commandOps ↔ op ≠ 1#4 ∧ op ≠ 2#4 ∧ op ≠ 3#4 ∧ op ≠ 4#4 := by
  simp [commandOps]

theorem encode_reservedInstr {op : BitVec 4} (hop : op ∉ commandOps) (p : Port) (hi : BitVec 28) :
    encode (reservedInstr op p hi) = .command p (cmdWord hi op) [] := by
  obtain ⟨v, hv⟩ := op
  by_cases hc : 1 ≤ v ∧ v ≤ 4
  case pos =>
    obtain ⟨hlo, hhi⟩ := hc
    interval_cases v <;> simp [commandOps] at hop
  case neg =>
    interval_cases v <;> simp at hc <;> rfl

/-! ## What a port decodes each word to -/

section
variable {w : Word}

theorem decodeControl_init (h : field w 0 4 = 1#4) :
    decodeControl w = .init (field w 4 6) (field w 10 6) (field w 16 16) := by
  simp [decodeControl, h]

theorem decodeControl_stop (h : field w 0 4 = 3#4) (hb : field w 4 28 = 0#28) : decodeControl w = .stop := by
  simp [decodeControl, h, hb]

theorem decodeControl_status (h : field w 0 4 = 4#4) (hb : field w 4 28 = 0#28) : decodeControl w = .status := by
  simp [decodeControl, h, hb]

theorem decodeControl_stopStatusBits (h : stopStatusBitsSet w = true) :
    decodeControl w = .illegalStopStatusBits w := by
  simp only [stopStatusBitsSet, opOf, Bool.and_eq_true, Bool.or_eq_true, beq_iff_eq, bne_iff_ne] at h
  obtain ⟨h3 | h4, hb⟩ := h
  · simp [decodeControl, h3, hb]
  · simp [decodeControl, h4, hb]

/-- The control port takes no byte behind a word. -/
theorem decodeCommand_control {i : Instr} (h : decodeControl w = i) (stream : List Byte) :
    decodeCommand .control w stream = .ok (i, stream) := by
  rw [decodeCommand, h]

variable {stream : List Byte}

theorem decodeData_submit (h : field w 0 4 = 2#4) (hb : field w 5 11 = 0#11)
    (hlen : (field w 16 16).toNat ≤ stream.length) :
    decodeData w stream = .ok (.submit (w.getLsbD 4) (field w 16 16) (stream.take (field w 16 16).toNat),
      stream.drop (field w 16 16).toNat) := by
  simp only [decodeData, h, hb, if_true, if_neg (Nat.not_lt.mpr hlen)]

theorem decodeData_short (h : field w 0 4 = 2#4) (hb : field w 5 11 = 0#11)
    (hlen : stream.length < (field w 16 16).toNat) : decodeData w stream = .error .shortSubmit := by
  simp only [decodeData, h, hb, if_true, if_pos hlen]

theorem decodeData_submitBits (h : submitBitsSet w = true) :
    decodeData w stream = .ok (.illegalSubmitReservedBits w, stream) := by
  simp only [submitBitsSet, opOf, Bool.and_eq_true, beq_iff_eq, bne_iff_ne] at h
  obtain ⟨h2, hb⟩ := h
  simp only [decodeData, h2, if_true, if_neg hb]

/-- A word for the other port is that illegal row, whatever its other bits are (R80, log 11). -/
theorem decodeCommand_wrongPort {p : Port} (h : wrongPort p w = true) :
    decodeCommand p w stream = .ok (.illegalWrongPort p w, stream) := by
  cases p with
  | control =>
    have h2 : field w 0 4 = 2#4 := by simpa [wrongPort, opOf] using h
    simp [decodeCommand, decodeControl, h2]
  | data =>
    have ho : (field w 0 4 = 1#4 ∨ field w 0 4 = 3#4) ∨ field w 0 4 = 4#4 := by simpa [wrongPort, opOf] using h
    obtain (h1 | h3) | h4 := ho
    · simp [decodeCommand, decodeData, h1]
    · simp [decodeCommand, decodeData, h3]
    · simp [decodeCommand, decodeData, h4]

theorem decodeCommand_reserved {op : BitVec 4} (hop : op ∉ commandOps) (p : Port) (hi : BitVec 28) :
    decodeCommand p (cmdWord hi op) stream = .ok (reservedInstr op p hi, stream) := by
  obtain ⟨ho, hh⟩ := eq_cmdWord_iff.1 (rfl : cmdWord hi op = cmdWord hi op)
  obtain ⟨h1, h2, h3, h4⟩ := not_mem_commandOps.1 hop
  cases p with
  | control => simp [decodeCommand, decodeControl, ho, hh, h1, h2, h3, h4]
  | data => simp [decodeCommand, decodeData, ho, hh, h1, h2, h3, h4]

end

/-! ## Decoding what was encoded -/

theorem decode_encode_init (k n : BitVec 6) (mtu : BitVec 16) (stream : List Byte) :
    decodeCommand .control (mtu ++ n ++ k ++ 1#4) stream = .ok (.init k n mtu, stream) := by
  obtain ⟨hop, hk, hn, hmtu⟩ := eq_initWord_iff.1 (rfl : mtu ++ n ++ k ++ 1#4 = mtu ++ n ++ k ++ 1#4)
  rw [decodeCommand, decodeControl_init hop, hk, hn, hmtu]

/-- A SUBMIT takes from the port exactly the LEN bytes it was encoded with. -/
theorem decode_encode_submit (blk : Bool) {len : BitVec 16} {bytes : List Byte} (hlen : bytes.length = len.toNat)
    (more : List Byte) :
    decodeCommand .data (len ++ 0#11 ++ BitVec.ofBool blk ++ 2#4) (bytes ++ more)
      = .ok (.submit blk len bytes, more) := by
  obtain ⟨hop, hblk, hb, hl⟩ := eq_submitWord_iff.1
    (rfl : len ++ 0#11 ++ BitVec.ofBool blk ++ 2#4 = len ++ 0#11 ++ BitVec.ofBool blk ++ 2#4)
  have henough : (field (len ++ 0#11 ++ BitVec.ofBool blk ++ 2#4) 16 16).toNat ≤ (bytes ++ more).length := by
    rw [hl, List.length_append, hlen]
    exact Nat.le_add_right _ _
  rw [decodeCommand, decodeData_submit hop hb henough, hl, hblk, ← hlen, List.take_left, List.drop_left]

/-- Settles O3: a row at a time; the twelve reserved rows are one lemma, and each illegal row's word meets the condition
of its row. -/
theorem commandRoundTrip : Obligations.CommandRoundTrip := by
  unfold Obligations.CommandRoundTrip
  intro i p w payload more hwf he
  cases i with
  | init k n mtu => cases he; exact decode_encode_init k n mtu more
  | submit blk len bytes => cases he; exact decode_encode_submit blk (beq_iff_eq.1 hwf) more
  | stop => cases he; exact decodeCommand_control (decodeControl_stop (by decide) (by decide)) more
  | status => cases he; exact decodeCommand_control (decodeControl_status (by decide) (by decide)) more
  | reservedOp0 p hi | reservedOp5 p hi | reservedOp6 p hi | reservedOp7 p hi | reservedOp8 p hi | reservedOp9 p hi
  | reservedOp10 p hi | reservedOp11 p hi | reservedOp12 p hi | reservedOp13 p hi | reservedOp14 p hi
  | reservedOp15 p hi => cases he; exact decodeCommand_reserved (by decide) p hi
  | illegalSubmitReservedBits w => cases he; exact decodeData_submitBits hwf
  | illegalStopStatusBits w => cases he; exact decodeCommand_control (decodeControl_stopStatusBits hwf) more
  | illegalWrongPort p w => cases he; exact decodeCommand_wrongPort hwf
  | _ => cases he

/-! ## Encoding what was decoded -/

theorem encode_reserved_word {w : Word} (h : field w 0 4 ∉ commandOps) (p : Port) :
    encode (reservedInstr (field w 0 4) p (field w 4 28)) = .command p w [] := by
  rw [encode_reservedInstr h, ← eq_cmdWord_iff.2 ⟨rfl, rfl⟩]

theorem encode_decodeControl (w : Word) : encode (decodeControl w) = .command .control w [] := by
  simp only [decodeControl]
  split_ifs with h1 h2 h3 hb3 h4 hb4
  · rw [encode, ← eq_initWord_iff.2 ⟨h1, rfl, rfl, rfl⟩]
  · rfl
  · exact congrArg (Encoded.command .control · []) (eq_cmdWord_iff.2 ⟨h3, hb3⟩).symm
  · rfl
  · exact congrArg (Encoded.command .control · []) (eq_cmdWord_iff.2 ⟨h4, hb4⟩).symm
  · rfl
  · exact encode_reserved_word (not_mem_commandOps.2 ⟨h1, h2, h3, h4⟩) .control

theorem encode_decodeData {w : Word} {stream rest : List Byte} {i : Instr} (h : decodeData w stream = .ok (i, rest)) :
    ∃ payload, stream = payload ++ rest ∧ encode i = .command .data w payload := by
  simp only [decodeData] at h
  split_ifs at h with h2 hb hlen ho <;> cases h
  · exact ⟨_, (List.take_append_drop _ _).symm, by rw [encode, ← eq_submitWord_iff.2 ⟨h2, rfl, hb, rfl⟩]⟩
  · exact ⟨[], rfl, rfl⟩
  · exact ⟨[], rfl, rfl⟩
  · obtain ⟨h1, h3, h4⟩ : field w 0 4 ≠ 1#4 ∧ field w 0 4 ≠ 3#4 ∧ field w 0 4 ≠ 4#4 := by simpa using ho
    exact ⟨[], rfl, encode_reserved_word (not_mem_commandOps.2 ⟨h1, h2, h3, h4⟩) .data⟩

/-- Settles O4: what either port decodes is well formed (`decodeControl_wf`, `decodeData_wf`) and encodes back. -/
theorem decodedWordEncodesBack : Obligations.DecodedWordEncodesBack := by
  unfold Obligations.DecodedWordEncodesBack
  intro p w stream rest i h
  cases p with
  | control => cases h; exact ⟨decodeControl_wf w, [], rfl, encode_decodeControl w⟩
  | data => exact ⟨decodeData_wf h, encode_decodeData h⟩

/-- Settles O5: each word is decoded by computation. -/
theorem sampleWordsDecode : Obligations.SampleWordsDecode := by
  unfold Obligations.SampleWordsDecode
  exact ⟨by decide, by decide, by decide, by decide, rfl, rfl, rfl, by decide, by decide, by decide, by decide, rfl,
    by decide⟩

end Sys2Proof.Machine
end

section
/-! The packet classification map (R74), and the answer to each reserved and illegal word (R83). -/

namespace Sys2Proof.Machine

/-- Settles O6: the map is `classify`'s chain, with the words compared as numbers. -/
theorem packetClassMap : Obligations.PacketClassMap := by
  unfold Obligations.PacketClassMap
  intro s h
  simp only [packetClass, classify, BitVec.lt_def]

/-- Every reserved and illegal row is the one shared operation, on the port that took the word (R83). -/
theorem exec_illegal {i : Instr} {p : Port} (h : illegalPort i = some p) (s : State) : exec i s = illegalWord p s := by
  cases i with
  | reservedOp0 | reservedOp5 | reservedOp6 | reservedOp7 | reservedOp8 | reservedOp9 | reservedOp10 | reservedOp11
  | reservedOp12 | reservedOp13 | reservedOp14 | reservedOp15 | illegalSubmitReservedBits | illegalStopStatusBits
  | illegalWrongPort => cases h; rfl
  | _ => cases h

/-- Settles O14: what `illegalWord` answers on the control port, on a free and on a busy data port. -/
theorem illegalWordsAnswered : Obligations.IllegalWordsAnswered := by
  unfold Obligations.IllegalWordsAnswered
  intro i s
  refine ⟨fun h => ?control, fun h ha => ?dataFree, fun h ha => ?dataBusy⟩
  case control => exact exec_illegal h s
  case dataFree => exact (exec_illegal h s).trans (if_neg (by simp [ha]))
  case dataBusy => exact (exec_illegal h s).trans (if_pos ha)

end Sys2Proof.Machine
end

section
/-! What a step refuses (R76, R78, R86; log 2, log 6): a SUBMIT word without its bytes, and a codec answer of another
shape. -/

namespace Sys2Proof.Machine

/-! ## A short SUBMIT -/

theorem decodeData_error {w : Word} {stream : List Byte} {e : DecodeError} (h : decodeData w stream = .error e) :
    field w 0 4 = 2 ∧ field w 5 11 = 0 ∧ stream.length < (field w 16 16).toNat := by
  simp only [decodeData] at h
  split_ifs at h with h2 hb hlen ho
  cases h
  exact ⟨h2, hb, hlen⟩

theorem fetchTurn_data_short {w : Word} {stream : List Byte} {s : State} (ha : s.subActive = false)
    (hd : decodeData w stream = .error .shortSubmit) : fetchTurn (.data w stream) s = .bad .shortSubmit := by
  simp [fetchTurn, ha, hd]

theorem step_of_fetch_bad {s s1 : State} {t : Turn} (hn : nextTurn s = (t, s1))
    (hf : fetchTurn t s1 = .bad .shortSubmit) : step s = .refused .shortSubmit := by
  simp only [step, hn, hf]

theorem fetchTurn_bad {t : Turn} {s : State} {e : DecodeError} (h : fetchTurn t s = .bad e) :
    s.subActive = false ∧ ∃ w stream, t = .data w stream ∧ decodeData w stream = .error e := by
  cases t with
  | ctrl w => cases h
  | data w stream =>
    simp only [fetchTurn] at h
    split at h
    case isTrue => cases h
    case isFalse ha =>
      split at h
      case h_1 => cases h
      case h_2 hd => cases h; exact ⟨by simpa using ha, w, stream, rfl, hd⟩
  | framer pick => cases h
  | worker env =>
    simp only [fetchTurn] at h
    split at h <;> cases h
  | reset => cases h

/-! ## Instructions that refuse in no state -/

section
variable {s : State} {r : Refusal}

theorem illegalWord_ne_refused (p : Port) : illegalWord p s ≠ .refused r := by
  obtain ⟨-, h⟩ | ⟨-, -, h⟩ | ⟨-, -, h⟩ := illegalWord_cases p s <;> simp [h]

theorem discard_ne_refused (v : Verdict) (d : Desc) (rest : List Desc) : discard v s d rest ≠ .refused r := by
  obtain ⟨-, h⟩ | ⟨-, h⟩ := discard_cases v s d rest <;> simp [h]

theorem acceptAs_ne_refused {c : PacketClass} {h : Header} {act : Desc → List Desc → Result}
    (hact : ∀ d rest, act d rest ≠ .refused r) : acceptAs c h s act ≠ .refused r := by
  obtain ⟨d, rest, -, -, -, -, -, ha⟩ | ha := acceptAs_cases c h s act
  · exact ha ▸ hact d rest
  · simp [ha]

theorem classInstr_ne_refused (c : PacketClass) (h : Header) : exec (classInstr c h) s ≠ .refused r := by
  cases c with
  | malformedIndex | malformedSize | stale | dupData | dupRed => exact acceptAs_ne_refused (discard_ne_refused _)
  | supersede => exact acceptAs_ne_refused fun d rest => by dsimp only; split <;> exact nofun
  | data | red => exact acceptAs_ne_refused fun d rest => nofun

theorem execAccept_ne_refused : execAccept s ≠ .refused r := by
  cases hf : s.fifo with
  | nil => simp [execAccept_empty hf]
  | cons d rest => exact execAccept_eq hf ▸ classInstr_ne_refused _ _

theorem execFHdrByte_ne_refused : execFHdrByte s ≠ .refused r := by
  unfold execFHdrByte
  split_ifs
  · exact nofun
  · split <;> exact nofun
  · exact nofun

theorem execFPayByte_ne_refused (pick : Nat) : execFPayByte pick s ≠ .refused r := by
  unfold execFPayByte
  split
  case isFalse => exact nofun
  case isTrue =>
    split
    case h_1 => exact nofun
    case h_2 =>
      split
      case h_1 => split_ifs <;> exact nofun
      case h_2 =>
        split
        case h_1 => exact nofun
        case h_2 => split_ifs <;> exact nofun

theorem execFFifoFail_ne_refused : execFFifoFail s ≠ .refused r := by
  unfold execFFifoFail
  split
  case isFalse => exact nofun
  case isTrue =>
    split
    case h_1 => exact nofun
    case h_2 => split <;> exact nofun

theorem execEmit_ne_refused : execEmit s ≠ .refused r := by
  unfold execEmit
  split
  · exact nofun
  · dsimp only
    split_ifs <;> exact nofun

theorem execAcq_ne_refused (pick : Nat) : execAcq pick s ≠ .refused r := by
  unfold execAcq
  split
  case isFalse => exact nofun
  case isTrue =>
    split
    case h_1 => exact nofun
    case h_2 => split <;> exact nofun

theorem exec_ne_refused {i : Instr} (hi : ∀ reply, i ≠ .decode reply) : exec i s ≠ .refused r := by
  cases i with
  | decode reply => exact absurd rfl (hi reply)
  | stop | status | reset => exact nofun
  | init => simp only [exec, execInit]; split_ifs <;> exact nofun
  | submit => simp only [exec, execSubmit]; split; exacts [nofun, by split <;> exact nofun]
  | reservedOp0 p | reservedOp5 p | reservedOp6 p | reservedOp7 p | reservedOp8 p | reservedOp9 p | reservedOp10 p
  | reservedOp11 p | reservedOp12 p | reservedOp13 p | reservedOp14 p | reservedOp15 p
  | illegalWrongPort p => exact illegalWord_ne_refused p
  | illegalSubmitReservedBits => exact illegalWord_ne_refused .data
  | illegalStopStatusBits => exact illegalWord_ne_refused .control
  | pktMalformedIndex hd => exact classInstr_ne_refused .malformedIndex hd
  | pktMalformedSize hd => exact classInstr_ne_refused .malformedSize hd
  | pktStale hd => exact classInstr_ne_refused .stale hd
  | pktSupersede hd => exact classInstr_ne_refused .supersede hd
  | pktDupData hd => exact classInstr_ne_refused .dupData hd
  | pktData hd => exact classInstr_ne_refused .data hd
  | pktDupRed hd => exact classInstr_ne_refused .dupRed hd
  | pktRed hd => exact classInstr_ne_refused .red hd
  | fHdrByte => exact execFHdrByte_ne_refused
  | fPayByte pick => exact execFPayByte_ne_refused pick
  | fPoolFail => simp only [exec, execFPoolFail]; split_ifs <;> exact nofun
  | fEnq => simp only [exec, execFEnq]; split; exacts [by split <;> exact nofun, nofun]
  | fFifoFail => exact execFFifoFail_ne_refused
  | submitDone => simp only [exec, execSubmitDone]; split_ifs <;> exact nofun
  | accept => exact execAccept_ne_refused
  | emit => exact execEmit_ne_refused
  | emitDone => simp only [exec, execEmitDone]; split_ifs <;> exact nofun
  | acq pick => exact execAcq_ne_refused pick
  | finish => simp only [exec, execFinish]; split; exacts [by split <;> exact nofun, nofun]
  | fatal c => simp only [exec, execFatal]; split_ifs <;> exact nofun

end

/-! ## A codec answer of another shape -/

theorem execDecode_refused {reply : CodecReply} {s : State} {r : Refusal} (h : execDecode reply s = .refused r) :
    r = .codecReplyShape ∧ s.run = .running ∧ s.wph = .decode
      ∧ ∃ b dst, reply = .ok dst ∧ buildShares s = .ok b ∧ ¬ replyFits b.dst.length s.cfgMtu.toNat dst = true := by
  unfold execDecode at h
  split at h
  case isFalse => cases h
  case isTrue hw =>
    obtain ⟨hr, hph⟩ := (workerIn_iff .decode s).1 hw
    split at h
    case h_1 => cases h
    case h_2 b hb =>
      split at h
      case isTrue => cases h
      case isFalse =>
        cases reply with
        | fail => cases h
        | ok dst =>
          dsimp only at h
          split at h
          case isTrue => cases h
          case isFalse hfit => cases h; exact ⟨rfl, hr, hph, b, dst, rfl, hb, hfit⟩

/-- The attached codec's answer has the shape of the request it answers (R86, log 6). -/
theorem codecAnswer_fits {s : State} {b : Shares} {dst : List (List Byte)} (hb : buildShares s = .ok b)
    (h : codecAnswer s = .ok dst) : replyFits b.dst.length s.cfgMtu.toNat dst = true := by
  simp only [codecAnswer, hb] at h
  exact codecReply_fits h

theorem framerStep_ne_decode (pick : Nat) (s : State) (reply : CodecReply) : framerStep pick s ≠ .decode reply := by
  unfold framerStep
  split <;> split_ifs <;> exact nofun

theorem workerStep_decode {env : WorkerEnv} {s : State} {reply : CodecReply}
    (h : workerStep env s = some (.decode reply)) : reply = env.reply.getD (codecAnswer s) := by
  cases hw : s.wph <;> simp only [workerStep, hw] at h
  case emit => split_ifs at h <;> cases h
  case decode => cases h; rfl
  all_goals cases h

/-- DECODE comes only from a worker's turn; a port decodes to instructions that have an encoding. -/
theorem fetchTurn_decode {t : Turn} {s : State} {reply : CodecReply} (h : fetchTurn t s = .run (.decode reply)) :
    ∃ env, t = .worker env ∧ reply = env.reply.getD (codecAnswer s) := by
  cases t with
  | ctrl w =>
    have he := encode_decodeControl w
    rw [Fetched.run.inj h] at he
    cases he
  | data w stream =>
    simp only [fetchTurn] at h
    split at h
    case isTrue => cases h
    case isFalse =>
      split at h
      case h_1 hd =>
        cases h
        obtain ⟨payload, -, he⟩ := encode_decodeData hd
        cases he
      case h_2 => cases h
  | framer pick => exact absurd (Fetched.run.inj h) (framerStep_ne_decode pick s reply)
  | worker env =>
    simp only [fetchTurn] at h
    split at h
    case h_1 hw => cases h; exact ⟨env, rfl, workerStep_decode hw⟩
    case h_2 => cases h
  | reset => cases h

/-- An answer of another shape that DECODE got was brought by the turn. -/
theorem reply_brought {env : WorkerEnv} {s : State} {b : Shares} {dst : List (List Byte)}
    (hb : buildShares s = .ok b) (hfit : ¬ replyFits b.dst.length s.cfgMtu.toNat dst = true)
    (h : .ok dst = env.reply.getD (codecAnswer s)) : env.reply = some (.ok dst) := by
  cases hr : env.reply with
  | none => exact absurd (codecAnswer_fits hb (by rw [h, hr]; rfl)) hfit
  | some reply => rw [h, hr]; rfl

/-- Settles O47: a refused step either has no instruction, on a short SUBMIT, or runs a DECODE, the one instruction that
refuses; taking the turn changes none of the elements the statement reads. -/
theorem refusalsAreNamed : Obligations.RefusalsAreNamed := by
  unfold Obligations.RefusalsAreNamed
  refine ⟨fun s w stream ts hs ha hop hb hlen => ?short, fun s r h => ?named⟩
  case short =>
    exact step_of_fetch_bad (nextTurn_cons hs) (fetchTurn_data_short ha (decodeData_short hop hb hlen))
  case named =>
    have hturn := nextTurn_state s
    obtain ⟨i, hf, he⟩ | ⟨-, he⟩ | ⟨hf, he⟩ := step_cases s <;> rw [he] at h
    · by_cases hi : ∃ reply, i = .decode reply
      · obtain ⟨reply, rfl⟩ := hi
        obtain ⟨rfl, hr, hph, b, dst, rfl, hb, hfit⟩ := execDecode_refused h
        obtain ⟨env, ht, hreply⟩ := fetchTurn_decode hf
        have hbrought := reply_brought hb hfit hreply
        rw [buildShares_nextTurn] at hb
        rw [hturn] at hr hph hfit
        exact .inr ⟨rfl, hr, hph, env, b, dst, ht, hbrought, hb, mt (replyFits_iff _ _ dst).2 hfit⟩
      · exact absurd h (exec_ne_refused (not_exists.1 hi))
    · cases h
    · cases h
      obtain ⟨ha, w, stream, ht, hd⟩ := fetchTurn_bad hf
      rw [hturn] at ha
      exact .inl ⟨rfl, ha, w, stream, ht, decodeData_error hd⟩

end Sys2Proof.Machine
end

section
/-! The commands of the host ports (R100 to R105): what INIT, STOP, STATUS and SUBMIT answer and write. -/

namespace Sys2Proof.Machine

/-! ## Answers as words (R81, R82) -/

/-- A response is CONSUMED over a half-word that the code alone decides (R81). -/
theorem resp32_eq_append (c : ResultCode) (consumed : BitVec 16) : resp32 c consumed = consumed ++ (0#8 ++ c.code) :=
  BitVec.append_assoc (x₁ := consumed) (x₂ := 0#8) (x₃ := c.code)

/-- Answering the active SUBMIT adds the answer and clears SUB_ACTIVE, nothing else (R108, R110, R111). -/
theorem completeSubmit_eq (c : ResultCode) (consumed : BitVec 16) (s : State) :
    completeSubmit c consumed s
      = { s with subActive := false, outs := s.outs ++ [.data (consumed ++ (0#8 ++ c.code))] } := by
  rw [← resp32_eq_append]
  rfl

/-! ## INIT -/

/-- ConfigValid as the bounds R101 lists. -/
theorem configValid_iff (mtuMax k n mtu : Nat) :
    configValid mtuMax k n mtu = true ↔ 1 ≤ k ∧ k < n ∧ n ≤ 32 ∧ 1 ≤ mtu ∧ mtu ≤ mtuMax := by
  simp only [configValid, Bool.and_eq_true, decide_eq_true_eq, and_assoc]
  rfl

theorem execInit_busy {s : State} (k n : BitVec 6) (mtu : BitVec 16) (hr : s.run ≠ .stopped) :
    execInit k n mtu s = .next (respondControl .errBusy s) :=
  if_pos hr

theorem execInit_invalid {k n : BitVec 6} {mtu : BitVec 16} {s : State} (hr : s.run = .stopped)
    (hv : ¬ configValid s.par.mtuMax k.toNat n.toNat mtu.toNat = true) :
    execInit k n mtu s = .next (respondControl .errConfig s) :=
  (if_neg (not_not.2 hr)).trans (if_pos (Bool.eq_false_of_not_eq_true hv))

theorem execInit_starts {k n : BitVec 6} {mtu : BitVec 16} {s : State} (hr : s.run = .stopped)
    (hv : configValid s.par.mtuMax k.toNat n.toNat mtu.toNat = true) :
    execInit k n mtu s = .next (respondControl .ok (startBlock k.toNat n.toNat mtu s)) :=
  (if_neg (not_not.2 hr)).trans (if_neg (by simp [hv]))

/-- Settles O10: the three branches of INIT; a valid K, N and Q_EFF fit the registers that take them. -/
theorem initCommand : Obligations.InitCommand := by
  unfold Obligations.InitCommand
  intro k n mtu s valid hvalid
  rw [← configValid_iff] at hvalid
  refine ⟨fun hr => ?busy, fun hr hv => ?invalid, fun hr hv => ?starts⟩
  case busy => exact execInit_busy k n mtu hr
  case invalid => exact execInit_invalid hr (mt hvalid.2 hv)
  case starts =>
    have hcfg := hvalid.1 hv
    obtain ⟨-, hkn, hn, -⟩ := (configValid_iff _ _ _ _).1 hcfg
    exact ⟨_, execInit_starts hr hcfg, Nat.mod_eq_of_lt (by omega), Nat.mod_eq_of_lt (by omega),
      Nat.mod_eq_of_lt (qEffOf_lt _ _ hn), mem_poolSlots _, poolSlots_rising _,
      fun i _ => dataAt_clearCollections s i, fun q _ => redAt_clearCollections s q, rfl⟩

/-! ## STOP -/

/-- `s` with STOP's answers on the ports: to the active SUBMIT, if there is one, and to STOP itself (R102). -/
def stopAnswered (s : State) : State :=
  { s with
    subActive := false
    outs := s.outs ++ ((if s.subActive = true then [.data (s.subPos ++ 0x0003#16)] else []) ++ [.ctrl 0x00000000]) }

/-- STOP answers and, unless STOPPED, tears down; a teardown leaves the answers alone (R102). -/
theorem execStop_eq (s : State) :
    execStop s = .next (if s.run = .stopped then stopAnswered s else teardown (stopAnswered s)) := by
  have hs1 : respondControl .ok (if s.subActive then completeSubmit .failStopped s.subPos s else s)
      = stopAnswered s := by
    rw [stopAnswer_eq, resp32_eq_append]
    simp only [respondControl, send, stopAnswered, List.append_assoc]
    rfl
  rw [execStop, ← hs1]
  split <;> rfl

/-- Settles O11: STOP's two answers, then the teardown's values where there is one. -/
theorem stopCommand : Obligations.StopCommand := by
  unfold Obligations.StopCommand
  rintro s answers rfl
  refine ⟨fun hr => ?stopped, fun hr => ?active⟩
  case stopped => exact (execStop_eq s).trans (by rw [if_pos hr]; rfl)
  case active =>
    exact ⟨teardown (stopAnswered s), (execStop_eq s).trans (by rw [if_neg hr]), mem_poolSlots _, poolSlots_rising _,
      fun i _ => dataAt_clearCollections s i, fun q _ => redAt_clearCollections s q, rfl⟩

/-! ## STATUS -/

/-- STATUS adds its two transactions and nothing else (R103). -/
theorem execStatus_eq (s : State) :
    execStatus s
      = .next { s with outs := s.outs ++ [.ctrl 0x00000000, .status (st0 s) (st1 s) (st2 s) (st3 s)] } := by
  rw [execStatus, respondControl, send, send, List.append_assoc]
  rfl

/-- The fields of ST0, from bit 0 up (R84). -/
theorem st0_fields (s : State) :
    field (st0 s) 0 2 = s.run.code ∧ field (st0 s) 2 2 = causeCode s.fatalCause ∧ field (st0 s) 4 3 = s.wph.code
      ∧ field (st0 s) 7 1 = 0 ∧ field (st0 s) 8 24 = s.cbi := by
  simp (disch := omega) only [field, st0, BitVec.extractLsb'_append_eq_of_add_le, BitVec.extractLsb'_append_eq_of_le,
    Nat.reduceSub, BitVec.extractLsb'_eq_self, BitVec.ofNat_eq_ofNat, and_self]

/-- The fields of ST1, from bit 0 up (R84); NEXT fits its five bits. -/
theorem st1_fields (s : State) :
    field (st1 s) 0 7 = BitVec.ofNat 7 s.free.length ∧ field (st1 s) 7 1 = 0
      ∧ field (st1 s) 8 6 = BitVec.ofNat 6 s.fifo.length ∧ field (st1 s) 14 2 = 0
      ∧ (field (st1 s) 16 5).toNat = s.next.val ∧ field (st1 s) 21 11 = 0 := by
  have hnext : (BitVec.ofNat 5 s.next.val).toNat = s.next.val := Nat.mod_eq_of_lt s.next.isLt
  simp (disch := omega) only [field, st1, BitVec.extractLsb'_append_eq_of_add_le, BitVec.extractLsb'_append_eq_of_le,
    Nat.reduceSub, BitVec.extractLsb'_eq_self, BitVec.ofNat_eq_ofNat, hnext, and_self]

/-- Bit i of ST2 is DATA[i]'s presence below CFG_K, which leaves bit 31 clear (R84). -/
theorem getLsbD_st2 (s : State) (i : Nat) :
    (st2 s).getLsbD i = (decide (i < s.cfgK.val) && (dataAt s i).present) := by
  rw [st2, getLsbD_bitmap _ _ _ (by decide), Bool.and_eq_right_iff_imp]
  intro hi
  have hk : i < s.cfgK.val := of_decide_eq_true (Bool.and_elim_left hi)
  exact decide_eq_true (Nat.lt_of_lt_of_le hk (Nat.lt_succ_iff.1 s.cfgK.isLt))

/-- Bit q of ST3 is RED[q]'s presence in the block (R84). -/
theorem getLsbD_st3 (s : State) {q : Nat} (hq : q < 32) :
    (st3 s).getLsbD q = (decide (s.cfgK.val ≤ q) && decide (q < s.cfgN.val) && (redAt s q).present) := by
  rw [st3, getLsbD_bitmap _ _ _ (by decide), decide_eq_true hq, Bool.true_and]

/-- Settles O12: the four words' fields, word by word. -/
theorem statusCommand : Obligations.StatusCommand := by
  unfold Obligations.StatusCommand
  intro s
  obtain ⟨hrun, hcause, hwph, hzero, hcbi⟩ := st0_fields s
  obtain ⟨hfree, hzero7, hfifo, hzero14, hnext, hzero21⟩ := st1_fields s
  exact ⟨st0 s, st1 s, st2 s, st3 s, execStatus_eq s, hrun, hcause, hwph, hzero, hcbi, hfree, hzero7, hfifo, hzero14,
    hnext, hzero21, fun i _ => getLsbD_st2 s i, fun q hq => getLsbD_st3 s hq⟩

/-! ## SUBMIT -/

section
variable {s : State} (blk : Bool) (len : BitVec 16) (bytes : List Byte) (ha : s.subActive = false)
include ha

theorem execSubmit_stopped (hr : s.run = .stopped) :
    execSubmit blk len bytes s = .next (respondData .failStopped 0#16 s) := by
  simp only [execSubmit, ha, hr, Bool.false_eq_true, if_false]

theorem execSubmit_fatal (hr : s.run = .fatal) :
    execSubmit blk len bytes s = .next (respondData .failFatal 0#16 s) := by
  simp only [execSubmit, ha, hr, Bool.false_eq_true, if_false]

theorem execSubmit_starts (hr : s.run = .running) :
    execSubmit blk len bytes s
      = .next { s with subActive := true, subBlk := blk, subLen := len, subPos := 0#16, subData := bytes } := by
  simp only [execSubmit, ha, hr, Bool.false_eq_true, if_false]

end

/-- Settles O13: a busy data port takes nothing; a free one answers as RUN says. -/
theorem submitCommand : Obligations.SubmitCommand := by
  unfold Obligations.SubmitCommand
  intro blk len bytes s
  exact ⟨fun ha => if_pos ha, execSubmit_stopped blk len bytes, execSubmit_fatal blk len bytes,
    execSubmit_starts blk len bytes⟩

end Sys2Proof.Machine
end

section
/-! The framer's steps (R106 to R111) and that a header byte does not see how the stream is cut (R113). -/

namespace Sys2Proof.Machine

/-! ## A SUBMIT that ends -/

/-- Settles O17: the guard holds, so the step is the answer FAIL_POOL_EMPTY at SUB_POS and no more. -/
theorem poolFailStep : Obligations.PoolFailStep := by
  unfold Obligations.PoolFailStep
  intro s hr ha hblk hpos hph hx hfree
  calc exec .fPoolFail s
      _ = .next (completeSubmit .failPoolEmpty s.subPos s) :=
        if_pos ⟨(framerOn_iff s).2 ⟨hr, ha⟩, hblk, hpos, hph, hx, hfree⟩
      _ = _ := by rw [completeSubmit_eq]; rfl

/-- Settles O20: the guard holds, so the step is the answer OK with LEN, whatever the framer holds. -/
theorem submitDoneStep : Obligations.SubmitDoneStep := by
  unfold Obligations.SubmitDoneStep
  intro s hr ha hpos hph
  calc exec .submitDone s
      _ = .next (completeSubmit .ok s.subLen s) := if_pos ⟨(framerOn_iff s).2 ⟨hr, ha⟩, hpos, hph⟩
      _ = _ := by rw [completeSubmit_eq]; rfl

/-! ## A completed packet -/

/-- Settles O18: room in the FIFO is the guard, and the framer's reset is the rest of the step. -/
theorem enqueueStep : Obligations.EnqueueStep := by
  unfold Obligations.EnqueueStep
  intro s x hr ha hph hx
  refine ⟨fun hlen => ?room, fun hlen => ?full⟩
  case room =>
    refine (if_pos ⟨(framerOn_iff s).2 ⟨hr, ha⟩, hph, hlen⟩).trans ?_
    rw [hx]
    rfl
  case full => exact if_neg fun hg => Nat.not_lt.2 hlen hg.2.2

/-- F_FIFO_FAIL whose slot is not free (R110). -/
theorem execFFifoFail_releases {s : State} {x : Slot} (hr : s.run = .running) (ha : s.subActive = true)
    (hblk : s.subBlk = false) (hph : s.frPhase = .enq) (hlen : s.fifo.length = s.qEff.val) (hx : s.frSlot = some x)
    (hm : x ∉ s.free) :
    execFFifoFail s
      = .next (completeSubmit .failFifoFull s.subPos (framerReset { s with free := insertSlot x s.free })) := by
  have hon := (framerOn_iff s).2 ⟨hr, ha⟩
  simp only [execFFifoFail, hon, hblk, hph, hlen, hx, release_of_not_mem hm, and_self, if_true]

/-- Settles O19: the Release completes, and what it adds to FREE is the packet's slot. -/
theorem fifoFailStep : Obligations.FifoFailStep := by
  unfold Obligations.FifoFailStep
  intro s x hr ha hblk hph hlen hx hm
  refine ⟨_, execFFifoFail_releases hr ha hblk hph hlen hx hm, fun y => ?_, ?_⟩
  · exact (mem_insertSlot x y s.free).trans or_comm
  · rw [completeSubmit_eq]
    rfl

/-! ## A header byte -/

/-- F_HDR_BYTE with its guard true and a byte there (R106). -/
theorem execFHdrByte_takes {s : State} {b : Byte} (hon : framerOn s = true) (hpos : s.subPos < s.subLen)
    (hph : s.frPhase = .hdr) (hc : s.frHcnt ≠ 6) (hb : submitByte s = some b) :
    execFHdrByte s = .next (takeHeaderByte b s) := by
  simp only [execFHdrByte, if_pos (And.intro hon (And.intro hpos hph)), if_neg hc, hb]

/-- F_HDR_BYTE outside RUNNING or with no SUBMIT (R106). -/
theorem execFHdrByte_off {s : State} (hon : ¬ framerOn s = true) : execFHdrByte s = .next s :=
  if_neg fun hg => hon hg.1

/-- Settles O15: `takeHeaderByte` parses where the count reaches six; neither counter wraps. -/
theorem headerByteStep : Obligations.HeaderByteStep := by
  unfold Obligations.HeaderByteStep
  rintro s b hdr hr ha hpos hph hc hb rfl
  have hne : s.frHcnt ≠ 6 := fun h => by simp [h] at hc
  refine ⟨takeHeaderByte b s, execFHdrByte_takes ((framerOn_iff s).2 ⟨hr, ha⟩) hpos hph hne hb, ?count, ?position,
    fun h => ?early, fun h => ?sixth⟩
  case count =>
    rw [takeHeaderByte_frHcnt]
    exact Nat.mod_eq_of_lt (by omega)
  case position =>
    rw [takeHeaderByte_subPos]
    exact toNat_succ_of_lt hpos
  case early =>
    rw [takeHeaderByte_frHcnt, takeHeaderByte_subPos]
    exact if_neg (by omega)
  case sixth =>
    rw [takeHeaderByte_frHcnt, takeHeaderByte_subPos]
    exact if_pos (by omega)

/-- What a header byte writes beside SUB_POS does not read the SUBMIT registers (R113). -/
theorem takeHeaderByte_otherSubmit (b : Byte) (s : State) (blk : Bool) (len pos : BitVec 16) (bytes : List Byte) :
    takeHeaderByte b { s with subBlk := blk, subLen := len, subPos := pos, subData := bytes }
      = { takeHeaderByte b s with subBlk := blk, subLen := len, subPos := pos + 1, subData := bytes } := by
  simp only [takeHeaderByte]
  split <;> rfl

/-- Settles O21: both states take the same byte or, outside RUNNING, both hold; what `s` completes `u` does too. -/
theorem headerByteIgnoresSplit : Obligations.HeaderByteIgnoresSplit := by
  unfold Obligations.HeaderByteIgnoresSplit
  intro s u t hu ha hpos hposu hb h hph
  obtain ⟨blk, len, pos, bytes, rfl⟩ :
      ∃ blk len pos bytes, u = { s with subBlk := blk, subLen := len, subPos := pos, subData := bytes } :=
    ⟨_, _, _, _, hu⟩
  by_cases hon : framerOn s = true
  case neg =>
    cases (execFHdrByte_off hon).symm.trans h
    exact ⟨_, execFHdrByte_off hon, rfl⟩
  case pos =>
    have hc : s.frHcnt ≠ 6 := fun hc => by
      cases (execFHdrByte_headerFull hon hpos hph hc).symm.trans h
    cases hs : submitByte s with
    | none => cases (execFHdrByte_byteMissing hon hpos hph hc hs).symm.trans h
    | some b =>
      cases (execFHdrByte_takes hon hpos hph hc hs).symm.trans h
      exact ⟨_, execFHdrByte_takes hon hposu hph hc (hb.symm.trans hs), by rw [takeHeaderByte_otherSubmit]⟩

/-! ## A payload byte -/

/-- F_PAY_BYTE into the slot the framer holds (R107). -/
theorem execFPayByte_held {s : State} (pick : Nat) {b : Byte} {x : Slot} (hon : framerOn s = true)
    (hpos : s.subPos < s.subLen) (hph : s.frPhase = .pay) (hb : submitByte s = some b) (hx : s.frSlot = some x)
    (hin : inRange s x s.frPcnt.toNat 1 = true) : execFPayByte pick s = .next (takePayloadByte b x s) := by
  simp only [execFPayByte, if_pos (And.intro hon (And.intro hpos hph)), hb, hx, if_pos hin]

/-- F_PAY_BYTE into a slot it acquires (R107, R54). -/
theorem execFPayByte_acquires {s : State} {pick : Nat} {b : Byte} {x : Slot} {free : List Slot}
    (hon : framerOn s = true) (hpos : s.subPos < s.subLen) (hph : s.frPhase = .pay) (hb : submitByte s = some b)
    (hx : s.frSlot = none) (hacq : acquire pick s.free = some (x, free))
    (hin : inRange s x s.frPcnt.toNat 1 = true) :
    execFPayByte pick s = .next (takePayloadByte b x { s with free := free }) := by
  simp only [execFPayByte, if_pos (And.intro hon (And.intro hpos hph)), hb, hx, hacq, if_pos hin]

/-- F_PAY_BYTE with no slot held and none free (R107, R54). -/
theorem execFPayByte_waits {s : State} (pick : Nat) {b : Byte} (hon : framerOn s = true)
    (hpos : s.subPos < s.subLen) (hph : s.frPhase = .pay) (hb : submitByte s = some b) (hx : s.frSlot = none)
    (hfree : s.free = []) : execFPayByte pick s = .next s := by
  have hacq := (acquire_eq_none_iff pick s.free).2 hfree
  simp only [execFPayByte, if_pos (And.intro hon (And.intro hpos hph)), hb, hx, hacq, hold_eq]

/-- F_PAY_BYTE's one write: FR_PCNT's byte of its slot (R107). -/
theorem byteAt_takePayloadByte (s : State) (b : Byte) (x y : Slot) {o : Nat} (ho : o < 65536) :
    byteAt (takePayloadByte b x s) y o = if y = x ∧ o = s.frPcnt.toNat then b else byteAt s y o := by
  calc byteAt (takePayloadByte b x s) y o
      _ = byteAt (memWrite s x s.frPcnt.toNat [b]) y o := rfl
      _ = _ := byteAt_memWrite s x y _ o [b] s.frPcnt.isLt ho
      _ = _ := by
        by_cases h : y = x ∧ o = s.frPcnt.toNat
        · obtain ⟨rfl, rfl⟩ := h
          simp
        · rw [if_neg h, dif_neg fun hin => h ⟨hin.1, Nat.le_antisymm (Nat.lt_succ_iff.1 hin.2.2) hin.2.1⟩]

/-- The payload is complete where FR_PCNT reaches CFG_MTU, which it cannot pass (R107). -/
theorem takePayloadByte_frPhase_of_lt {s : State} (b : Byte) (x : Slot) (hph : s.frPhase = .pay)
    (hlt : s.frPcnt < s.cfgMtu) :
    (takePayloadByte b x s).frPhase = if s.frPcnt.toNat + 1 = s.cfgMtu.toNat then .enq else .pay := by
  simp only [takePayloadByte_frPhase, hph, BitVec.toNat_inj.symm, toNat_succ_of_lt hlt]

/-- F_PAY_BYTE with a slot in hand or one to acquire (R107): the slot it uses, and FREE after it. -/
theorem execFPayByte_stores {s : State} (pick : Nat) {b : Byte} (hon : framerOn s = true)
    (hpos : s.subPos < s.subLen) (hph : s.frPhase = .pay) (hb : submitByte s = some b) (hlt : s.frPcnt < s.cfgMtu)
    (hslot : (∃ x, s.frSlot = some x ∧ x.val < 2 * s.cfgN.val) ∨
      (s.frSlot = none ∧ s.free ≠ [] ∧ ∀ x ∈ s.free, x.val < 2 * s.cfgN.val)) :
    ∃ x free, execFPayByte pick s = .next (takePayloadByte b x { s with free := free })
      ∧ (s.frSlot = some x ∧ free = s.free ∨ s.frSlot = none ∧ x ∈ s.free ∧ free = s.free.erase x) := by
  obtain ⟨x, hx, hxn⟩ | ⟨hx, hne, hall⟩ := hslot
  · exact ⟨x, s.free, execFPayByte_held pick hon hpos hph hb hx ((inRange_byte_iff s x _).2 ⟨hlt, hxn⟩),
      .inl ⟨hx, rfl⟩⟩
  · obtain ⟨⟨x, free⟩, hacq⟩ := Option.ne_none_iff_exists'.1 (mt (acquire_eq_none_iff pick s.free).1 hne)
    obtain ⟨hmem, herase⟩ := acquire_some hacq
    have hin := (inRange_byte_iff s x _).2 ⟨hlt, hall x hmem⟩
    exact ⟨x, free, execFPayByte_acquires hon hpos hph hb hx hacq hin, .inr ⟨hx, hmem, herase⟩⟩

/-- Settles O16: held or acquired, the slot is in hand before the byte is stored, so one description serves both. -/
theorem payloadByteStep : Obligations.PayloadByteStep := by
  unfold Obligations.PayloadByteStep
  intro s pick b hr ha hpos hph hb hlt
  have hon := (framerOn_iff s).2 ⟨hr, ha⟩
  refine ⟨fun hx hfree => execFPayByte_waits pick hon hpos hph hb hx hfree, fun hslot => ?stores⟩
  obtain ⟨x, free, hexec, hfree⟩ := execFPayByte_stores pick hon hpos hph hb hlt hslot
  exact ⟨_, x, hexec, hfree, toNat_succ_of_lt hlt, toNat_succ_of_lt hpos, takePayloadByte_frPhase_of_lt b x hph hlt,
    fun y o ho => byteAt_takePayloadByte _ b x y ho, rfl⟩

end Sys2Proof.Machine
end

section
/-! ACCEPT and its classes (R130 to R143): what is discarded, what an insert decides, and what a superseding packet purges. -/

namespace Sys2Proof.Machine

/-! ## ACCEPT is the row of the head's class -/

/-- Settles O22: ACCEPT reads the head's class and no more (R130, log 14). -/
theorem acceptIsItsClassRow : Obligations.AcceptIsItsClassRow := by
  unfold Obligations.AcceptIsItsClassRow
  exact fun s => ⟨fun hf => execAccept_empty hf, fun d rest hf => execAccept_eq hf⟩

section
variable {s : State} {d : Desc} {rest : List Desc}

theorem exec_accept_of_packetClass {c : PacketClass} (hf : s.fifo = d :: rest) (hc : packetClass s d.hdr = c) :
    exec .accept s = exec (classInstr c d.hdr) s :=
  hc ▸ execAccept_eq hf

/-- Discard of a slot that is not free (R130). -/
theorem discard_releases (v : Verdict) (hm : d.slot ∉ s.free) :
    discard v s d rest = .next (label v { s with fifo := rest, free := insertSlot d.slot s.free }) := by
  rw [discard, release_of_not_mem hm]

end

/-- Settles O23: each of the five rows is its class's discard, whose Release completes. -/
theorem discardedPackets : Obligations.DiscardedPackets := by
  unfold Obligations.DiscardedPackets
  intro s d rest i v hrun hwph hf hm hd
  obtain ⟨c, hc, rfl, hexec⟩ := class_of_discardRow hd
  have hrow : exec (classInstr c d.hdr) s
      = .next (label v { s with fifo := rest, free := insertSlot d.slot s.free }) :=
    calc exec (classInstr c d.hdr) s
        _ = acceptAs c d.hdr s (discard v s) := hexec
        _ = discard v s d rest := acceptAs_run hf hrun hwph rfl hc
        _ = _ := discard_releases v hm
  exact ⟨_, hrow, (exec_accept_of_packetClass hf hc).trans hrow,
    fun y => (mem_insertSlot d.slot y s.free).trans or_comm, rfl⟩

/-! ## What AfterInsert decides (R141) -/

/-- The first gap, where there is one, is an absent entry (R141). -/
theorem absent_of_firstGap_lt {s : State} (h : firstGap s < s.cfgK.val) : (dataAt s (firstGap s)).present = false := by
  unfold firstGap at h ⊢
  cases hm : firstMissing s with
  | none => simp [hm] at h
  | some j => exact ((firstMissing_spec s j).1 hm).2.1

/-- KIND is DIRECT exactly where no data share is missing (R141). -/
theorem kindOf_counts (s : State) :
    kindOf s.cfgK.val (dataCount s) (redCount s)
      = if ∀ i, i < s.cfgK.val → (dataAt s i).present = true then .direct
        else if s.cfgK.val ≤ ((List.range s.cfgK.val).filter fun i => (dataAt s i).present).length + (redPresent s).length
        then .recon else .none := by
  rw [kindOf, if_congr (dataCount_eq_cfgK_iff s) rfl rfl, dataCount, List.countP_eq_length_filter, redCount]

theorem decided_afterInsert (s : State) : Decided (afterInsert s) := by
  unfold Decided
  rw [limit_val_afterInsert]
  exact ⟨rfl, fun i hi => present_of_lt_firstGap hi, firstGap_le s, fun h => absent_of_firstGap_lt h, kindOf_counts s⟩

/-! ## The inserts (R138, R139) -/

theorem dataAt_insertData {d : Desc} (s : State) (hpi : d.hdr.pi.toNat < 31) (i : Nat) :
    dataAt (insertData d s) i
      = if i = d.hdr.pi.toNat then ⟨true, d.slot, d.hdr.ps, false, false⟩ else dataAt s i :=
  dataAt_setData s d.hdr.pi.toNat i _ hpi

theorem redAt_insertRed {d : Desc} (s : State) (hpi : d.hdr.pi.toNat < 32) (q : Nat) :
    redAt (insertRed d s) q = if q = d.hdr.pi.toNat then ⟨true, d.slot⟩ else redAt s q :=
  redAt_setRed s d.hdr.pi.toNat q _ hpi

/-- A well-sized data packet of the current block whose entry is absent (R74, R138). -/
theorem packetClass_eq_data {s : State} {h : Header} (hn : h.pi.toNat < s.cfgN.val) (hk : h.pi.toNat < s.cfgK.val)
    (hsize : h.ps ≤ s.cfgMtu) (hbi : h.bi = s.cbi) (hp : (dataAt s h.pi.toNat).present = false) :
    packetClass s h = .data := by
  simp [packetClass, classify, Nat.not_le.2 hn, hsize, hbi, hk, hp]

/-- A redundancy packet of the current block whose entry is absent, of any size (R74, R139). -/
theorem packetClass_eq_red {s : State} {h : Header} (hn : h.pi.toNat < s.cfgN.val) (hk : s.cfgK.val ≤ h.pi.toNat)
    (hbi : h.bi = s.cbi) (hp : (redAt s h.pi.toNat).present = false) : packetClass s h = .red := by
  simp [packetClass, classify, Nat.not_le.2 hn, Nat.not_lt.2 hk, hbi, hp]

/-- Settles O25: the class is DATA, so the row inserts the share, and AfterInsert decides on the result. -/
theorem dataShareInserted : Obligations.DataShareInserted := by
  unfold Obligations.DataShareInserted
  intro s d rest hrun hwph hf hkn hk hsize hbi hp
  have hc : packetClass s d.hdr = .data := packetClass_eq_data (hk.trans_le hkn) hk hsize hbi hp
  have hrow : exec (.pktData d.hdr) s = .next (afterInsert (insertData d { s with fifo := rest })) :=
    acceptAs_run hf hrun hwph rfl hc
  exact ⟨_, hrow, (exec_accept_of_packetClass hf hc).trans hrow, decided_afterInsert _,
    fun i _ => dataAt_insertData _ (by omega) i, rfl⟩

/-- Settles O26: as for a data share; the size takes no part in the class of a redundancy index. -/
theorem redundancyShareInserted : Obligations.RedundancyShareInserted := by
  unfold Obligations.RedundancyShareInserted
  intro s d rest hrun hwph hf hk hn hbi hp
  have hc : packetClass s d.hdr = .red := packetClass_eq_red hn hk hbi hp
  have hrow : exec (.pktRed d.hdr) s = .next (afterInsert (insertRed d { s with fifo := rest })) :=
    acceptAs_run hf hrun hwph rfl hc
  exact ⟨_, hrow, (exec_accept_of_packetClass hf hc).trans hrow, decided_afterInsert _,
    fun q _ => redAt_insertRed _ (by omega) q, rfl⟩

/-- In the IDLE phase everything up to the first gap has been dispatched (R171). -/
theorem phaseInv_idle_limit {s : State} (hw : s.wph = .idle) (h : PhaseInv s) : s.limit.val = firstGap s := by
  simp only [PhaseInv, hw] at h
  obtain ⟨_, _, _, _, hlimit, _⟩ := h
  exact hlimit

/-- Settles O27: the first gap is DATA's, which a redundancy insert does not write. -/
theorem redundancyInsertKeepsLimit : Obligations.RedundancyInsertKeepsLimit := by
  unfold Obligations.RedundancyInsertKeepsLimit
  intro s t h hinv hexec
  obtain rfl | ⟨d, rest, _, _, hwph, _, _, hact⟩ := acceptAs_next hexec
  · exact ⟨rfl, rfl⟩
  · cases eq_of_next hact
    refine ⟨Fin.ext ?_, rfl⟩
    calc (afterInsert (insertRed d { s with fifo := rest })).limit.val
        _ = firstGap (insertRed d { s with fifo := rest }) := limit_val_afterInsert _
        _ = firstGap s := rfl
        _ = s.limit.val := (phaseInv_idle_limit hwph hinv.phase).symm

/-! ## A superseding packet (R136) -/

/-- The packet goes into the collection its index belongs to (R136). -/
def insertShare (d : Desc) (s : State) : State :=
  if d.hdr.pi.toNat < s.cfgK.val then insertData d s else insertRed d s

section
variable (d : Desc) (s : State)

theorem dataAt_insertShare (i : Nat) :
    dataAt (insertShare d s) i
      = if d.hdr.pi.toNat < s.cfgK.val ∧ i = d.hdr.pi.toNat then ⟨true, d.slot, d.hdr.ps, false, false⟩
        else dataAt s i := by
  unfold insertShare
  split
  case isTrue hk => simp only [dataAt_insertData s (show d.hdr.pi.toNat < 31 by omega), hk, true_and]
  case isFalse hk => rw [if_neg fun hi => hk hi.1]; rfl

theorem redAt_insertShare (hn : d.hdr.pi.toNat < s.cfgN.val) (q : Nat) :
    redAt (insertShare d s) q
      = if s.cfgK.val ≤ d.hdr.pi.toNat ∧ q = d.hdr.pi.toNat then ⟨true, d.slot⟩ else redAt s q := by
  unfold insertShare
  split
  case isTrue hk => rw [if_neg fun hq => Nat.not_lt.2 hq.1 hk]; rfl
  case isFalse hk =>
    simp only [redAt_insertRed s (show d.hdr.pi.toNat < 32 by omega), Nat.le_of_not_lt hk, true_and]

/-- An insert writes the collections and the trace label only. -/
theorem insertShare_frame :
    insertShare d s = { s with
      data := (insertShare d s).data, red := (insertShare d s).red, verdicts := s.verdicts ++ [.inserted] } := by
  unfold insertShare
  split <;> rfl

end

section
variable (bi : BitVec 24) (rest : List Desc) (free : List Slot) (s : State)

theorem dataAt_superseded (i : Nat) :
    dataAt (superseded bi rest free s) i = if i < s.cfgK.val then (dataAt s i).cleared else dataAt s i :=
  dataAt_clearBlock s i

theorem redAt_superseded (q : Nat) :
    redAt (superseded bi rest free s) q
      = if s.cfgK.val ≤ q ∧ q < s.cfgN.val then (redAt s q).cleared else redAt s q :=
  redAt_clearBlock s q

end

/-- What Purge releases (R135). -/
theorem mem_heldSlots {s : State} {x : Slot} :
    x ∈ heldSlots s ↔
      (∃ i, i < s.cfgK.val ∧ (dataAt s i).present = true ∧ (dataAt s i).slot = x)
        ∨ ∃ q, s.cfgK.val ≤ q ∧ q < s.cfgN.val ∧ (redAt s q).present = true ∧ (redAt s q).slot = x := by
  simp [heldSlots_eq, mem_slotsOf, and_assoc, and_left_comm]

/-- PKT_SUPERSEDE whose Purge completes: the packet is the first share of its own block (R136). -/
theorem execPktSupersede_purges {s : State} {d : Desc} {rest : List Desc} {free : List Slot}
    (hrun : s.run = .running) (hwph : s.wph = .idle) (hf : s.fifo = d :: rest)
    (hc : packetClass s d.hdr = .supersede) (hrel : releaseAll (heldSlots s) s.free = .ok free) :
    execPktSupersede d.hdr s = .next (afterInsert (insertShare d (superseded d.hdr.bi rest free s))) := by
  rw [execPktSupersede, acceptAs_run hf hrun hwph rfl hc]
  simp only [hrel]
  rfl

/-- Settles O28: the Releases complete, the packet is inserted into the purged block, and AfterInsert decides. -/
theorem supersedingPacket : Obligations.SupersedingPacket := by
  unfold Obligations.SupersedingPacket
  intro s d rest hrun hwph hf hn _ hsize hbi hnodup hheld
  have hc : packetClass s d.hdr = .supersede := packetClass_eq_supersede hn hsize hbi
  obtain ⟨free, hrel⟩ := releaseAll_completes hnodup hheld
  have hrow := execPktSupersede_purges hrun hwph hf hc hrel
  refine ⟨_, hrow, (exec_accept_of_packetClass hf hc).trans hrow, decided_afterInsert _, fun x => ?pool,
    fun i _ => ?data, fun q _ => ?red, ?frame⟩
  case pool =>
    rw [← mem_heldSlots, ← releaseAll_ok hrel, afterInsert_free, insertShare_frame]
    rfl
  case data =>
    refine (dataAt_insertShare d (superseded d.hdr.bi rest free s) i).trans ?_
    rw [dataAt_superseded]
    by_cases hi : s.cfgK.val ≤ i
    · rw [if_pos hi, if_neg (Nat.not_lt.2 hi)]
      exact if_neg (by rintro ⟨hk, rfl⟩; exact Nat.not_lt.2 hi hk)
    · rw [if_neg hi, if_pos (Nat.lt_of_not_le hi)]
      exact if_congr (and_iff_right_of_imp fun h => h ▸ Nat.lt_of_not_le hi) rfl rfl
  case red =>
    refine (redAt_insertShare d (superseded d.hdr.bi rest free s) hn q).trans ?_
    rw [redAt_superseded]
    by_cases hq : s.cfgK.val ≤ q ∧ q < s.cfgN.val
    · rw [if_neg (by omega : ¬ (q < s.cfgK.val ∨ s.cfgN.val ≤ q)), if_pos hq]
      exact if_congr (and_iff_right_of_imp fun h => h ▸ hq.1) rfl rfl
    · rw [if_pos (by omega : q < s.cfgK.val ∨ s.cfgN.val ≤ q), if_neg hq]
      exact if_neg (by rintro ⟨hk, rfl⟩; exact hq ⟨hk, hn⟩)
  case frame =>
    rw [insertShare_frame]
    rfl

end Sys2Proof.Machine
end

section
/-! The worker's registers (R39, R141, R156, R171): what each phase says of the accumulator is kept by every step. -/

namespace Sys2Proof.Machine

/-! ## The counts of an accumulator -/

/-- `t` has the block size of `s`, and the same entries present and rebuilt. -/
def SharesKept (s t : State) : Prop :=
  t.cfgK = s.cfgK ∧ t.cfgN = s.cfgN
    ∧ (∀ i, (dataAt t i).present = (dataAt s i).present ∧ (dataAt t i).recon = (dataAt s i).recon)
    ∧ ∀ q, (redAt t q).present = (redAt s q).present

theorem sharesKept_of_collections {s t : State} (hk : t.cfgK = s.cfgK) (hn : t.cfgN = s.cfgN) (hd : t.data = s.data)
    (hr : t.red = s.red) : SharesKept s t :=
  ⟨hk, hn, fun i => by simp only [dataAt, hd, and_self], fun q => by simp only [redAt, hr]⟩

theorem counts_congr {s t : State} (h : SharesKept s t) :
    firstGap t = firstGap s ∧ dataCount t = dataCount s ∧ redCount t = redCount s
      ∧ receivedCount t = receivedCount s ∧ (NoneRebuilt t ↔ NoneRebuilt s) := by
  obtain ⟨hk, hn, hd, hr⟩ := h
  have hp := fun i => (hd i).1
  have hrec := fun i => (hd i).2
  simp only [firstGap, firstMissing, dataCount, redCount, redPresent, receivedCount, NoneRebuilt, hk, hn, hp, hrec, hr,
    and_self]

/-- One more entry counts one more. -/
theorem countP_range_insert {n j : Nat} {p p' : Nat → Bool} (hj : j < n) (hp : p j = false) (hp' : p' j = true)
    (h : ∀ i, i ≠ j → p' i = p i) : (List.range n).countP p' = (List.range n).countP p + 1 := by
  have hperm := slotsOf_insert (slot := fun _ => 0) (slot' := fun _ => 0) hj hp hp' fun i hi => ⟨h i hi, rfl⟩
  simpa [slotsOf, List.countP_eq_length_filter] using hperm.length_eq

section
variable {s : State} {j : Nat} (hk : j < s.cfgK.val) (ha : (dataAt s j).present = false) {e : DataEntry}
include hk ha

theorem dataCount_setData (he : e.present = true) : dataCount (setData s j e) = dataCount s + 1 := by
  have hat := fun i => dataAt_setData s j i e (by omega)
  exact countP_range_insert hk ha (by simp only [hat, if_pos, he]) fun i hi => by simp only [hat, if_neg hi]

/-- A destination is no received share (R157). -/
theorem receivedCount_setData_rebuilt (he : e.recon = true) : receivedCount (setData s j e) = receivedCount s := by
  have hat := fun i => dataAt_setData s j i e (by omega)
  refine List.countP_congr fun i _ => ?_
  by_cases hi : i = j <;> simp [hat, hi, he, ha]

omit ha in
theorem unusedAbsent_setData (h : UnusedAbsent s) : UnusedAbsent (setData s j e) := by
  obtain ⟨hd, hr⟩ := h
  refine ⟨fun i hi => ?_, hr⟩
  rw [dataAt_setData s j i e (by omega), if_neg fun hij => by simp at hi; omega]
  exact hd i hi

end

section
variable {s : State} {j : Nat} (hk : s.cfgK.val ≤ j) (hn : j < s.cfgN.val) {e : RedEntry}
include hk hn

theorem redCount_setRed (ha : (redAt s j).present = false) (he : e.present = true) :
    redCount (setRed s j e) = redCount s + 1 := by
  have hat := fun q => redAt_setRed s j q e (by omega)
  simp only [redCount, redPresent, ← List.countP_eq_length_filter]
  exact countP_range_insert hn (by simp [ha]) (by simp [hat, hk, he]) fun q hq => by
    simp only [hat, if_neg hq]
    rfl

theorem unusedAbsent_setRed (h : UnusedAbsent s) : UnusedAbsent (setRed s j e) := by
  obtain ⟨hd, hr⟩ := h
  refine ⟨hd, fun q hq => ?_⟩
  rw [redAt_setRed s j q e (by omega), if_neg fun hqj => by simp at hq; omega]
  exact hr q hq

end

/-- Where every present share was received, the received ones are the present ones. -/
theorem receivedCount_of_noneRebuilt {s : State} (h : NoneRebuilt s) : receivedCount s = dataCount s :=
  List.countP_congr fun i hi => by
    have hi31 : i < 31 := by have := List.mem_range.1 hi; omega
    simpa using h ⟨i, hi31⟩

theorem dataCount_le (s : State) : dataCount s ≤ s.cfgK.val := by
  simpa [dataCount] using List.countP_le_length (p := fun i => (dataAt s i).present) (l := List.range s.cfgK.val)

/-- What is dispatched is present, so NEXT has not passed the first gap (R30, R141). -/
theorem next_le_firstGap {s : State} (h : DispatchInv s) (hn : s.next ≤ s.cfgK) : s.next.val ≤ firstGap s := by
  unfold firstGap
  cases hm : firstMissing s with
  | none => exact hn
  | some j =>
    obtain ⟨hj, ha, -⟩ := (firstMissing_spec s j).1 hm
    exact next_le_of_absent hj ha h

/-! ## A phase reads the registers it speaks of -/

theorem configLatched_congr {s t : State} (hk : ConfigKept s t) (h : ConfigLatched s) : ConfigLatched t := by
  obtain ⟨hpar, hcfgK, hcfgN, hmtu, hq, hrun⟩ := hk
  exact fun hr => by simpa only [hpar, hcfgK, hcfgN, hmtu, hq] using h (hrun hr)

/-- While EMIT dispatches, NEXT may move. -/
theorem phaseInv_congr {s t : State} (hs : SharesKept s t) (hrun : t.run = s.run) (hw : t.wph = s.wph)
    (hkind : t.kind = s.kind) (hdec : t.decoded = s.decoded) (hlimit : t.limit = s.limit)
    (hnext : s.wph = .emit ∨ t.next = s.next) (h : PhaseInv s) : PhaseInv t := by
  obtain ⟨hgap, hdata, hred, hrecv, hnone⟩ := counts_congr hs
  have hk : t.cfgK = s.cfgK := hs.1
  obtain hemit | hnext := hnext
  · simp only [PhaseInv, hw, hemit, hkind, hdec, hlimit, hgap, hdata, hred, hrecv, hnone, hk] at h ⊢
    exact h
  · simpa only [PhaseInv, hw, hrun, hkind, hdec, hlimit, hnext, hgap, hdata, hred, hrecv, hnone, hk] using h

/-- `t` has the configuration and the accumulator of `s`. -/
def AccumulatorKept (s t : State) : Prop :=
  ConfigKept s t ∧ t.data = s.data ∧ t.red = s.red ∧ t.next = s.next ∧ t.limit = s.limit

/-- A change of phase has to keep only what the phase says. -/
theorem workerInv_of_phase {s t : State} (hk : AccumulatorKept s t) (hhalted : t.wph = .halted ↔ t.run = .fatal)
    (hstopped : t.run = .stopped → t.wph = .idle) (hphase : PhaseInv t) (h : WorkerInv s) : WorkerInv t := by
  obtain ⟨hcfg, hd, hr, hnext, hlimit⟩ := hk
  have ⟨_, hcfgK, hcfgN, hmtu, _⟩ := hcfg
  have hdata : ∀ i, dataAt t i = dataAt s i := fun i => by simp only [dataAt, hd]
  have hred : ∀ q, redAt t q = redAt s q := fun q => by simp only [redAt, hr]
  exact
    { config := configLatched_congr hcfg h.config
      unused := unusedAbsent_congr hcfgK hcfgN (fun i => by rw [hdata]) (fun q => by rw [hred]) h.unused
      dispatch := dispatchInv_congr hcfgK hd hnext h.dispatch
      bounds := by simpa only [hnext, hlimit, hcfgK] using h.bounds
      sizes := by simpa only [hdata, hmtu] using h.sizes
      halted := hhalted
      stopped := hstopped
      phase := hphase }

/-- `t` has every register WorkerInv speaks of as `s` has it. -/
def WorkerKept (s t : State) : Prop :=
  AccumulatorKept s t ∧ t.run = s.run ∧ t.wph = s.wph ∧ t.kind = s.kind ∧ t.decoded = s.decoded

theorem workerInv_congr {s t : State} (h : WorkerInv s) (hk : WorkerKept s t) : WorkerInv t := by
  obtain ⟨hacc, hrun, hw, hkind, hdec⟩ := hk
  have ⟨⟨_, hcfgK, hcfgN, _⟩, hd, hr, hnext, hlimit⟩ := hacc
  exact workerInv_of_phase hacc (by simpa only [hw, hrun] using h.halted) (by simpa only [hw, hrun] using h.stopped)
    (phaseInv_congr (sharesKept_of_collections hcfgK hcfgN hd hr) hrun hw hkind hdec hlimit (.inr hnext) h.phase) h

theorem workerInv_popped {s : State} (rest : List Desc) (h : WorkerInv s) : WorkerInv { s with fifo := rest } :=
  workerInv_congr h (by simp [WorkerKept, AccumulatorKept, ConfigKept])

/-- FATAL asks nothing of the accumulator (R186). -/
theorem workerInv_fatal {s t : State} (hk : AccumulatorKept s t) (hr : t.run = .fatal) (hw : t.wph = .halted)
    (h : WorkerInv s) : WorkerInv t :=
  workerInv_of_phase hk (by simp [hr, hw]) (by simp [hr]) (by simp only [PhaseInv, hw, hr]) h

/-! ## An empty accumulator -/

/-- The worker as INIT, STOP, RESET, Purge and FINISH leave it. -/
structure Cleared (s : State) : Prop where
  wph : s.wph = .idle
  kind : s.kind = .none
  decoded : s.decoded = false
  next : s.next = 0
  limit : s.limit = 0
  data : ∀ i, i < 31 → (dataAt s i).present = false
  red : ∀ q, q < 32 → (redAt s q).present = false

theorem firstGap_eq_zero {s : State} (h : (dataAt s 0).present = false) : firstGap s = 0 := by
  by_contra hne
  exact Bool.false_ne_true (h.symm.trans (present_of_lt_firstGap (Nat.pos_of_ne_zero hne)))

theorem counts_eq_zero {s : State} (h : Cleared s) : dataCount s = 0 ∧ redCount s = 0 := by
  constructor
  · simpa [dataCount] using fun i hi => h.data i (by omega)
  · simpa [redCount, redPresent] using fun q hq _ => h.red q (by omega)

/-- In an empty block the worker collects (R39); a valid CFG_K is at least one. -/
theorem workerInv_of_cleared {s : State} (h : Cleared s) (hcfg : ConfigLatched s) (hdisp : DispatchInv s)
    (hr : s.run ≠ .fatal) : WorkerInv s := by
  obtain ⟨hdata, hred⟩ := counts_eq_zero h
  have hk : s.run ≠ .stopped → 1 ≤ s.cfgK.val := fun hne => ((configValid_iff _ _ _ _).1 (hcfg hne).1).1
  have hphase : PhaseInv s := by
    have hgap := firstGap_eq_zero (h.data 0 (by decide))
    simp only [PhaseInv, h.wph, h.kind, h.decoded, h.next, h.limit, hdata, hred, hgap]
    exact ⟨trivial, trivial, fun i hp => by simp [h.data i i.isLt] at hp, trivial, rfl, hk⟩
  exact
    { config := hcfg
      unused := ⟨fun i _ => h.data i i.isLt, fun q _ => h.red q q.isLt⟩
      dispatch := hdisp
      bounds := by rw [h.next, h.limit]; exact ⟨le_rfl, Fin.zero_le _⟩
      sizes := fun i hp => by simp [h.data i i.isLt] at hp
      halted := by simp [h.wph, hr]
      stopped := fun _ => h.wph
      phase := hphase }

theorem absent_clearCollections {s : State} :
    (∀ i, (dataAt (clearCollections s) i).present = false)
      ∧ ∀ q, (redAt (clearCollections s) q).present = false :=
  ⟨fun i => congrArg DataEntry.present (dataAt_clearCollections s i),
    fun q => congrArg RedEntry.present (redAt_clearCollections s q)⟩

/-- Purge and FINISH leave the worker to the next block (R135, R163). -/
theorem workerInv_cleared_block {s t : State} (hr : s.run = .running) (h : WorkerInv s)
    (ht : t = { clearBlock s with fifo := t.fifo, free := t.free, cbi := t.cbi, wph := .idle }) : WorkerInv t := by
  obtain ⟨hd, hred⟩ := absent_clearBlock h.unused
  rw [ht]
  refine workerInv_of_cleared ⟨rfl, rfl, rfl, rfl, rfl, hd, hred⟩ ?_ (dispatchInv_congr rfl rfl rfl
    (dispatchInv_clearBlock s)) (by simp [hr])
  exact configLatched_congr (by simp [ConfigKept]) h.config

/-! ## An insert (R138, R139, R141) -/

/-- A running block with one more share, before AfterInsert decides. -/
structure Inserted (s : State) : Prop where
  running : s.run = .running
  config : ConfigLatched s
  unused : UnusedAbsent s
  dispatch : DispatchInv s
  next : s.next ≤ s.cfgK
  sizes : ∀ i : Fin 31, (dataAt s i.val).present = true → (dataAt s i.val).ps ≤ s.cfgMtu
  received : NoneRebuilt s
  decoded : s.decoded = false
  counts : dataCount s + redCount s ≤ s.cfgK.val

/-- AfterInsert's three answers are the three undecoded cases of EMIT (R141). -/
theorem phaseInv_afterInsert {s : State} (h : Inserted s) : PhaseInv (afterInsert s) := by
  have hs : SharesKept s (afterInsert s) := sharesKept_of_collections rfl rfl rfl rfl
  obtain ⟨hgap, hdata, hred, -, hnone⟩ := counts_congr hs
  have hreceived := hnone.2 h.received
  have hlimit := (limit_val_afterInsert s).trans hgap.symm
  have hsum := h.counts
  have hle := dataCount_le s
  have hkind : (afterInsert s).kind = kindOf s.cfgK.val (dataCount s) (redCount s) := rfl
  have hdec : (afterInsert s).decoded = false := h.decoded
  simp only [PhaseInv, afterInsert_wph, hdec, hdata, hred, afterInsert_cfgK]
  by_cases hdirect : dataCount s = s.cfgK.val
  · rw [kindOf, if_pos hdirect] at hkind
    simp only [hkind]
    exact ⟨hreceived, hlimit, hdirect, by omega⟩
  · by_cases hrecon : s.cfgK.val ≤ dataCount s + redCount s
    · rw [kindOf, if_neg hdirect, if_pos hrecon] at hkind
      simp only [hkind]
      exact ⟨hreceived, hlimit, by omega, by omega⟩
    · rw [kindOf, if_neg hdirect, if_neg hrecon] at hkind
      simp only [hkind]
      exact ⟨hreceived, hlimit, by omega⟩

theorem workerInv_afterInsert {s : State} (h : Inserted s) : WorkerInv (afterInsert s) := by
  have hlimit := limit_val_afterInsert s
  exact
    { config := h.config
      unused := h.unused
      dispatch := h.dispatch
      bounds := by
        rw [Fin.le_def, Fin.le_def, hlimit]
        exact ⟨next_le_firstGap h.dispatch h.next, firstGap_le s⟩
      sizes := h.sizes
      halted := by simp [h.running]
      stopped := by simp [h.running]
      phase := phaseInv_afterInsert h }

/-- In the IDLE phase of a running block every present share was received, and a share more is wanted (R39, R141). -/
theorem phaseInv_idle {s : State} (hw : s.wph = .idle) (hr : s.run = .running) (h : PhaseInv s) :
    s.decoded = false ∧ NoneRebuilt s ∧ dataCount s + redCount s < s.cfgK.val := by
  simp only [PhaseInv, hw] at h
  obtain ⟨-, hdec, hnone, -, -, hsum⟩ := h
  exact ⟨hdec, hnone, hsum (by simp [hr])⟩

section
variable {s : State} {d : Desc} (h : WorkerInv s) (hr : s.run = .running) (hw : s.wph = .idle)
include h hr hw

theorem inserted_insertData (hk : d.hdr.pi.toNat < s.cfgK.val) (ha : (dataAt s d.hdr.pi.toNat).present = false)
    (hsize : d.hdr.ps ≤ s.cfgMtu) : Inserted (insertData d s) := by
  obtain ⟨hdec, hnone, hsum⟩ := phaseInv_idle hw hr h.phase
  have hat := dataAt_insertData (d := d) s (by omega)
  have hcount : dataCount (insertData d s) = dataCount s + 1 := dataCount_setData hk ha rfl
  have hred : redCount (insertData d s) = redCount s := rfl
  exact
    { running := hr
      config := h.config
      unused := unusedAbsent_setData hk h.unused
      dispatch := dispatchInv_setData hk (next_le_of_absent hk ha h.dispatch) rfl h.dispatch
      next := h.bounds.1.trans h.bounds.2
      sizes := fun i => by
        rw [hat]
        split
        · exact fun _ => hsize
        · exact h.sizes i
      received := fun i => by
        rw [hat]
        split
        · exact fun _ => rfl
        · exact hnone i
      decoded := hdec
      counts := by
        change _ ≤ s.cfgK.val
        omega }

theorem inserted_insertRed (hk : s.cfgK.val ≤ d.hdr.pi.toNat) (hn : d.hdr.pi.toNat < s.cfgN.val)
    (ha : (redAt s d.hdr.pi.toNat).present = false) : Inserted (insertRed d s) := by
  obtain ⟨hdec, hnone, hsum⟩ := phaseInv_idle hw hr h.phase
  have hred : redCount (insertRed d s) = redCount s + 1 := redCount_setRed hk hn ha rfl
  have hcount : dataCount (insertRed d s) = dataCount s := rfl
  exact
    { running := hr, config := h.config, unused := unusedAbsent_setRed hk hn h.unused, dispatch := h.dispatch
      next := h.bounds.1.trans h.bounds.2, sizes := h.sizes, received := hnone, decoded := hdec
      counts := by rw [hcount, hred]; exact hsum }

end

/-- A data packet that is not malformed fits the buffer (R74, R133). -/
theorem size_le_of_packetClass {s : State} {h : Header} (hi : packetClass s h ≠ .malformedIndex)
    (hs : packetClass s h ≠ .malformedSize) (hk : h.pi.toNat < s.cfgK.val) : h.ps ≤ s.cfgMtu := by
  by_contra hps
  have hn := Nat.not_le.2 (lt_cfgN_of_packetClass hi)
  exact hs ((if_neg hn).trans (if_pos ⟨hk, BitVec.not_le.1 hps⟩))

/-- The packet that supersedes a block is the first share of its own (R136). -/
theorem workerInv_insert_superseded {s : State} {d : Desc} (rest : List Desc) (free : List Slot) (h : WorkerInv s)
    (hr : s.run = .running) (hw : s.wph = .idle) (hc : packetClass s d.hdr = .supersede) :
    WorkerInv (afterInsert (if d.hdr.pi.toNat < s.cfgK.val then insertData d (superseded d.hdr.bi rest free s)
      else insertRed d (superseded d.hdr.bi rest free s))) := by
  have hi : packetClass s d.hdr ≠ .malformedIndex := by simp [hc]
  have hpurged : WorkerInv (superseded d.hdr.bi rest free s) :=
    workerInv_cleared_block hr h (by rw [← hw]; rfl)
  obtain ⟨hd, hred⟩ := absent_clearBlock h.unused
  have hn := lt_cfgN_of_packetClass hi
  have hsize := size_le_of_packetClass hi (by simp [hc])
  refine workerInv_afterInsert ?_
  split
  case isTrue hk => exact inserted_insertData hpurged hr hw hk (hd _ (by omega)) (hsize hk)
  case isFalse hk => exact inserted_insertRed hpurged hr hw (Nat.le_of_not_lt hk) hn (hred _ (by omega))

/-! ## The worker's own steps -/

/-- NEXT below LIMIT can be counted up. -/
theorem next_succ_val {s : State} (hn : s.next < s.limit) : (s.next + 1).val = s.next.val + 1 :=
  Fin.val_add_one_of_lt' (by have := next_lt_of_lt_limit hn; omega)

theorem dataAt_markDispatched {s : State} (hn : s.next < s.limit) (i : Nat) :
    dataAt (markDispatched s) i = if i = s.next.val then { dataAt s i with disp := true } else dataAt s i := by
  refine (dataAt_setData s _ i _ (next_lt_of_lt_limit hn)).trans ?_
  split
  case isTrue hi => rw [hi]
  case isFalse => rfl

/-- EMIT moves NEXT up to LIMIT and changes a flag that no phase reads (R150). -/
theorem workerInv_markDispatched {s : State} (hw : s.wph = .emit) (hn : s.next < s.limit)
    (hp : (dataAt s s.next.val).present = true) (h : WorkerInv s) : WorkerInv (markDispatched s) := by
  have hentry : ∀ i, (dataAt (markDispatched s) i).present = (dataAt s i).present
      ∧ (dataAt (markDispatched s) i).recon = (dataAt s i).recon
      ∧ (dataAt (markDispatched s) i).ps = (dataAt s i).ps := by
    intro i
    rw [dataAt_markDispatched hn]
    split <;> exact ⟨rfl, rfl, rfl⟩
  have hs : SharesKept s (markDispatched s) := ⟨rfl, rfl, fun i => ⟨(hentry i).1, (hentry i).2.1⟩, fun _ => rfl⟩
  exact
    { config := h.config
      unused := unusedAbsent_setData (hn.trans_le h.bounds.2) h.unused
      dispatch := dispatchInv_markDispatched hn hp h.dispatch
      bounds := ⟨Fin.le_def.2 (by simpa [next_succ_val hn] using hn), h.bounds.2⟩
      sizes := fun i => by
        obtain ⟨hpres, -, hps⟩ := hentry i
        rw [hpres, hps]
        exact h.sizes i
      halted := h.halted
      stopped := h.stopped
      phase := phaseInv_congr hs rfl rfl rfl rfl rfl (.inl hw) h.phase }

/-- With everything up to LIMIT dispatched, EMIT's case is what the next phase asks (R152). -/
theorem phaseInv_emitDone {s : State} (hw : s.wph = .emit) (hn : s.next = s.limit)
    (h : PhaseInv s) : PhaseInv { s with wph := emitDonePhase s } := by
  simp only [PhaseInv, hw] at h
  split at h
  case h_1 hkind hdec =>
    obtain ⟨hnone, hlimit, hsum⟩ := h
    have hph : emitDonePhase s = .idle := by simp only [emitDonePhase, hkind]
    rw [hph]
    exact ⟨hkind, hdec, hnone, hn, hlimit, fun _ => hsum⟩
  case h_2 hkind hdec =>
    obtain ⟨hnone, hlimit, hdata, hred⟩ := h
    have hph : emitDonePhase s = .finish := by simp only [emitDonePhase, hkind]
    have hgap : firstGap s = s.cfgK.val := by
      rw [firstGap, (firstMissing_none s).2 ((dataCount_eq_cfgK_iff s).1 hdata), Option.getD_none]
    have hsum : receivedCount s + redCount s = s.cfgK.val := by
      rw [receivedCount_of_noneRebuilt hnone, hdata, hred, Nat.add_zero]
    rw [hph]
    exact ⟨by simp [hkind], Fin.ext (by simp only [hn, hlimit, hgap]), hdata, hsum⟩
  case h_3 hkind hdec =>
    obtain ⟨hnone, -, hlt, hsum⟩ := h
    have hph : emitDonePhase s = .acq := by simp [emitDonePhase, hkind, hdec]
    rw [hph]
    exact ⟨hkind, hdec, hlt, (receivedCount_of_noneRebuilt hnone).symm ▸ hsum⟩
  case h_4 hkind hdec =>
    obtain ⟨hlimit, hdata, hsum⟩ := h
    have hph : emitDonePhase s = .finish := by simp [emitDonePhase, hkind, hdec]
    rw [hph]
    exact ⟨by simp [hkind], hn.trans hlimit, hdata, hsum⟩
  case h_5 => exact h.elim

theorem workerInv_emitDone {s : State} (hr : s.run = .running) (hw : s.wph = .emit) (hn : s.next = s.limit)
    (h : WorkerInv s) : WorkerInv { s with wph := emitDonePhase s } := by
  have hph : emitDonePhase s ≠ .halted := by
    unfold emitDonePhase
    split
    · simp
    · simp
    · split <;> simp
  exact workerInv_of_phase (by simp [AccumulatorKept, ConfigKept]) (by simp [hr, hph]) (by simp [hr])
    (phaseInv_emitDone hw hn h.phase) h

theorem dataAt_acquired {s : State} {j : Nat} (hj : j < 31) (x : Slot) (free : List Slot) (i : Nat) :
    dataAt (acquired j x free s) i = if i = j then ⟨true, x, s.cfgMtu, true, false⟩ else dataAt s i :=
  dataAt_setData { s with free := free } j i _ hj

/-- A destination is one entry more, and no received share; DECODE follows when none is missing (R156, R157). -/
theorem workerInv_acquired {s : State} {j : Nat} (x : Slot) (free : List Slot) (hr : s.run = .running)
    (hw : s.wph = .acq) (hj : firstMissing s = some j) (h : WorkerInv s) :
    WorkerInv { acquired j x free s with
      wph := if firstMissing (acquired j x free s) = none then .decode else .acq } := by
  obtain ⟨hk, ha, -⟩ := (firstMissing_spec s j).1 hj
  have hacq := h.phase
  simp only [PhaseInv, hw] at hacq
  obtain ⟨hkind, hdec, -, hsum⟩ := hacq
  have hrecv : receivedCount (acquired j x free s) + redCount (acquired j x free s) = s.cfgK.val :=
    (congrArg (· + redCount s) (receivedCount_setData_rebuilt (s := { s with free := free }) hk ha rfl)).trans hsum
  have hall : dataCount (acquired j x free s) = s.cfgK.val ↔ firstMissing (acquired j x free s) = none :=
    (dataCount_eq_cfgK_iff _).trans (firstMissing_none _).symm
  have hphase : PhaseInv { acquired j x free s with
      wph := if firstMissing (acquired j x free s) = none then .decode else .acq } := by
    by_cases hm : firstMissing (acquired j x free s) = none
    · rw [if_pos hm]
      exact ⟨hkind, hdec, hall.2 hm, hrecv⟩
    · rw [if_neg hm]
      exact ⟨hkind, hdec, Nat.lt_of_le_of_ne (dataCount_le _) (mt hall.1 hm), hrecv⟩
  exact
    { config := h.config
      unused := unusedAbsent_setData (s := { s with free := free }) hk h.unused
      dispatch := dispatchInv_congr rfl rfl rfl
        (dispatchInv_setData (e := ⟨true, x, s.cfgMtu, true, false⟩) hk (next_le_of_absent hk ha h.dispatch) rfl
          h.dispatch)
      bounds := h.bounds
      sizes := fun i => by
        change (dataAt (acquired j x free s) i).present = true → (dataAt (acquired j x free s) i).ps ≤ s.cfgMtu
        rw [dataAt_acquired (by omega)]
        split
        · exact fun _ => BitVec.le_refl _
        · exact h.sizes i
      halted := by simp only [acquired, setData_run, hr]; split <;> simp
      stopped := by simp [acquired, hr]
      phase := hphase }

/-- DECODE leaves the complete block to EMIT, up to CFG_K (R159). -/
theorem workerInv_decoded {s : State} (xs : List Slot) (bs : List (List Byte)) (hr : s.run = .running)
    (hw : s.wph = .decode) (h : WorkerInv s) :
    WorkerInv { memWriteShares s xs bs with decoded := true, limit := s.cfgK, wph := .emit } := by
  have hphase := h.phase
  simp only [PhaseInv, hw] at hphase
  obtain ⟨hkind, -, hdata, hsum⟩ := hphase
  have hfull : WorkerInv { s with decoded := true, limit := s.cfgK, wph := .emit } :=
    { config := h.config
      unused := h.unused
      dispatch := h.dispatch
      bounds := ⟨h.bounds.1.trans h.bounds.2, le_rfl⟩
      sizes := h.sizes
      halted := by simp [hr]
      stopped := by simp [hr]
      phase := by simp only [PhaseInv, hkind]; exact ⟨trivial, hdata, hsum⟩ }
  exact workerInv_congr hfull (by simp [WorkerKept, AccumulatorKept, ConfigKept])

/-! ## Every effect -/

theorem effect_keeps_workerInv {i : Instr} {s t : State} (he : Effect i s t) (h : WorkerInv s) : WorkerInv t := by
  cases he with
  | held => exact h
  | started _ _ hv =>
    have hcfg := (poolInv_startBlock hv).config
    exact workerInv_of_cleared ⟨rfl, rfl, rfl, rfl, rfl, fun i _ => absent_clearCollections.1 i,
      fun q _ => absent_clearCollections.2 q⟩ hcfg (dispatchInv_clearCollections (s := s) rfl rfl) nofun
  | stopped =>
    exact workerInv_of_cleared ⟨rfl, rfl, rfl, rfl, rfl, fun i _ => absent_clearCollections.1 i,
      fun q _ => absent_clearCollections.2 q⟩ (fun hne => absurd rfl hne)
      (dispatchInv_clearCollections (s := s) rfl rfl) nofun
  | reset =>
    exact
      { config := fun hne => absurd rfl hne, unused := workerInv_reset.unused, dispatch := workerInv_reset.dispatch
        bounds := workerInv_reset.bounds, sizes := workerInv_reset.sizes, halted := workerInv_reset.halted
        stopped := workerInv_reset.stopped, phase := workerInv_reset.phase }
  | dataInserted hf hr hw hc =>
    obtain ⟨hk, ha⟩ := packetClass_data hc
    have hsize := size_le_of_packetClass (s := s) (by simp [hc]) (by simp [hc]) hk
    exact workerInv_afterInsert (inserted_insertData (workerInv_popped _ h) hr hw hk ha hsize)
  | redInserted hf hr hw hc =>
    obtain ⟨hk, hn, ha⟩ := packetClass_red hc
    exact workerInv_afterInsert (inserted_insertRed (workerInv_popped _ h) hr hw hk hn ha)
  | purged _ _ hr hw hc => exact workerInv_insert_superseded _ _ h hr hw hc
  | emitted _ ho hp =>
    obtain ⟨-, hw, hn, -⟩ := offer_eq_some ho
    exact workerInv_congr (workerInv_markDispatched hw hn hp h) (by simp [WorkerKept, AccumulatorKept, ConfigKept])
  | emitDone _ hr hw hn => exact workerInv_emitDone hr hw hn h
  | destination _ hr hw _ hj => exact workerInv_acquired _ _ hr hw hj h
  | decoded _ hr hw => exact workerInv_decoded _ _ hr hw h
  | finished _ hr => exact workerInv_cleared_block hr h rfl
  | raised _ hr | doubleFreed hr =>
    exact workerInv_fatal (by simp [AccumulatorKept, ConfigKept, hr]) (by simp) (by simp) h
  | answered | stoppedAgain | submitted | headerByte | payloadByte | poolFailed | enqueued | fifoFailed | submitDone
  | discarded => exact workerInv_congr h (by simp [WorkerKept, AccumulatorKept, ConfigKept])

/-- Settles O54: effect by effect; an insert, EMIT_DONE, ACQ and DECODE each establish what their next phase asks. -/
theorem workerPhasesKept : Obligations.WorkerPhasesKept := by
  unfold Obligations.WorkerPhasesKept
  intro s t
  exact step_keeps (P := WorkerInv)
    (fun s ts n h => workerInv_congr h (by simp [WorkerKept, AccumulatorKept, ConfigKept]))
    (fun i s t _ he h => effect_keeps_workerInv he h)

end Sys2Proof.Machine
end

section
/-! The worker's steps outside DECODE (R150 to R152, R157, R163): what EMIT, EMIT_DONE, ACQ and FINISH write. -/

namespace Sys2Proof.Machine

/-! ## EMIT and EMIT_DONE -/

@[simp] theorem length_memRead (s : State) (x : Slot) (off len : Nat) : (memRead s x off len).length = len := by
  simp [memRead]

theorem getElem?_memRead (s : State) (x : Slot) (off : Nat) {len j : Nat} (hj : j < len) :
    (memRead s x off len)[j]? = some (byteAt s x (off + j)) := by
  simp [memRead, hj]

/-- EMIT with an offer whose entry is present and in range (R150). -/
theorem execEmit_delivers {s : State} {o : Output} (ho : offer s = some o)
    (hp : (dataAt s s.next.val).present = true)
    (hin : inRange s (dataAt s s.next.val).slot 0 (offerLen s (dataAt s s.next.val)).toNat = true) :
    execEmit s = .next (send o (markDispatched s)) := by
  simp [execEmit, ho, hp, hin]

/-- Settles O29: the offer is the one that EMIT sends, and NEXT, below LIMIT, does not wrap. -/
theorem emitStep : Obligations.EmitStep := by
  unfold Obligations.EmitStep
  rintro s e len hr hw hn rfl hp hlen hle hslot
  have hlen' : offerLen s (dataAt s s.next.val) = len := hlen.symm
  have ho := (offer_eq s).trans (if_pos ⟨hr, hw, hn⟩)
  have hin := (inRange_zero_iff s (dataAt s s.next.val).slot len).2 ⟨hle, hslot⟩
  rw [hlen'] at ho
  rw [← hlen'] at hin
  refine ⟨_, _, execEmit_delivers ho hp hin, length_memRead _ _ _ _, fun j hj => ?byte, next_succ_val hn,
    fun i _ => dataAt_markDispatched hn i, rfl⟩
  case byte => simpa using getElem?_memRead s (dataAt s s.next.val).slot 0 hj

/-- EMIT_DONE with everything up to LIMIT dispatched (R152). -/
theorem execEmitDone_moves {s : State} (hr : s.run = .running) (hw : s.wph = .emit) (hn : s.next = s.limit) :
    execEmitDone s = .next { s with wph := emitDonePhase s } :=
  if_pos ⟨(workerIn_iff .emit s).2 ⟨hr, hw⟩, hn⟩

/-- Settles O30: the phase is the one that `emitDonePhase` names. -/
theorem emitDoneStep : Obligations.EmitDoneStep := by
  unfold Obligations.EmitDoneStep
  intro s hr hw hn
  have hexec : exec .emitDone s = .next { s with wph := emitDonePhase s } := execEmitDone_moves hr hw hn
  refine ⟨fun hk => ?_, fun hk => ?_, fun hk hd => ?_, fun hk hd => ?_⟩ <;> rw [hexec]
  · simp only [emitDonePhase, hk]
  · simp only [emitDonePhase, hk]
  · simp only [emitDonePhase, hk, hd, if_true]
  · simp only [emitDonePhase, hk, hd, Bool.false_eq_true, if_false]

/-- Settles O9: WPH selects no instruction, so the turn is passed. -/
theorem offerWaitsForConsumer : Obligations.OfferWaitsForConsumer := by
  unfold Obligations.OfferWaitsForConsumer
  intro s env ts hs hw hn ht
  exact step_of_fetch_wait (nextTurn_cons hs) (fetchTurn_worker_none (workerStep_emit_untaken env hw hn ht))

/-! ## Who delivers (R38, R150) -/

/-- `t` has more on its ports than `s`, but no DataReady more. -/
def AddsNoReady (s t : State) : Prop :=
  ∃ os, t.outs = s.outs ++ os ∧ ∀ len bytes, Output.ready len bytes ∉ os

theorem AddsNoReady.of_eq {s t : State} (h : t.outs = s.outs) : AddsNoReady s t :=
  ⟨[], by simp [h], by simp⟩

/-- The fatal entry's one answer goes to the active SUBMIT (R186). -/
theorem raiseFatal_addsNoReady (c : Cause) (s : State) : AddsNoReady s (raiseFatal c s) :=
  ⟨_, by rw [raiseFatal_eq], by split <;> simp⟩

/-- Only EMIT's delivery puts a DataReady on the output port. -/
theorem effect_addsNoReady {i : Instr} {s t : State} (he : Effect i s t) :
    AddsNoReady s t ∨ (i = .emit ∧ ∃ o, offer s = some o ∧ t = send o (markDispatched s)) := by
  cases he with
  | emitted hi ho => exact .inr ⟨hi, _, ho, rfl⟩
  | answered os hos | stoppedAgain os _ _ hos | stopped os _ _ hos => exact .inl ⟨os, rfl, hos⟩
  | started | poolFailed | fifoFailed | submitDone => exact .inl ⟨[_], rfl, by simp⟩
  | raised => exact .inl (raiseFatal_addsNoReady _ s)
  | doubleFreed => exact .inl (raiseFatal_addsNoReady .pool { s with free := _ })
  | purged => refine .inl (.of_eq ?_); split <;> simp [superseded]
  | held | submitted | headerByte | payloadByte | enqueued | discarded | dataInserted | redInserted | emitDone
  | destination | decoded | finished | reset => exact .inl (.of_eq (by simp [acquired]))

/-- Settles O44: of the effects EMIT's alone adds a DataReady, and there NEXT is below LIMIT. -/
theorem onlyEmitDelivers : Obligations.OnlyEmitDelivers := by
  unfold Obligations.OnlyEmitDelivers
  intro i s t h
  obtain ⟨os, hos, hno⟩ | ⟨hi, o, ho, rfl⟩ := effect_addsNoReady (exec_effect h)
  · exact ⟨os, hos, fun len bytes hm => absurd hm (hno len bytes)⟩
  · refine ⟨[o], rfl, fun len bytes hm => ⟨hi, ?_, next_succ_val (next_lt_limit_of_offer ho), rfl⟩⟩
    rw [ho, List.mem_singleton.1 hm]

/-! ## ACQ -/

/-- ACQ with FREE empty holds (R157, R54). -/
theorem execAcq_waits {s : State} (pick : Nat) (hr : s.run = .running) (hw : s.wph = .acq) (hfree : s.free = []) :
    execAcq pick s = .next s := by
  simp only [execAcq, (workerIn_iff .acq s).2 ⟨hr, hw⟩, if_true, (acquire_eq_none_iff pick s.free).2 hfree, hold_eq]

/-- ACQ with a slot to take and an index missing (R157). -/
theorem execAcq_acquires {s : State} {pick j : Nat} {x : Slot} {free : List Slot} (hr : s.run = .running)
    (hw : s.wph = .acq) (hacq : acquire pick s.free = some (x, free)) (hj : firstMissing s = some j) :
    execAcq pick s = .next { acquired j x free s with
      wph := if firstMissing (acquired j x free s) = none then .decode else .acq } := by
  simp only [execAcq, (workerIn_iff .acq s).2 ⟨hr, hw⟩, if_true, hacq, hj]
  change Host.Outcome.next (if firstMissing (acquired j x free s) = none
    then { acquired j x free s with wph := .decode } else acquired j x free s) = _
  split
  case isTrue => rfl
  case isFalse => rw [← hw]; rfl

/-- After ACQ none is missing exactly where no index but its own was. -/
theorem firstMissing_acquired {s : State} {j : Nat} (hj : j < s.cfgK.val) (x : Slot) (free : List Slot) :
    firstMissing (acquired j x free s) = none ↔ ∀ i, i < s.cfgK.val → i ≠ j → (dataAt s i).present = true := by
  refine (firstMissing_none _).trans (forall₂_congr fun i _ => ?_)
  rw [dataAt_acquired (by omega)]
  by_cases hi : i = j <;> simp [hi]

/-- Settles O31: Acquire's slot is one of FREE's, and `acquire_any` gives each of them a draw. -/
theorem acquireDestinationStep : Obligations.AcquireDestinationStep := by
  unfold Obligations.AcquireDestinationStep
  intro s j hr hw
  refine ⟨fun hfree pick => execAcq_waits pick hr hw hfree, fun hfree hk ha hlow => ?acquires⟩
  have hj := (firstMissing_spec s j).2 ⟨hk, ha, hlow⟩
  refine ⟨fun pick => ?draw, fun x hx => ?every⟩
  case draw =>
    obtain ⟨⟨x, free⟩, hacq⟩ := Option.ne_none_iff_exists'.1 (mt (acquire_eq_none_iff pick s.free).1 hfree)
    obtain ⟨hx, rfl⟩ := acquire_some hacq
    exact ⟨_, x, execAcq_acquires hr hw hacq hj, hx, rfl, fun i _ => dataAt_acquired (by omega) x _ i,
      if_congr (firstMissing_acquired hk x _) rfl rfl, rfl⟩
  case every =>
    obtain ⟨pick, hacq⟩ := acquire_any hx
    refine ⟨pick, _, execAcq_acquires hr hw hacq hj, ?_⟩
    exact congrArg DataEntry.slot ((dataAt_acquired (by omega) x _ j).trans (if_pos rfl))

/-! ## FINISH -/

/-- FINISH whose Releases complete (R163, R164). -/
theorem execFinish_releases {s : State} {free : List Slot} (hr : s.run = .running) (hw : s.wph = .finish)
    (hrel : releaseAll (heldSlots s) s.free = .ok free) :
    execFinish s = .next { clearBlock s with free := free, cbi := s.cbi + 1, wph := .idle } := by
  simp only [execFinish, if_pos ((workerIn_iff .finish s).2 ⟨hr, hw⟩), hrel]

/-- Settles O36: the Releases complete, and what they add to FREE is the block's slots. -/
theorem finishStep : Obligations.FinishStep := by
  unfold Obligations.FinishStep
  intro s hr hw hnodup hheld
  obtain ⟨free, hrel⟩ := releaseAll_completes hnodup hheld
  refine ⟨_, execFinish_releases hr hw hrel, BitVec.toNat_add s.cbi 1, fun x => ?pool, dataAt_clearBlock s,
    redAt_clearBlock s, rfl⟩
  case pool => rw [← mem_heldSlots]; exact releaseAll_ok hrel x

/-! ## No wait for a slot (R169) -/

theorem redCount_le (s : State) : redCount s ≤ s.cfgN.val - s.cfgK.val := by
  have hsub : redPresent s ⊆ List.Ico s.cfgK.val s.cfgN.val := fun q hq => by
    obtain ⟨hn, hk, -⟩ := mem_redPresent.1 hq
    exact List.Ico.mem.2 ⟨hk, hn⟩
  have hnodup : (redPresent s).Nodup := List.nodup_range.filter _
  simpa [redCount] using (hnodup.subperm hsub).length_le

/-- In every phase but HALTED at most CFG_K redundancy shares are held (R168, R171). -/
theorem redCount_le_cfgK {s : State} (hr : s.run = .running) (hw : s.wph ≠ .halted) (h : PhaseInv s) :
    redCount s ≤ s.cfgK.val := by
  cases hph : s.wph <;> simp only [PhaseInv, hph] at h
  case halted => exact absurd hph hw
  case idle =>
    obtain ⟨-, -, -, -, -, hsum⟩ := h
    have := hsum (by simp [hr])
    omega
  case emit =>
    split at h
    case h_1 | h_3 => obtain ⟨-, -, hsum⟩ := h; omega
    case h_2 => obtain ⟨-, -, -, hnone⟩ := h; omega
    case h_4 => omega
    case h_5 => exact h.elim
  case acq | decode | finish => omega

/-- The accumulator's slots, counted (R56). -/
theorem length_collected {s : State} (h : PoolInv s) : (collected s).length = dataCount s + redCount s := by
  rw [← heldSlots_eq_collected h]
  simp [heldSlots, dataCount, redCount, redPresent, List.countP_eq_length_filter]

/-- Settles O55: the shares held and a FIFO of Q_EFF descriptors leave one of the 2n slots, and the framer's hand or
the share still missing in ACQ leaves another. -/
theorem acquireNeverWaits : Obligations.AcquireNeverWaits := by
  unfold Obligations.AcquireNeverWaits
  intro s h hr hcase hfree
  have hne : s.run ≠ .stopped := by simp [hr]
  have hworker := h.worker
  have hhalted : s.wph ≠ .halted := fun hw => by simpa [hr] using hworker.halted.1 hw
  obtain ⟨hvalid, hq⟩ := hworker.config hne
  obtain ⟨-, hkn, -⟩ := (configValid_iff _ _ _ _).1 hvalid
  have hsum := poolCountsAddUp s h.pool hne
  have hlen : (collected s).length
      = ((List.range 31).filter fun i => (dataAt s i).present).length
        + ((List.range 32).filter fun q => (redAt s q).present).length := by
    simp [collected, dataSlots, redSlots]
  rw [Nat.add_assoc, ← hlen, length_collected h.pool, hfree, List.length_nil, Nat.zero_add] at hsum
  have hfifo : s.fifo.length ≤ qBound s.cfgK.val s.cfgN.val := h.fifo.1.trans (hq ▸ Nat.min_le_right _ _)
  have hdata := dataCount_le s
  have hred := redCount_le s
  have hredk := redCount_le_cfgK hr hhalted hworker.phase
  simp only [qBound] at hfifo
  obtain hw | hslot := hcase
  · have hmissing := (phaseInv_acq hw hworker.phase).2
    split at hsum <;> omega
  · rw [if_pos hslot] at hsum
    omega

end Sys2Proof.Machine
end

section
/-! DECODE (R158 to R161): the lists BuildShares makes, the shares the codec's answer writes, and that a codec which
meets the contract restores the block. -/

namespace Sys2Proof.Machine

/-! ## The lists of BuildShares (R158) -/

/-- Entry by entry: a received share stands for itself; the n-th rebuilt one takes the n-th redundancy index. -/
theorem buildFrom_entries {s : State} {is r : List Nat} {b : Shares} (hb : buildFrom s is r = .ok b) {n i : Nat}
    (hi : is[n]? = some i) :
    ((dataAt s i).recon = false → b.idx[n]? = some i ∧ b.src[n]? = some (dataAt s i).slot)
      ∧ ((dataAt s i).recon = true →
          ∃ q, r[((is.take n).filter fun l => (dataAt s l).recon).length]? = some q
            ∧ b.idx[n]? = some q ∧ b.src[n]? = some (redAt s q).slot) := by
  induction is generalizing r b n with
  | nil => simp at hi
  | cons l is ih =>
    obtain ⟨-, ⟨hrec, c, hc, rfl⟩ | ⟨hrec, q, r', c, rfl, hc, rfl⟩⟩ := buildFrom_cons.1 hb
    · cases n with
      | zero => cases hi; simp [hrec]
      | succ n => simpa [hrec] using ih hc hi
    · cases n with
      | zero => cases hi; simp [hrec]
      | succ n => simpa [hrec] using ih hc hi

/-- The destinations, in order: the rebuilt entries' slots. -/
theorem buildFrom_dst {s : State} {is r : List Nat} {b : Shares} (hb : buildFrom s is r = .ok b) :
    b.dst = (is.filter fun i => (dataAt s i).recon).map fun i => (dataAt s i).slot := by
  induction is generalizing r b with
  | nil => cases hb; rfl
  | cons i is ih =>
    obtain ⟨-, ⟨hrec, c, hc, rfl⟩ | ⟨hrec, q, r', c, rfl, hc, rfl⟩⟩ := buildFrom_cons.1 hb
    · simp [hrec, ih hc]
    · simp [hrec, ih hc]

/-- The indices, in any order: the received entries, and as many of the redundancy indices as entries are rebuilt. -/
theorem buildFrom_idx_perm {s : State} {is r : List Nat} {b : Shares} (hb : buildFrom s is r = .ok b) :
    b.idx.Perm ((is.filter fun i => !(dataAt s i).recon) ++ r.take (is.countP fun i => (dataAt s i).recon)) := by
  induction is generalizing r b with
  | nil => cases hb; rfl
  | cons i is ih =>
    obtain ⟨-, ⟨hrec, c, hc, rfl⟩ | ⟨hrec, q, r', c, rfl, hc, rfl⟩⟩ := buildFrom_cons.1 hb
    · simpa [hrec] using ih hc
    · simpa [hrec] using ((ih hc).cons q).trans List.perm_middle.symm

/-- Settles O32: BuildShares walks over 0 .. CFG_K - 1, so entry i is index i's. -/
theorem buildSharesLists : Obligations.BuildSharesLists := by
  unfold Obligations.BuildSharesLists
  intro s b hb
  obtain ⟨hidx, hsrc⟩ := buildFrom_length hb
  rw [List.length_range] at hidx hsrc
  refine ⟨hidx, hsrc, buildFrom_dst hb, fun i hi => ?_⟩
  have hentry := buildFrom_entries hb (n := i) (i := i) (by simp [hi])
  rwa [List.take_range, Nat.min_eq_left hi.le] at hentry

/-! ## Writing whole shares (R159) -/

/-- A slot reads the same where its bytes are the same. -/
theorem memRead_congr {s t : State} {x : Slot} {len : Nat} (h : ∀ o, o < len → byteAt t x o = byteAt s x o) :
    memRead t x 0 len = memRead s x 0 len := by
  simpa [memRead] using h

/-- A whole share written reads back. -/
theorem memRead_memWrite (s : State) (x : Slot) {b : List Byte} (hb : b.length ≤ 65536) :
    memRead (memWrite s x 0 b) x 0 b.length = b := by
  refine List.ext_getElem (length_memRead _ _ _ _) fun o ho hob => ?_
  simp only [memRead, List.getElem_map, List.getElem_range, Nat.zero_add]
  rw [byteAt_memWrite s x x 0 o b (by omega) (by omega), dif_pos ⟨rfl, by omega, by omega⟩]
  rfl

theorem memWriteShares_frame (s : State) (xs : List Slot) (bs : List (List Byte)) :
    memWriteShares s xs bs = { s with buf := (memWriteShares s xs bs).buf } := by
  induction xs generalizing s bs with
  | nil => rfl
  | cons x xs ih =>
    cases bs with
    | nil => rfl
    | cons b bs => exact ih (memWrite s x 0 b) bs

section
variable {m : Nat} (hm : m ≤ 65536)
include hm

/-- Nothing is written outside the first m bytes of the named slots. -/
theorem byteAt_memWriteShares_other {s : State} {xs : List Slot} {bs : List (List Byte)} {y : Slot} {o : Nat}
    (hb : ∀ b ∈ bs, b.length = m) (ho : o < 65536) (hy : y ∉ xs ∨ m ≤ o) :
    byteAt (memWriteShares s xs bs) y o = byteAt s y o := by
  induction xs generalizing s bs with
  | nil => rfl
  | cons x xs ih =>
    cases bs with
    | nil => rfl
    | cons b bs =>
      obtain ⟨hb0, hbs⟩ := List.forall_mem_cons.1 hb
      have hout : ¬ (y = x ∧ 0 ≤ o ∧ o < 0 + b.length) := by
        rintro ⟨rfl, -, hlt⟩
        obtain hy | hy := hy
        · exact hy List.mem_cons_self
        · omega
      calc byteAt (memWriteShares (memWrite s x 0 b) xs bs) y o
          _ = byteAt (memWrite s x 0 b) y o := ih hbs (hy.imp_left fun h hmem => h (List.mem_cons_of_mem x hmem))
          _ = byteAt s y o := by rw [byteAt_memWrite s x y 0 o b (by omega) ho, dif_neg hout]

/-- Each of distinct slots reads as the share written to it. -/
theorem memRead_memWriteShares {s : State} {xs : List Slot} {bs : List (List Byte)} {j : Nat} {x : Slot}
    (hnodup : xs.Nodup) (hlen : bs.length = xs.length) (hb : ∀ b ∈ bs, b.length = m) (hx : xs[j]? = some x) :
    some (memRead (memWriteShares s xs bs) x 0 m) = bs[j]? := by
  induction xs generalizing s bs j with
  | nil => simp at hx
  | cons y xs ih =>
    obtain ⟨hy, hnodup⟩ := List.nodup_cons.1 hnodup
    cases bs with
    | nil => cases hlen
    | cons b bs =>
      obtain ⟨rfl, hbs⟩ := List.forall_mem_cons.1 hb
      cases j with
      | zero =>
        obtain rfl : y = x := Option.some.inj hx
        refine congrArg some ?_
        calc memRead (memWriteShares (memWrite s y 0 b) xs bs) y 0 b.length
            _ = memRead (memWrite s y 0 b) y 0 b.length :=
              memRead_congr fun o ho => byteAt_memWriteShares_other hm hbs (ho.trans_le hm) (.inl hy)
            _ = b := memRead_memWrite s y hm
      | succ j => exact ih hnodup (Nat.succ.inj hlen) hbs hx

end

/-! ## DECODE's two answers -/

section
variable {s : State} {b : Shares} (hr : s.run = .running) (hw : s.wph = .decode) (hb : buildShares s = .ok b)
  (hin : ∀ x ∈ b.src ++ b.dst, x.val < 2 * s.cfgN.val)
include hr hw hb hin

theorem execDecode_fails : execDecode .fail s = .next (raiseFatal .codec s) := by
  have hall := (decode_inRange_iff s _).2 hin
  simp only [execDecode, (workerIn_iff .decode s).2 ⟨hr, hw⟩, if_true, hb, hall, Bool.true_eq_false, if_false]

theorem execDecode_fills {dst : List (List Byte)} (hfit : replyFits b.dst.length s.cfgMtu.toNat dst = true) :
    execDecode (.ok dst) s
      = .next { memWriteShares s b.dst dst with decoded := true, limit := s.cfgK, wph := .emit } := by
  have hall := (decode_inRange_iff s _).2 hin
  simp only [execDecode, (workerIn_iff .decode s).2 ⟨hr, hw⟩, if_true, hb, hall, Bool.true_eq_false, if_false, hfit]

end

/-- Settles O34: the step is the fatal entry's writes on the state it started in. -/
theorem codecFailureIsFatal : Obligations.CodecFailureIsFatal := by
  unfold Obligations.CodecFailureIsFatal
  intro s b hr hw hb hin
  refine (execDecode_fails hr hw hb hin).trans ?_
  rw [raiseFatal_eq, resp32_failFatal]

/-- Settles O33: the destinations are distinct, so each keeps the share written to it. -/
theorem decodeFillsDestinations : Obligations.DecodeFillsDestinations := by
  unfold Obligations.DecodeFillsDestinations
  intro s b dst hr hw hb hnodup hin hlen hsize
  have hm : s.cfgMtu.toNat ≤ 65536 := s.cfgMtu.isLt.le
  refine ⟨_, execDecode_fills hr hw hb hin ((replyFits_iff _ _ dst).2 ⟨hlen, hsize⟩),
    fun j x hx => memRead_memWriteShares hm hnodup hlen hsize hx,
    fun y o ho hy => byteAt_memWriteShares_other hm hsize ho hy, ?_⟩
  rw [memWriteShares_frame]

/-! ## The block restored (R160, R172) -/

/-- No two present data entries share a slot (R56). -/
theorem dataSlot_injective {s : State} (h : PoolInv s) (hr : s.run ≠ .stopped) {i j : Nat} (hi : i < 31) (hj : j < 31)
    (hpi : (dataAt s i).present = true) (hpj : (dataAt s j).present = true)
    (heq : (dataAt s i).slot = (dataAt s j).slot) : i = j := by
  have hnodup : (dataSlots s).Nodup := (collected_nodup h hr).sublist (List.sublist_append_left _ _)
  exact List.inj_on_of_nodup_map hnodup (by simp [hi, hpi]) (by simp [hj, hpj]) heq

/-- The data indices with a reconstruction destination, ascending. -/
def rebuilt (s : State) : List Nat := (List.range s.cfgK.val).filter fun i => (dataAt s i).recon

theorem mem_rebuilt {s : State} {i : Nat} : i ∈ rebuilt s ↔ i < s.cfgK.val ∧ (dataAt s i).recon = true := by
  simp [rebuilt]

section
variable {s : State} {b : Shares} (hb : buildShares s = .ok b)
include hb

theorem dst_eq_rebuilt : b.dst = (rebuilt s).map fun i => (dataAt s i).slot := buildFrom_dst hb

/-- A data index is among the codec's sources exactly where its share was received. -/
theorem mem_idx_iff {i : Nat} (hi : i < s.cfgK.val) : i ∈ b.idx ↔ (dataAt s i).recon = false := by
  have hred : i ∉ (redPresent s).take ((List.range s.cfgK.val).countP fun i => (dataAt s i).recon) := fun hm => by
    obtain ⟨-, hk, -⟩ := mem_redPresent.1 (List.mem_of_mem_take hm)
    omega
  rw [(buildFrom_idx_perm hb).mem_iff]
  simp [hred, hi]

/-- What the codec has to find is what DECODE has destinations for (R158, R160). -/
theorem missing_idx : Config.missing s.cfgK.val b.idx = rebuilt s :=
  List.filter_congr fun i hi => by
    have hmem := mem_idx_iff hb (List.mem_range.1 hi)
    cases hrec : (dataAt s i).recon <;> simp [hmem, hrec]

/-- The codec's sources are distinct shares of the code: data indices below CFG_K, redundancy indices from there up. -/
theorem idx_nodup : b.idx.Nodup := by
  refine (buildFrom_idx_perm hb).nodup_iff.2 (List.Nodup.append (List.nodup_range.filter _) ?_ fun q hd hr => ?_)
  · have hred : (redPresent s).Nodup := List.nodup_range.filter _
    exact hred.sublist (List.take_sublist _ _)
  · obtain ⟨-, hk, -⟩ := mem_redPresent.1 (List.mem_of_mem_take hr)
    have hlt := List.mem_range.1 (List.mem_filter.1 hd).1
    omega

theorem idx_lt (hkn : s.cfgK.val < s.cfgN.val) {q : Nat} (hq : q ∈ b.idx) : q < s.cfgN.val := by
  obtain hq | hq := List.mem_append.1 ((buildFrom_idx_perm hb).mem_iff.1 hq)
  · exact (List.mem_range.1 (List.mem_filter.1 hq).1).trans hkn
  · exact (mem_redPresent.1 (List.mem_of_mem_take hq)).1

/-- With every share held a correct one, each source is the share of its index in the code (R160). -/
theorem sources_correct {C : List (List Byte)}
    (hdata : ∀ i, i < s.cfgK.val → (dataAt s i).recon = false →
      some (memRead s (dataAt s i).slot 0 s.cfgMtu.toNat) = C[i]?)
    (hred : ∀ q ∈ redPresent s, some (memRead s (redAt s q).slot 0 s.cfgMtu.toNat) = C[q]?) {j : Nat}
    (hj : j < s.cfgK.val) : ∃ q, b.idx[j]? = some q ∧ (shareBytes s b)[j]? = C[q]? := by
  obtain ⟨-, -, -, hentries⟩ := buildSharesLists s b hb
  obtain ⟨hreceived, hrebuilt⟩ := hentries j hj
  cases hrec : (dataAt s j).recon with
  | false =>
    obtain ⟨hidx, hsrc⟩ := hreceived hrec
    exact ⟨j, hidx, by rw [shareBytes, List.getElem?_map, hsrc, ← hdata j hj hrec]; rfl⟩
  | true =>
    obtain ⟨q, hq, hidx, hsrc⟩ := hrebuilt hrec
    exact ⟨q, hidx, by rw [shareBytes, List.getElem?_map, hsrc, ← hred q (List.mem_of_getElem? hq)]; rfl⟩

/-- The rebuilt entries' slots are distinct where the block is complete (R56, R156). -/
theorem dst_nodup (h : PoolInv s) (hr : s.run ≠ .stopped)
    (hall : ∀ i, i < s.cfgK.val → (dataAt s i).present = true) : b.dst.Nodup := by
  rw [dst_eq_rebuilt hb]
  refine (List.nodup_range.filter _).map_on fun i hi j hj heq => ?_
  obtain ⟨hik, -⟩ := mem_rebuilt.1 hi
  obtain ⟨hjk, -⟩ := mem_rebuilt.1 hj
  exact dataSlot_injective h hr (by omega) (by omega) (hall i hik) (hall j hjk) heq

/-- A received share's slot is no destination (R56, R158). -/
theorem not_mem_dst_of_received (h : PoolInv s) (hr : s.run ≠ .stopped) {i : Nat} (hi : i < s.cfgK.val)
    (hp : (dataAt s i).present = true) (hrec : (dataAt s i).recon = false) : (dataAt s i).slot ∉ b.dst := by
  intro hmem
  obtain ⟨j, hj, hpj, hrecj, heq⟩ := (mem_dst_iff_of_buildFrom hb _).1 hmem
  have hjk := List.mem_range.1 hj
  obtain rfl := dataSlot_injective h hr (by omega) (by omega) hpj hp heq
  exact Bool.false_ne_true (hrec.symm.trans hrecj)

end

/-- A codec that meets the contract answers the rebuilt entries' shares, in order (R160). -/
theorem codec_answers_rebuilt {codec : List Nat → List (List Byte) → Nat → CodecReply}
    {E : List (List Byte) → List (List Byte)} {D : List (List Byte)} {s : State} {b : Shares}
    (hcodec : Config.CodecContract s.cfgK.val s.cfgN.val s.cfgMtu.toNat E codec)
    (hsys : Config.Systematic s.cfgK.val s.cfgN.val s.cfgMtu.toNat E) (hD : D.length = s.cfgK.val)
    (hsize : ∀ d ∈ D, d.length = s.cfgMtu.toNat) (hkn : s.cfgK.val < s.cfgN.val) (hb : buildShares s = .ok b)
    (hdata : ∀ i, i < s.cfgK.val → (dataAt s i).recon = false →
      some (memRead s (dataAt s i).slot 0 s.cfgMtu.toNat) = D[i]?)
    (hred : ∀ q ∈ redPresent s, some (memRead s (redAt s q).slot 0 s.cfgMtu.toNat) = (E D)[q]?) :
    codec b.idx (shareBytes s b) b.dst.length = .ok ((rebuilt s).map fun i => D.getD i []) := by
  obtain ⟨-, -, hE⟩ := hsys D hD hsize
  obtain ⟨hidx, hsrc⟩ := buildFrom_length hb
  rw [List.length_range] at hidx hsrc
  have hsources := fun j hj => sources_correct hb (C := E D) (j := j)
    (fun i hi hrec => (hdata i hi hrec).trans (hE i hi).symm) hred hj
  have hanswer := hcodec D b.idx (shareBytes s b) hD hsize hidx (idx_nodup hb) (fun q hq => idx_lt hb hkn hq)
    ⟨by rw [shareBytes, List.length_map, hsrc], hsources⟩
  rwa [missing_idx hb, ← List.length_map (fun i => (dataAt s i).slot), ← dst_eq_rebuilt hb] at hanswer

/-- Settles O35: the answer is the rebuilt entries' shares in order, so each is written to its own entry's slot, and the
received shares lie in other slots. -/
theorem reconstructionRecoversBlock : Obligations.ReconstructionRecoversBlock := by
  unfold Obligations.ReconstructionRecoversBlock
  intro s E D codec hworker hpool hr hw hsys hcodec hD hsize hdata hred
  have hne : s.run ≠ .stopped := by simp [hr]
  obtain ⟨hvalid, -⟩ := hworker.config hne
  obtain ⟨-, hkn, -⟩ := (configValid_iff _ _ _ _).1 hvalid
  have hall := (dataCount_eq_cfgK_iff s).1 (phaseInv_decode hw hworker.phase).1
  obtain ⟨b, hb⟩ := buildShares_completes hw hworker.phase
  have hanswer := codec_answers_rebuilt hcodec hsys hD hsize hkn hb hdata fun q hq => by
    obtain ⟨hn, hk, hp⟩ := mem_redPresent.1 hq
    exact hred q hk hn hp
  have hshare : ∀ i, i < s.cfgK.val → D[i]? = some (D.getD i []) := fun i hi => by
    rw [List.getD_eq_getElem?_getD, List.getElem?_eq_getElem (by omega), Option.getD_some]
  have hin : ∀ x ∈ b.src ++ b.dst, x.val < 2 * s.cfgN.val := fun x hx =>
    (mem_holders_iff hpool hne x).1 (holders_eq s ▸ List.mem_append_right _ (mem_collected_of_buildShares hb hx))
  have hlen : ((rebuilt s).map fun i => D.getD i []).length = b.dst.length := by simp [dst_eq_rebuilt hb]
  have hlens : ∀ d ∈ (rebuilt s).map fun i => D.getD i [], d.length = s.cfgMtu.toNat := fun d hd => by
    obtain ⟨i, hi, rfl⟩ := List.mem_map.1 hd
    exact hsize _ (List.mem_of_getElem? (hshare i (mem_rebuilt.1 hi).1))
  obtain ⟨t, hexec, hfilled, hkept, ht⟩ :=
    decodeFillsDestinations s b _ hr hw hb (dst_nodup hb hpool hne hall) hin hlen hlens
  refine ⟨b, t, hb, hanswer ▸ hexec, fun i hi => ?_⟩
  have hentry : dataAt t i = dataAt s i := by rw [ht]; rfl
  rw [hentry]
  cases hrec : (dataAt s i).recon with
  | false =>
    have hout := not_mem_dst_of_received hb hpool hne hi (hall i hi) hrec
    rw [← hdata i hi hrec]
    exact congrArg some (memRead_congr fun o ho => hkept _ o (by omega) (.inl hout))
  | true =>
    obtain ⟨j, hj⟩ := List.mem_iff_getElem?.1 (mem_rebuilt.2 ⟨hi, hrec⟩)
    have hx : b.dst[j]? = some (dataAt s i).slot := by rw [dst_eq_rebuilt hb, List.getElem?_map, hj]; rfl
    rw [hfilled j _ hx, List.getElem?_map, hj, hshare i hi]
    rfl

end Sys2Proof.Machine
end

section
/-! FATAL and what runs outside RUNNING (R186 to R188, R211): the fatal entry's writes, that every internal step and packet
row holds while the block is not RUNNING, and what is left for the other instructions to do in FATAL. -/

namespace Sys2Proof.Machine

/-- Settles O37: while RUNNING the row is the entry `raiseFatal`. -/
theorem fatalEntry : Obligations.FatalEntry := by
  unfold Obligations.FatalEntry
  intro c s hr
  have hexec : exec (.fatal c) s = .next (raiseFatal c s) := if_pos hr
  rw [hexec, raiseFatal_eq, resp32_failFatal]

/-! ## Outside RUNNING the guards are false (R187) -/

section
variable {s : State} (hr : s.run ≠ .running)
include hr

theorem framerOn_off : ¬ framerOn s = true := fun h => hr ((framerOn_iff s).1 h).1

theorem workerIn_off (p : Wph) : ¬ workerIn p s = true := fun h => hr ((workerIn_iff p s).1 h).1

theorem offer_off : offer s = none := by rw [offer_eq, if_neg (mt And.left hr)]

theorem acceptAs_holds (c : PacketClass) (h : Header) (act : Desc → List Desc → Result) :
    acceptAs c h s act = .next s := by
  obtain ⟨_, _, _, hrun, _⟩ | hheld := acceptAs_cases c h s act
  · exact absurd hrun hr
  · exact hheld

theorem classInstr_holds (c : PacketClass) (h : Header) : exec (classInstr c h) s = .next s := by
  cases c <;> exact acceptAs_holds hr _ h _

theorem execAccept_holds : execAccept s = .next s := by
  cases hf : s.fifo with
  | nil => exact execAccept_empty hf
  | cons d rest => exact (execAccept_eq hf).trans (classInstr_holds hr _ _)

theorem execEmit_holds : execEmit s = .next s := by rw [execEmit, offer_off hr, hold_eq]

/-- An internal step's guard asks for RUNNING, directly or through the offer. -/
theorem exec_internal_holds {i : Instr} (hi : encode i = .internal) (hne : i ≠ .reset) : exec i s = .next s := by
  cases i with
  | fHdrByte => exact execFHdrByte_off (framerOn_off hr)
  | fPayByte | fPoolFail | fEnq | fFifoFail | submitDone => exact if_neg (mt And.left (framerOn_off hr))
  | accept => exact execAccept_holds hr
  | emit => exact execEmit_holds hr
  | emitDone => exact if_neg (mt And.left (workerIn_off hr _))
  | acq | decode | finish => exact if_neg (workerIn_off hr _)
  | fatal => exact if_neg hr
  | reset => exact absurd rfl hne
  | _ => cases hi

end

/-- The instructions that a packet's header encodes are the rows of the classification map (R74). -/
theorem eq_classInstr_of_encode {i : Instr} {b : Vector Byte 6} (hi : encode i = .header b) :
    ∃ c h, i = classInstr c h := by
  cases i with
  | pktMalformedIndex h => exact ⟨.malformedIndex, h, rfl⟩
  | pktMalformedSize h => exact ⟨.malformedSize, h, rfl⟩
  | pktStale h => exact ⟨.stale, h, rfl⟩
  | pktSupersede h => exact ⟨.supersede, h, rfl⟩
  | pktDupData h => exact ⟨.dupData, h, rfl⟩
  | pktData h => exact ⟨.data, h, rfl⟩
  | pktDupRed h => exact ⟨.dupRed, h, rfl⟩
  | pktRed h => exact ⟨.red, h, rfl⟩
  | _ => cases hi

/-- Settles O41: an internal step's guard is false, and so is ACCEPT's, which every packet row shares. -/
theorem nothingRunsUnlessRunning : Obligations.NothingRunsUnlessRunning := by
  unfold Obligations.NothingRunsUnlessRunning
  rintro i s hr (⟨hi, hne⟩ | ⟨b, hi⟩)
  · exact exec_internal_holds hr hi hne
  · obtain ⟨c, h, rfl⟩ := eq_classInstr_of_encode hi
    exact classInstr_holds hr c h

/-! ## What FATAL leaves to do (R188) -/

/-- In FATAL an effect other than STOP's and RESET's at most answers: each of the others needs the block RUNNING, or
STOPPED as INIT's start does. -/
theorem effect_in_fatal {i : Instr} {s t : State} (he : Effect i s t) (hr : s.run = .fatal) (hstop : i ≠ .stop)
    (hreset : i ≠ .reset) : ∃ os, t = { s with outs := s.outs ++ os } ∧ ∀ len bytes, Output.ready len bytes ∉ os := by
  have hnot : s.run ≠ .running := by simp [hr]
  cases he with
  | held => exact ⟨[], by simp, by simp⟩
  | answered os hos => exact ⟨os, rfl, hos⟩
  | started _ hs => simp [hr] at hs
  | stoppedAgain _ hi | stopped _ hi => exact absurd hi hstop
  | reset hi => exact absurd hi hreset
  | emitted _ ho => simp [offer_off hnot] at ho
  | submitted | headerByte | payloadByte | poolFailed | enqueued | fifoFailed | submitDone | discarded | dataInserted
  | redInserted | purged | emitDone | destination | decoded | finished | raised | doubleFreed =>
    exact absurd ‹s.run = .running› hnot

/-- Settles O40: what the instruction does is one of the effects, and FATAL leaves holding and answering. -/
theorem fatalLeftOnlyByStopOrReset : Obligations.FatalLeftOnlyByStopOrReset := by
  unfold Obligations.FatalLeftOnlyByStopOrReset
  intro i s t hr hstop hreset h
  exact effect_in_fatal (exec_effect h) hr hstop hreset

end Sys2Proof.Machine
end

section
/-! The RESET instruction (R210): it leaves the state after reset, but for what the model keeps beside the machine (log 20). -/

namespace Sys2Proof.Machine

/-- What RESET leaves in `s`: the state after reset, beside it what the model keeps (log 20), and an unwritten BUF that
dates from this step (log 4). -/
def afterReset (s : State) : State :=
  { State.reset with
    par := s.par, sched := s.sched, tick := s.tick, bufEpoch := s.tick, outs := s.outs, verdicts := s.verdicts }

theorem exec_reset (s : State) : exec .reset s = .next (afterReset s) := rfl

theorem dataAt_afterReset (s : State) (i : Nat) : dataAt (afterReset s) i = DataEntry.empty := dataAt_reset i

theorem redAt_afterReset (s : State) (q : Nat) : redAt (afterReset s) q = RedEntry.empty := redAt_reset q

theorem run_afterReset_ne_running (s : State) : (afterReset s).run ≠ .running := nofun

/-- The step writes no byte of BUF, so each reads as the free value of log 4. -/
theorem byteAt_afterReset (s : State) (x : Slot) (o : Nat) :
    byteAt (afterReset s) x o = Config.freeByte (afterReset s).bufEpoch (bufKey x o) := rfl

/-- Settles O38: RESET leaves `afterReset s`, whose collections and BUF are those after reset, and a STOPPED block makes no
offer. -/
theorem resetStep : Obligations.ResetStep := by
  unfold Obligations.ResetStep
  intro s
  have hdata (i : Nat) (_ : i < 31) : (dataAt (afterReset s) i).present = false ∧ (dataAt (afterReset s) i).disp = false
      ∧ (dataAt (afterReset s) i).recon = false := by
    rw [dataAt_afterReset]
    exact ⟨rfl, rfl, rfl⟩
  have hred (q : Nat) (_ : q < 32) : (redAt (afterReset s) q).present = false :=
    congrArg RedEntry.present (redAt_afterReset s q)
  have hoffer : offer (afterReset s) = none := offer_off (run_afterReset_ne_running s)
  exact ⟨afterReset s, exec_reset s, rfl, rfl, rfl, rfl, rfl, rfl, rfl, rfl, hdata, hred, rfl, rfl, rfl, rfl, rfl, rfl, rfl,
    rfl, rfl, rfl, rfl, rfl, hoffer, byteAt_afterReset s⟩

end Sys2Proof.Machine
end
